-- ==== Sys2Proof/Word.lean ====
section
/-! DEFINITION. The word type and the address type of the block (00_scope.md R14: a Word has the fixed width 8, an
Address the fixed width 16). Every quantity is unsigned (R10, R17). -/

namespace Sys2Proof

/-- A Word: "unsigned integer, fixed bit width (8), the unit of data transferred" (R14). -/
abbrev Word := BitVec 8

/-- Sixteen bits: an Address on the port, the shift register, its latch, the serializer's bit vector (R14, R25 to R27). -/
abbrev Addr := BitVec 16

/-- The erased value, "conventionally the all-ones word" (R9: `ERASED_VALUE = 0xFF`). -/
def erasedValue : Word := 0xFF

end Sys2Proof
end

