-- ==== Sys2Proof/Config.lean ====
section
/-! DEFINITION. The configuration record of 00_scope.md R9, fixed for a whole run, and the free values: what the spec
leaves as "any value, a draw" (93_implementation_defined.md U3 to U7, U13) and the open texts of the adapter. A free value
is an opaque constant: nothing can be proved about it, so a claim holds whatever it is. -/

namespace Sys2Proof

/-- A physical logic level of a line (R13). -/
inductive Level where
  | low
  | high
  deriving DecidableEq, Repr

/-- The complement of a level (R125: "POL(CS) when asserted and its complement when deasserted"). -/
def Level.flip : Level → Level
  | .low => .high
  | .high => .low

/-- The logical signals of 10_state.md R24, all ten and the bus; `data i` is line `i` of `D[7:0]`. -/
inductive Signal where
  | ser
  | sclk
  | rclk
  | mr
  | sroe
  | cs
  | oel
  | oeh
  | aov
  | ddir
  | data (line : Fin 8)
  deriving DecidableEq, Repr

/-- One entry for each logical signal of 10_state.md R24: what `POL` and `PIN` of R9 are tables of. -/
structure SignalTable (α : Type) where
  ser : α
  sclk : α
  rclk : α
  mr : α
  sroe : α
  cs : α
  oel : α
  oeh : α
  aov : α
  ddir : α
  data : Vector α 8
  deriving DecidableEq, Repr

/-- The entry of a signal. -/
def SignalTable.get {α : Type} (t : SignalTable α) : Signal → α
  | .ser => t.ser
  | .sclk => t.sclk
  | .rclk => t.rclk
  | .mr => t.mr
  | .sroe => t.sroe
  | .cs => t.cs
  | .oel => t.oel
  | .oeh => t.oeh
  | .aov => t.aov
  | .ddir => t.ddir
  | .data i => t.data[i]

/-- The seven named durations (R9, 70_reset_and_hazards.md R230). -/
inductive DelayName where
  | readPulse
  | busSettle
  | progPulse
  | dataHold
  | erasePulse
  | eraseSettle
  | mrGuard
  deriving DecidableEq, Repr

/-- The values of the seven durations, in a unit the spec does not give (R230: "The source gives no number"). -/
structure Durations where
  readPulse : Nat
  busSettle : Nat
  progPulse : Nat
  dataHold : Nat
  erasePulse : Nat
  eraseSettle : Nat
  mrGuard : Nat
  deriving DecidableEq, Repr

/-- The configured value of a named duration. -/
def Durations.get (t : Durations) : DelayName → Nat
  | .readPulse => t.readPulse
  | .busSettle => t.busSettle
  | .progPulse => t.progPulse
  | .dataHold => t.dataHold
  | .erasePulse => t.erasePulse
  | .eraseSettle => t.eraseSettle
  | .mrGuard => t.mrGuard

/-- Which function `ProgramCell` (R9) is. DESIGN CHOICE (log entry 18): a name, since State is plain data; `custom` is any
function at all. -/
inductive CellRule where
  /-- the default, `ProgramCell(old, w) = w` (D15) -/
  | overwrite
  /-- `ProgramCell(old, w) = old AND w` (R65, from general knowledge) -/
  | clearOnly
  /-- a function the platform supplies: `Config.programCell` -/
  | custom
  deriving DecidableEq, Repr

/-- The mode register's values (10_state.md R23): "enumeration (Idle, ReadActive, ProgramActive)". -/
inductive Machine.CycleState where
  | idle
  | readActive
  | programActive
  deriving DecidableEq, Repr

/-- The outcome of one erase pulse (20_memory.md R66): "success", or "failure", after which `M` is any array at all, here
given by its cells (a cell that is not listed reads the erased value). -/
inductive EraseDraw where
  | success
  | failure (cells : List Host.Cell)
  deriving DecidableEq, Repr, Inhabited

/-- The adapter's strings (R9: "`BANNER`, `READY_TOKEN`, the four status strings, the violation report text"; the prompts and
`wp`'s cancellation message by 91_not_in_source.md N13). Every one is open; no step reads any. -/
structure AdapterTexts where
  /-- `BANNER` (R177) -/
  banner : List Char
  /-- `READY_TOKEN` (R177) -/
  readyToken : List Char
  /-- the status string of `br` (R72, R80) -/
  statusBr : List Char
  /-- the status string of `er` -/
  statusEr : List Char
  /-- the status string of `bp` -/
  statusBp : List Char
  /-- the status string of `ep` -/
  statusEp : List Char
  /-- the report of a strict-mode violation (R171) -/
  violationReport : List Char
  /-- the prompt of `e` (R172) -/
  erasePrompt : List Char
  /-- the prompt of `wp` (R173, R174) -/
  patternPrompt : List Char
  /-- the cancellation message of `wp` (R80) -/
  patternCancelled : List Char
  deriving DecidableEq, Repr

/-- The configuration record `Cfg` (R9), "Loaded once at startup; immutable thereafter". -/
structure Cfg where
  /-- `MEMORY_SIZE`, the number of device words -/
  memorySize : Nat
  /-- `BitOrderMap`, from address bit index to register slot -/
  bitOrderMap : Vector (Fin 16) 16
  /-- `STRICT` (10_state.md R35) -/
  strict : Bool
  /-- `POL` of the signals whose polarity is open (read through `Cfg.polarity`) -/
  pol : SignalTable Level
  /-- `PIN`, physical line identifiers, used by no rule -/
  pin : SignalTable Nat
  /-- the seven durations -/
  durations : Durations
  /-- `DELAY_GRANULARITY`, used by no rule -/
  delayGranularity : Nat
  /-- `OVERRIDE_LINE`, the device address line of the override net -/
  overrideLine : Fin 16
  /-- `ProgramCell` -/
  cellRule : CellRule
  /-- `ERASE_MAX_ATTEMPTS`, what the adapter passes for `e` -/
  eraseMaxAttempts : Nat
  /-- `CANCEL_BYTE` of the ASCII channel -/
  cancelByte : Word
  /-- `MAX_LINE_LENGTH` of the ASCII channel -/
  maxLineLength : Nat
  /-- `RESPONSE_BUFFER_SIZE` of the ASCII channel -/
  responseBufferSize : Nat
  /-- the adapter's strings -/
  texts : AdapterTexts
  /-- `WP_START`, the first address of a test-pattern run (46_adapter_commands.md R175) -/
  wpStart : Addr
  /-- `WP_END_INCLUSIVE`: the end address itself is written (R175) -/
  wpEndInclusive : Bool
  /-- `WP_REQUIRED_CS`, the state `wp` must be called in (R175) -/
  wpRequiredCs : Machine.CycleState
  deriving DecidableEq, Repr

/-- `BitOrderMap` is a bijection on `[0, 16)` (R14): on a finite range, no slot is used twice. -/
abbrev Cfg.bijective (c : Cfg) : Prop :=
  ∀ i j : Fin 16, c.bitOrderMap[i] = c.bitOrderMap[j] → i = j

/-- What a configuration of this block satisfies (R9, D27, 93_implementation_defined.md X2, X3). -/
abbrev Cfg.wf (c : Cfg) : Prop :=
  1 ≤ c.memorySize ∧ c.memorySize ≤ 65536 ∧ c.bijective

/-- `POL`, with the two entries the source fixes: master reset is asserted by driving its line low, and the serial clock's
active edge is the rising edge (R9, R13, D18). -/
def Cfg.polarity (c : Cfg) : Signal → Level
  | .mr => .low
  | .sclk => .high
  | sig => c.pol.get sig

/-- The physical level of a two-valued signal: `POL(sig)` applied to the logical value (R13, R125). No rule reads it. -/
def Cfg.physical (c : Cfg) (sig : Signal) (asserted : Bool) : Level :=
  if asserted then c.polarity sig else (c.polarity sig).flip

/-- The conventions of 95_test_vectors.md ("`STRICT = true` unless said. `BitOrderMap` = identity", "`MEMORY_SIZE = 0x10000`
unless said"). What the spec and its vectors leave open is the model's. DESIGN CHOICE (log entry 1): `POL` of every signal
whose polarity is open is `high` (asserted is the high level), every text is empty, `WP_END_INCLUSIVE` is set, `WP_REQUIRED_CS`
is `Idle`, every number is zero. Only `State.reset` uses it, and no statement rests on it. -/
def Cfg.vectors : Cfg where
  memorySize := 65536
  bitOrderMap := #v[0, 1, 2, 3, 4, 5, 6, 7, 8, 9, 10, 11, 12, 13, 14, 15]
  strict := true
  pol := ⟨.high, .high, .high, .low, .high, .high, .high, .high, .high, .high, Vector.replicate 8 .high⟩
  pin := ⟨0, 0, 0, 0, 0, 0, 0, 0, 0, 0, Vector.replicate 8 0⟩
  durations := ⟨0, 0, 0, 0, 0, 0, 0⟩
  delayGranularity := 0
  overrideLine := 0
  cellRule := .overwrite
  eraseMaxAttempts := 0
  cancelByte := 0
  maxLineLength := 0
  responseBufferSize := 0
  texts := ⟨[], [], [], [], [], [], [], [], [], []⟩
  wpStart := 0
  wpEndInclusive := true
  wpRequiredCs := .idle

namespace Config

/-- A drawn Word (R64 `otherwise`, R65 `else`), a fresh one for each number drawn. Log entry 4. -/
opaque freeWord : Nat → Word

/-- A drawn device address, reduced modulo `MEMORY_SIZE` where it is used (R62 with `SROE = off`). Log entry 4. -/
opaque freeAddress : Nat → Nat

/-- A drawn content of `S` or `L` (R97). Log entry 4. -/
opaque freeRegister : Nat → Addr

/-- The host's answer to a `poll_cancel()` that `cancelIn` does not give (R11, U13). Log entry 5. -/
opaque freeCancel : Nat → Bool

/-- The outcome of an erase pulse that `eraseScript` does not give (R66, U6). Log entry 5. -/
opaque freeErase : Nat → EraseDraw

/-- The platform's own `ProgramCell(old, w)` (R9), used with `CellRule.custom`. -/
opaque programCell : Word → Word → Word

/-- `Pattern(a)`, the "incrementing" pattern of `wp` (46_adapter_commands.md R175). Log entry 26. -/
opaque pattern : Addr → Word

/-- Whether the normal response is also sent when strict mode rejects the command of a line (R171). Log entry 19. -/
opaque answersRejected : Bool

/-- How the report of an erase mismatch reads (R172, N13): attempt, address, expected and actual word. Log entry 19. -/
opaque mismatchText : Nat → Addr → Word → Word → List Char

/-- How a mismatch that `wp` finds reads (R174, N13): address, expected and actual word. Log entry 26. -/
opaque patternMismatchText : Addr → Word → Word → List Char

/-- What is sent about the failure count of `wp` (R174, R175). Log entry 26. -/
opaque failureCountTexts : Nat → List (List Char)

/-- Whether `wp` called in a state other than `WP_REQUIRED_CS` starts its run all the same (R175). Log entry 26. -/
opaque patternRunsAnywhere : Bool

/-- What is sent for a `wp` that does not start (R175). Log entry 26. -/
opaque patternRefusedTexts : List (List Char)

/-- What is sent for a line that is no command (R84, N12). Log entry 19. -/
opaque unknownLineTexts : List Char → List (List Char)

end Config

end Sys2Proof
end

