-- ==== Sys2Proof/Syntax.lean ====
section
/-! DEFINITION. The command set: the seven rows of spec/opcode_table.json (30_encoding.md R74), and the table of their
patterns (R76) as data. -/

namespace Sys2Proof

/-- One command of the block (R74). The address operand is the field `addr16` as presented; it is reduced modulo
`MEMORY_SIZE` when the command runs (R77). The attempt bound of E is any natural number in the core rule (R151). -/
inductive Instr where
  /-- `BR` = `begin_read()` (R134) -/
  | br
  /-- `R addr` = `read_byte(addr)` (R135) -/
  | r (addr : Addr)
  /-- `ER` = `end_read()` (R139) -/
  | er
  /-- `BP` = `begin_program()` (R140) -/
  | bp
  /-- `P addr, word` = `write_byte(addr, word)` (R141) -/
  | p (addr : Addr) (word : Word)
  /-- `EP` = `end_program()` (R142) -/
  | ep
  /-- `E n` = `erase(max_attempts = n)` (R151) -/
  | e (maxAttempts : Nat)
  deriving DecidableEq, Repr

/-- The opcode of a command (R76). -/
def Instr.opcode : Instr → BitVec 4
  | .br => 1
  | .r _ => 2
  | .er => 3
  | .bp => 4
  | .p _ _ => 5
  | .ep => 6
  | .e _ => 7

/-- One row of the opcode table (R76): a word `w` spells the row's command exactly when `w AND mask = pattern`. -/
structure OpcodeRow where
  opcode : BitVec 4
  pattern : BitVec 32
  mask : BitVec 32
  deriving DecidableEq, Repr

/-- The seven rows of R76, `match` and `mask` as the table prints them. -/
def opcodeTable : List OpcodeRow :=
  [ ⟨1, 0x10000000, 0xFFFFFFFF⟩,
    ⟨2, 0x20000000, 0xFF0000FF⟩,
    ⟨3, 0x30000000, 0xFFFFFFFF⟩,
    ⟨4, 0x40000000, 0xFFFFFFFF⟩,
    ⟨5, 0x50000000, 0xFF000000⟩,
    ⟨6, 0x60000000, 0xFFFFFFFF⟩,
    ⟨7, 0x70000000, 0xFFFFFF00⟩ ]

/-- The word spells the row's command (R76). -/
abbrev OpcodeRow.spells (row : OpcodeRow) (w : BitVec 32) : Prop := w &&& row.mask = row.pattern

end Sys2Proof
end

