-- ==== Sys2Proof/Machine/State.lean ====
section
/-! DEFINITION. The machine state as plain data (10_state.md), the events of the trace (R40), and the state after reset
(R44). -/

namespace Sys2Proof.Machine

/-- The two values of `MR` and `CS` (R24). -/
inductive Assertion where
  | asserted
  | deasserted
  deriving DecidableEq, Repr

/-- The two values of `SROE`, `OEH` and `AOV` (R24). -/
inductive Switch where
  | on
  | off
  deriving DecidableEq, Repr

/-- The values of `OEL`, the logic-level driver of the output-enable net (R24). -/
inductive LogicDrive where
  | off
  | low
  | high
  deriving DecidableEq, Repr

/-- The values of `DDIR` (R24): `In` and `Out`. -/
inductive Direction where
  | input
  | output
  deriving DecidableEq, Repr

/-- The output-enable modes (42_power_sequencer.md R115). -/
inductive OutputEnable where
  | disabled
  | logicLow
  | logicHigh
  | highVoltage
  deriving DecidableEq, Repr

/-- The address-override modes (R116). -/
inductive Override where
  | normal
  | highVoltage
  deriving DecidableEq, Repr

/-- What one device address line carries (R30, R62). -/
inductive AddressLine where
  | level (b : Bool)
  | highVoltage
  | undriven
  deriving DecidableEq, Repr

/-- The outcome codes (60_exceptions.md R191); the codes `5..15` are "never produced". -/
inductive Status where
  | ok
  | seqViolation
  | eraseFailed
  | cancelled
  | illegal
  deriving DecidableEq, Repr

/-- One `pin(SIG) <- v` (00_scope.md R11, R24). -/
inductive PinWrite where
  | ser (v : Bool)
  | sclk (v : Bool)
  | rclk (v : Bool)
  | mr (v : Assertion)
  | sroe (v : Switch)
  | cs (v : Assertion)
  | oel (v : LogicDrive)
  | oeh (v : Switch)
  | aov (v : Switch)
  | ddir (v : Direction)
  | d (w : Word)
  deriving DecidableEq, Repr

/-- What a command reports to the host (R132, R154). -/
inductive Report where
  | sequencingViolation (opc : BitVec 4) (cs required : CycleState)
  | eraseMismatch (attempt : Nat) (addr : Addr) (expected actual : Word)
  deriving DecidableEq, Repr

/-- One event of the trace (R40). -/
inductive Event where
  | pin (p : PinWrite)
  | delay (t : DelayName)
  | sample (w : Word)
  | report (x : Report)
  | cancelPoll (b : Bool)
  deriving DecidableEq, Repr

/-- The erase record (R33); the verify address counter has 17 bits (R22). -/
structure EraseRecord where
  attempt : Nat
  vaddr : BitVec 17
  ok : Bool
  failAddr : Addr
  failVal : Word
  cancelled : Bool
  deriving DecidableEq, Repr

/-- The device's cells (R37, R60), in one canonical form: addresses strictly rising, no cell that reads the erased value
(what an unlisted cell reads; log entry 3). -/
abbrev Memory := List Host.Cell

/-- The machine state (R20). The first group is the controller's, then the external register's, the results, the device,
the model's trace and mark, the configuration, and last the environment's inputs. -/
structure State where
  /-- the mode register `cs` (R23) -/
  cs : CycleState
  /-- `SER`, serial data (R24) -/
  ser : Bool
  /-- `SCLK`, serial clock (R24) -/
  sclk : Bool
  /-- `RCLK`, latch (R24) -/
  rclk : Bool
  /-- `MR`, master reset (R24) -/
  mr : Assertion
  /-- `SROE`, the register's output stage (R24) -/
  sroe : Switch
  /-- the signal `CS`, device select (R24) -/
  csel : Assertion
  /-- `OEL`, logic driver of the output-enable net (R24) -/
  oel : LogicDrive
  /-- `OEH`, high-voltage driver of the output-enable net (R24) -/
  oeh : Switch
  /-- `AOV`, high-voltage driver of the override net (R24) -/
  aov : Switch
  /-- `DDIR`, direction of the data lines (R24) -/
  ddir : Direction
  /-- `D[7:0]`: the last word driven by `Pin(D, w)`, none before the first (R24) -/
  d : Option Word
  /-- `DOUT`, the word driven while `DDIR = Out` (R28) -/
  dout : Word
  /-- `VEC`, the serializer's bit vector (R27) -/
  vec : Addr
  /-- `S`, the external register's shift stages (R25) -/
  shiftReg : Addr
  /-- `L`, the external register's output latch (R26) -/
  latch : Addr
  /-- the erase record, present during E only (R33) -/
  erase : Option EraseRecord
  /-- `STATUS` (R34) -/
  status : Status
  /-- `RADDR` (R34) -/
  raddr : Addr
  /-- `RDATA` (R34) -/
  rdata : Word
  /-- `RW[31:28]`: opcode of the command answered (30_encoding.md R79) -/
  ropc : BitVec 4
  /-- `BUSY` (R36) -/
  busy : Bool
  /-- `M`, the device's cells (R37) -/
  mem : Memory
  /-- the event trace, in program order (R40) -/
  trace : List Event
  /-- the sticky mark of R196, the model's own -/
  fault : Bool
  /-- `Cfg` (R9), written by no command -/
  cfg : Cfg
  /-- the stream of command words the host presents (R39); log entry 6 -/
  commands : List (BitVec 32)
  /-- the host's coming answers to `poll_cancel()` (R39); log entry 5 -/
  cancelIn : List Bool
  /-- the outcomes of coming erase pulses (R66); log entry 5 -/
  eraseScript : List EraseDraw
  /-- how many free values were drawn, the model's own counter; log entry 4 -/
  draws : Nat
  deriving DecidableEq, Repr

/-- The reasons a step can end in a fault: none. "No exceptions propagate across the hardware boundary" (R190), and no
behaviour of the spec "uses stuck" (93_implementation_defined.md), so the type is empty. -/
inductive Fault where
  deriving DecidableEq, Repr

/-- The reasons a step is refused. -/
inductive Refusal where
  /-- raised by `exec` for an instruction without a meaning; no arm does. Safe. -/
  | notModelled (mnemonic : String)
  /-- raised by every command of a machine whose `Cfg` is no configuration of this block: `BitOrderMap` not a bijection, or
  `MEMORY_SIZE` not in `1..65536` (X2, X3, R218). Safe: the model says nothing of such a machine. -/
  | notAConfiguration
  /-- raised when a command is presented while `BUSY = 1`: "not accepted; the host waits" (X4, R36). Safe. -/
  | portBusy
  deriving DecidableEq, Repr

/-- The state after the reset sequence (R44) of a machine with this configuration and these cells; "`M` unchanged by
reset". `VEC` and `DOUT`, unspecified in R44, are zero: DESIGN CHOICE (log entry 2). -/
def State.resetWith (cfg : Cfg) (mem : Memory) : State where
  cs := .idle
  ser := false
  sclk := false
  rclk := false
  mr := .deasserted
  sroe := .off
  csel := .deasserted
  oel := .high
  oeh := .off
  aov := .off
  ddir := .input
  d := none
  dout := 0
  vec := 0
  shiftReg := 0
  latch := 0
  erase := none
  status := .ok
  raddr := 0
  rdata := 0
  ropc := 0
  busy := false
  mem := mem
  trace := []
  fault := false
  cfg := cfg
  commands := []
  cancelIn := []
  eraseScript := []
  draws := 0

/-- The machine right after reset, with the configuration of 95_test_vectors.md and no cell listed (log entries 1, 3). -/
def State.reset : State := State.resetWith Cfg.vectors []

end Sys2Proof.Machine
end

