-- ==== Sys2Proof/Machine/Ops.lean ====
section
/-! DEFINITION. The operations everything else is written in: bit helpers, the device's cells (20_memory.md R60), the
reference device (R62 to R66), the external register (40_address_serializer.md R96, R97), the primitives of 00_scope.md R11
(pin, delay, sample, report, poll_cancel), and ending a command: its normal end, `raise` (60_exceptions.md R192), the
precondition check (44_cycle_state_machine.md R132) and acceptance at the port (10_state.md R36). `raise` is the whole of
"trap entry" (R190); there is no return from it (R201). -/

namespace Sys2Proof.Machine

/-! ### Bits -/

/-- `v` with bit `k` set to `b` (R10). -/
def setBit (v : Addr) (k : Fin 16) (b : Bool) : Addr :=
  if b then v ||| BitVec.twoPow 16 k.val else v &&& ~~~BitVec.twoPow 16 k.val

/-- The sixteen bit positions. -/
def bitIndices : List (Fin 16) := [0, 1, 2, 3, 4, 5, 6, 7, 8, 9, 10, 11, 12, 13, 14, 15]

/-- `for i in 0 .. 15: VEC[BitOrderMap[i]] <- a[i]` over the old content of `VEC` (R91). -/
def fillVec (cfg : Cfg) (a vec : Addr) : Addr :=
  bitIndices.foldl (fun v i => setBit v cfg.bitOrderMap[i] (a.getLsbD i.val)) vec

/-- `Ser(a)`: `Ser(a)[BitOrderMap[i]] = a[i]` (R58, R93). -/
def serOf (cfg : Cfg) (a : Addr) : Addr := fillVec cfg a 0

/-- `Deser(v)`: `Deser(v)[i] = v[BitOrderMap[i]]`, which is `sum over i of v[BitOrderMap[i]] * 2^i` (R30, R58). -/
def deserOf (cfg : Cfg) (v : Addr) : Addr :=
  bitIndices.foldl (fun a i => setBit a i (v.getLsbD cfg.bitOrderMap[i].val)) 0

/-- `{S[14:0], SER}` (R25, R96): a new bit enters at `S[0]`. -/
def shiftIn (s : Addr) (b : Bool) : Addr := (s <<< 1) ||| (BitVec.ofBool b).setWidth 16

/-! ### The device's cells -/

/-- `MemRead(a, 1)` (R60): an unlisted cell reads the erased value (log entry 3). -/
def memRead : Memory → Nat → Word
  | [], _ => erasedValue
  | (b, x) :: m, a => if a = b then x else memRead m a

/-- `MemWrite(a, 1, v)` (R60), keeping the canonical form. -/
def memWrite : Memory → Nat → Word → Memory
  | [], a, v => if v = erasedValue then [] else [(a, v)]
  | (b, x) :: m, a, v =>
    if a < b then (if v = erasedValue then (b, x) :: m else (a, v) :: (b, x) :: m)
    else if a = b then (if v = erasedValue then m else (b, v) :: m)
    else (b, x) :: memWrite m a v

/-- Every cell listed lies at `lo` or above and below `size`, the addresses rise, and none reads the erased value. -/
def memWfFrom (size : Nat) : Nat → Memory → Bool
  | _, [] => true
  | lo, (a, v) :: m => decide (lo ≤ a) && decide (a < size) && decide (v ≠ erasedValue) && memWfFrom size (a + 1) m

/-- The canonical form of the cells of a device of `size` words. -/
def Memory.wf (size : Nat) (m : Memory) : Bool := memWfFrom size 0 m

/-- "any array at all" (R66), from a list of cells: a later cell overwrites an earlier one, and an address that the device
does not have is dropped. -/
def arrayOf (size : Nat) (cells : List Host.Cell) : Memory :=
  cells.foldl (fun m c => if c.1 < size then memWrite m c.1 c.2 else m) []

/-! ### Derived views of the lines -/

/-- `OEmode(OEL, OEH)` (R29); `none` is the forbidden combination. -/
def oeMode (oel : LogicDrive) (oeh : Switch) : Option OutputEnable :=
  match oel, oeh with
  | .off, .off => some .disabled
  | .low, .off => some .logicLow
  | .high, .off => some .logicHigh
  | .off, .on => some .highVoltage
  | _, .on => none

/-- The output-enable mode of a state (R29). -/
def outputEnableMode (s : State) : Option OutputEnable := oeMode s.oel s.oeh

/-- The override mode of a state (R29). -/
def overrideMode (s : State) : Override :=
  match s.aov with
  | .off => .normal
  | .on => .highVoltage

/-- The data lines as the controller drives them: `DOUT` while `DDIR = Out`, else not driven (R24, R106). -/
def dataLines (s : State) : Option Word :=
  match s.ddir with
  | .output => some s.dout
  | .input => none

/-- What device address line `i` carries (R30, R62): the override line is at high voltage while `AOV = on`; the others carry
register output `BitOrderMap[i]` while `SROE = on`. -/
def addressLine (s : State) (i : Fin 16) : AddressLine :=
  if s.aov = .on ∧ i = s.cfg.overrideLine then .highVoltage
  else if s.sroe = .on then .level (s.latch.getLsbD s.cfg.bitOrderMap[i].val)
  else .undriven

/-! ### Free values -/

/-- One more free value has been drawn. -/
def takeDraw (s : State) : State := { s with draws := s.draws + 1 }

/-- `S` and `L` are draws (R97). -/
def redrawRegister (s : State) : State :=
  { s with
    shiftReg := Config.freeRegister s.draws
    latch := Config.freeRegister (s.draws + 1)
    draws := s.draws + 2 }

/-! ### The reference device -/

/-- `DevAddr` (R62): the latched address modulo `MEMORY_SIZE` with `SROE = on`, a draw in `[0, MEMORY_SIZE)` otherwise. -/
def devAddr (s : State) : Nat :=
  if s.sroe = .on then (deserOf s.cfg s.latch).toNat % s.cfg.memorySize
  else Config.freeAddress s.draws % s.cfg.memorySize

/-- The first arm of `BusValue` (R64): the device drives the bus and the address bus is driven. -/
abbrev BusDriven (s : State) : Prop :=
  s.ddir = .input ∧ s.csel = .asserted ∧ outputEnableMode s = some .logicLow ∧ s.aov = .off ∧ s.sroe = .on

/-- `BusValue(state, draw)` (R64). -/
def busValue (s : State) : Word :=
  if BusDriven s then memRead s.mem (devAddr s) else Config.freeWord s.draws

/-- `ProgramCell(old, w)` (R9, R65). -/
def programCell (cfg : Cfg) (old w : Word) : Word :=
  match cfg.cellRule with
  | .overwrite => w
  | .clearOnly => old &&& w
  | .custom => Config.programCell old w

/-- The end of a program pulse (R65). -/
def programPulse (s : State) : State :=
  if s.ddir = .output ∧ s.sroe = .on then
    { s with mem := memWrite s.mem (devAddr s) (programCell s.cfg (memRead s.mem (devAddr s)) s.dout) }
  else
    { s with mem := memWrite s.mem (devAddr s) (Config.freeWord s.draws), draws := s.draws + 1 }

/-- The outcome of the erase pulse that ends now: the next of `eraseScript`, else a draw (R66; log entry 5). -/
def eraseOutcome (s : State) : EraseDraw :=
  match s.eraseScript with
  | x :: _ => x
  | [] => Config.freeErase s.draws

/-- The outcome just used is gone. -/
def dropOutcome (s : State) : State :=
  match s.eraseScript with
  | _ :: xs => { s with eraseScript := xs }
  | [] => takeDraw s

/-- `EraseOutcome(draw)` as an array (R66): every cell erased, or any array at all. -/
def erasedArray (size : Nat) : EraseDraw → Memory
  | .success => []
  | .failure cells => arrayOf size cells

/-- The end of an erase pulse (R66). -/
def erasePulse (s : State) : State :=
  { dropOutcome s with mem := erasedArray s.cfg.memorySize (eraseOutcome s) }

/-- The device at the end of a chip-select assertion (R65, R66): a program pulse, an erase pulse, or nothing. -/
def endOfPulse (s : State) : State :=
  if outputEnableMode s = some .highVoltage then
    match s.aov with
    | .off => programPulse s
    | .on => erasePulse s
  else s

/-- The device at `Pin(CS, v)`: it "look[s] at the level before the event" (R61, R125). -/
def selectReaction (v : Assertion) (s : State) : State :=
  if v = .deasserted ∧ s.csel = .asserted then endOfPulse s else s

/-! ### The external register -/

/-- The register at `Pin(SER, v)`: nothing, but for a change while `SCLK = 1`, which no rule makes (R96, R97). DESIGN CHOICE (log
entry 11): that change leaves draws while `MR` is asserted too, where R96 would keep zeros. -/
def serReaction (v : Bool) (s : State) : State :=
  if s.sclk = true ∧ s.ser ≠ v then redrawRegister s else s

/-- The register at `Pin(SCLK, v)`: a rising edge shifts (R96); raising it while `RCLK = 1`, which no rule does, leaves draws
(R97). DESIGN CHOICE (log entry 11): while `MR` is asserted R96 wins over R97, and no edge has an effect. -/
def clockReaction (v : Bool) (s : State) : State :=
  if v = true ∧ s.sclk = false ∧ s.mr = .deasserted then
    if s.rclk = true then redrawRegister s else { s with shiftReg := shiftIn s.shiftReg s.ser }
  else s

/-- The register at `Pin(RCLK, v)`: a rising edge copies `S` to `L` (R96); raising it while `SCLK = 1`, which no rule does,
leaves draws (R97). DESIGN CHOICE (log entry 11): while `MR` is asserted R96 wins over R97, and no edge has an effect. -/
def latchReaction (v : Bool) (s : State) : State :=
  if v = true ∧ s.rclk = false ∧ s.mr = .deasserted then
    if s.sclk = true then redrawRegister s else { s with latch := s.shiftReg }
  else s

/-- The register at `Pin(MR, v)`: asserted clears `S` and `L` (R96). -/
def resetReaction (v : Assertion) (s : State) : State :=
  if v = .asserted then { s with shiftReg := 0, latch := 0 } else s

/-! ### The primitives of R11 -/

/-- Append one event to the trace (R40). -/
def emit (x : Event) (s : State) : State := { s with trace := s.trace ++ [x] }

/-- `pin(SIG) <- v` (R11): the signal's field, the register's and the device's reaction, one event. -/
def pin (p : PinWrite) (s : State) : State :=
  emit (.pin p)
    (match p with
    | .ser v => { serReaction v s with ser := v }
    | .sclk v => { clockReaction v s with sclk := v }
    | .rclk v => { latchReaction v s with rclk := v }
    | .mr v => { resetReaction v s with mr := v }
    | .sroe v => { s with sroe := v }
    | .cs v => { selectReaction v s with csel := v }
    | .oel v => { s with oel := v }
    | .oeh v => { s with oeh := v }
    | .aov v => { s with aov := v }
    | .ddir v => { s with ddir := v }
    | .d w => { s with d := some w })

/-- `delay(T_X)` (R11): the event is all the model keeps of time (R205, R230). -/
def delay (t : DelayName) (s : State) : State := emit (.delay t) s

/-- `sample()` (R11, R64): the state after it; its value is `busValue` of the state before. -/
def sample (s : State) : State :=
  emit (.sample (busValue s)) (if BusDriven s then s else takeDraw s)

/-- `report(x)` (R11). -/
def report (x : Report) (s : State) : State := emit (.report x) s

/-- The answer of the host to the poll made now: the next of `cancelIn`, else a draw (R11, R39; log entry 5). -/
def cancelAnswer (s : State) : Bool :=
  match s.cancelIn with
  | b :: _ => b
  | [] => Config.freeCancel s.draws

/-- The answer just used is gone. -/
def dropAnswer (s : State) : State :=
  match s.cancelIn with
  | _ :: bs => { s with cancelIn := bs }
  | [] => takeDraw s

/-- `poll_cancel()` (R11): the state after it; its value is `cancelAnswer` of the state before. -/
def pollCancel (s : State) : State := emit (.cancelPoll (cancelAnswer s)) (dropAnswer s)

/-! ### The end of a command -/

/-- A command ends: it writes the result registers and clears `BUSY` (R34, R36, R190). -/
def finish (opc : BitVec 4) (code : Status) (addr : Addr) (data : Word) (s : State) : State :=
  { s with status := code, raddr := addr, rdata := data, ropc := opc, busy := false }

/-- `raise E(info)` with zeros for info (R192): the command ends at once with status `E`. -/
def raise (opc : BitVec 4) (code : Status) (s : State) : State := finish opc code 0 0 s

/-- `check(required)` and then the command (R132): in strict mode a violation is reported and nothing is executed; in
non-strict mode it sets the mark `fault` and the command runs. -/
def check (opc : BitVec 4) (required : CycleState) (body : State → State) (s : State) : State :=
  if s.cs = required then body s
  else if s.cfg.strict = true then
    raise opc .seqViolation (report (.sequencingViolation opc s.cs required) s)
  else body { s with fault := true }

/-- The port takes a command (R36, X4): only a machine with a configuration of this block (X2, X3), only when `BUSY = 0`;
the command then runs to completion (R16). -/
def accept (run : State → State) (s : State) : Host.Outcome State Fault Refusal :=
  if s.cfg.wf then
    if s.busy = true then .refused .portBusy else .next (run { s with busy := true })
  else .refused .notAConfiguration

end Sys2Proof.Machine
end

