-- ==== Sys2Proof/Machine/AddressSerializer.lean ====
section
/-! DEFINITION. AddressSerializer: the micro-operations set_address, reset and set_register_output
(40_address_serializer.md). No other component drives SER, SCLK, RCLK, MR or SROE (R90). -/

namespace Sys2Proof.Machine

/-- One bit on the wire (R91): data, rising clock, clock back to idle. -/
def shiftBit (b : Bool) (s : State) : State := pin (.sclk false) (pin (.sclk true) (pin (.ser b) s))

/-- `for s in 15 downto 0` of R91, from slot `k - 1` down to slot 0: "most-significant slot first". -/
def shiftOut : Nat → State → State
  | 0, s => s
  | k + 1, s => shiftOut k (shiftBit (s.vec.getLsbD k) s)

/-- The latch pulse of R91: the new address becomes visible at the rising edge. -/
def pulseLatch (s : State) : State := pin (.rclk false) (pin (.rclk true) s)

/-- `set_address(addr)` (R91): `addr` is any unsigned integer, taken modulo `2^16`. Run while `MR` is asserted, which no rule
does, it leaves `S` and `L` draws (R97). -/
def setAddress (addr : Nat) (s : State) : State :=
  let t := pulseLatch (shiftOut 16 { s with vec := fillVec s.cfg (BitVec.ofNat 16 addr) s.vec })
  if s.mr = .asserted then redrawRegister t else t

/-- `set_register_output(on)` (R95). -/
def setRegisterOutput (on : Bool) (s : State) : State := pin (.sroe (if on then .on else .off)) s

/-- `reset()` of the register (R94): output stage off, master reset low across the guard; the stage stays off. -/
def registerReset (s : State) : State :=
  pin (.mr .deasserted) (delay .mrGuard (pin (.mr .asserted) (setRegisterOutput false s)))

end Sys2Proof.Machine
end

