-- ==== Sys2Proof/Machine/ChipSelect.lean ====
section
/-! DEFINITION. ChipSelect: enable(on) (43_chip_select.md R125). -/

namespace Sys2Proof.Machine

/-- `enable(on)` (R125): drives the device-select line; the device reacts to the end of an assertion (R65, R66). -/
def enable (on : Bool) (s : State) : State := pin (.cs (if on then .asserted else .deasserted)) s

/-- The physical level of the device-select line (R125): `POL(CS)` when asserted, its complement when not. -/
def chipSelectLevel (s : State) : Level := s.cfg.physical .cs (s.csel == .asserted)

end Sys2Proof.Machine
end

