-- ==== Sys2Proof/Machine/DataBus.lean ====
section
/-! DEFINITION. DataBusPort: the micro-operations set_direction, write and read (41_data_bus_port.md). -/

namespace Sys2Proof.Machine

/-- `set_direction(input)` (R106); `DOUT` is kept. -/
def setDirection (input : Bool) (s : State) : State := pin (.ddir (if input then .input else .output)) s

/-- `write(word)` (R107): with `DDIR = In` the hardware checks nothing and the model sets the mark `fault`. -/
def writeBus (word : Word) (s : State) : State :=
  if s.ddir = .output then pin (.d word) { s with dout := word } else { s with fault := true }

/-- The word `read()` returns (R108). -/
def readBusValue (s : State) : Word := busValue s

/-- `read()` (R108): one `Sample` event; no state of the block or the device changes. -/
def readBus (s : State) : State := sample s

end Sys2Proof.Machine
end

