-- ==== Sys2Proof/Machine/Operands.lean ====
section
/-! DEFINITION. Operand assembly at the port (30_encoding.md R77): the only operand forms there are. The one addressing mode is
absolute (R86); no operand is signed, scaled or shifted. -/

namespace Sys2Proof.Machine

/-- `addr = zext(addr16) mod MEMORY_SIZE` (R54, R77): "addresses are taken modulo the address space size". -/
def addressOperand (cfg : Cfg) (addr16 : Addr) : Nat := addr16.toNat % cfg.memorySize

/-- The ASCII spelling's address: any unsigned integer, `mod MEMORY_SIZE` (R77). Below 2^16 by `Cfg.wf`. -/
def asciiAddress (cfg : Cfg) (n : Nat) : Addr := BitVec.ofNat 16 (n % cfg.memorySize)

/-- The ASCII spelling's data: any unsigned integer, `mod 2^8` (R17, R77). -/
def asciiData (n : Nat) : Word := BitVec.ofNat 8 n

/-- An address as a 16-bit register value (RADDR, R34). -/
def addressRegister (addr : Nat) : Addr := BitVec.ofNat 16 addr

end Sys2Proof.Machine
end

