-- ==== Sys2Proof/Machine/Power.lean ====
section
/-! DEFINITION. PowerSequencer: set_output_enable and set_address_override (42_power_sequencer.md). No other component writes
OEL, OEH or AOV (R117). -/

namespace Sys2Proof.Machine

/-- `set_output_enable(mode)` (R115): two events, the disabling one first. -/
def setOutputEnable (mode : OutputEnable) (s : State) : State :=
  match mode with
  | .logicLow => pin (.oel .low) (pin (.oeh .off) s)
  | .logicHigh => pin (.oel .high) (pin (.oeh .off) s)
  | .highVoltage => pin (.oeh .on) (pin (.oel .off) s)
  | .disabled => pin (.oel .off) (pin (.oeh .off) s)

/-- `set_address_override(mode)` (R116). -/
def setAddressOverride (mode : Override) (s : State) : State :=
  match mode with
  | .normal => pin (.aov .off) s
  | .highVoltage => pin (.aov .on) s

end Sys2Proof.Machine
end

