-- ==== Sys2Proof/Machine/Cycle.lean ====
section
/-! DEFINITION. CycleStateMachine: the commands BR, R, ER (read cycle) and BP, P, EP (program cycle)
(44_cycle_state_machine.md). Each body is the rule's pseudocode after `check`; each meaning accepts the command, checks the
required state (R132, R133) and runs the body. -/

namespace Sys2Proof.Machine

/-- The body of BR (R134). -/
def bodyBr (s : State) : State :=
  let s := enable false s
  let s := setDirection true s
  let s := setOutputEnable .logicHigh s
  let s := setAddressOverride .normal s
  finish 1 .ok 0 0 { s with cs := .readActive }

/-- The lines of R up to the sample (R135). -/
def readSetup (addr : Nat) (s : State) : State :=
  let s := setAddress addr s
  let s := setRegisterOutput true s
  let s := enable true s
  let s := setOutputEnable .logicLow s
  delay .readPulse s

/-- The body of R (R135). -/
def bodyR (addr : Nat) (s : State) : State :=
  let s := readSetup addr s
  let w := readBusValue s
  let s := readBus s
  let s := enable false s
  let s := setOutputEnable .logicHigh s
  finish 2 .ok (addressRegister addr) w s

/-- The body of ER (R139). -/
def bodyEr (s : State) : State :=
  let s := enable false s
  let s := setOutputEnable .logicHigh s
  let s := setAddressOverride .normal s
  finish 3 .ok 0 0 { s with cs := .idle }

/-- The body of BP (R140). -/
def bodyBp (s : State) : State :=
  let s := setDirection false s
  let s := setOutputEnable .highVoltage s
  let s := setAddressOverride .normal s
  let s := setRegisterOutput true s
  finish 4 .ok 0 0 { s with cs := .programActive }

/-- The body of P (R141). -/
def bodyP (addr : Nat) (word : Word) (s : State) : State :=
  let s := setAddress addr s
  let s := writeBus word s
  let s := delay .busSettle s
  let s := enable true s
  let s := delay .progPulse s
  let s := enable false s
  let s := delay .dataHold s
  finish 5 .ok (addressRegister addr) word s

/-- The body of EP (R142). -/
def bodyEp (s : State) : State :=
  let s := enable false s
  let s := setAddressOverride .normal s
  let s := setOutputEnable .logicHigh s
  let s := setDirection true s
  let s := setRegisterOutput false s
  finish 6 .ok 0 0 { s with cs := .idle }

/-- `BR` (R134): requires `Idle`. -/
def execBr (s : State) : Host.Outcome State Fault Refusal := accept (check 1 .idle bodyBr) s

/-- `R addr` (R135): requires `ReadActive`; the address operand is reduced at the port (R77). -/
def execR (addr16 : Addr) (s : State) : Host.Outcome State Fault Refusal :=
  accept (check 2 .readActive (bodyR (addressOperand s.cfg addr16))) s

/-- `ER` (R139): requires `ReadActive`. -/
def execEr (s : State) : Host.Outcome State Fault Refusal := accept (check 3 .readActive bodyEr) s

/-- `BP` (R140): requires `Idle`. -/
def execBp (s : State) : Host.Outcome State Fault Refusal := accept (check 4 .idle bodyBp) s

/-- `P addr, word` (R141): requires `ProgramActive`; the address operand is reduced at the port (R77). -/
def execP (addr16 : Addr) (word : Word) (s : State) : Host.Outcome State Fault Refusal :=
  accept (check 5 .programActive (bodyP (addressOperand s.cfg addr16) word)) s

/-- `EP` (R142): requires `ProgramActive`. -/
def execEp (s : State) : Host.Outcome State Fault Refusal := accept (check 6 .programActive bodyEp) s

end Sys2Proof.Machine
end

