-- ==== Sys2Proof/WellFormed.lean ====
section
/-! DEFINITION. Which commands the binary port can carry: the attempt bound of E has eight bits there (30_encoding.md R77,
D1); every other operand fits its field by its type. -/

namespace Sys2Proof

/-- The command has a word on the binary port: the attempt bound of E is in `0..255` (R77). -/
def Instr.wf : Instr → Bool
  | .br => true
  | .r _ => true
  | .er => true
  | .bp => true
  | .p _ _ => true
  | .ep => true
  | .e n => decide (n < 256)

end Sys2Proof
end

