-- ==== Sys2Proof/Decode.lean ====
section
/-! DEFINITION. The decoder and the encoder of the command word `CW32` (30_encoding.md R75 to R78), and the host's entry to
the decoder. The decoder is total: a word that spells no command is refused by a name that says which part of R78 it is. -/

namespace Sys2Proof

/-- Why a word is illegal (R78). -/
inductive IllegalWord where
  /-- `opc = 0x0`, or `opc` in `0x8..0xF` -/
  | opcode
  /-- `rsv` not zero -/
  | reserved
  /-- an operand field that must be zero for this command is not -/
  | operand
  deriving DecidableEq, Repr

/-- `CW[31:28]` (R75). -/
def fieldOpc (w : BitVec 32) : BitVec 4 := w.extractLsb' 28 4

/-- `CW[27:24]` (R75). -/
def fieldRsv (w : BitVec 32) : BitVec 4 := w.extractLsb' 24 4

/-- `CW[23:8]` (R75). -/
def fieldAddr (w : BitVec 32) : BitVec 16 := w.extractLsb' 8 16

/-- `CW[7:0]` (R75). -/
def fieldImm (w : BitVec 32) : BitVec 8 := w.extractLsb' 0 8

/-- A command without operands: both operand fields must be zero (R75, R76). -/
def decodeBare (w : BitVec 32) (i : Instr) : Except IllegalWord Instr :=
  if fieldAddr w = 0 ∧ fieldImm w = 0 then .ok i else .error .operand

/-- The command a word spells by its opcode, the reserved field being zero (R76). -/
def decodeBody (w : BitVec 32) : Except IllegalWord Instr :=
  match (fieldOpc w).toNat with
  | 1 => decodeBare w .br
  | 2 => if fieldImm w = 0 then .ok (.r (fieldAddr w)) else .error .operand
  | 3 => decodeBare w .er
  | 4 => decodeBare w .bp
  | 5 => .ok (.p (fieldAddr w) (fieldImm w))
  | 6 => decodeBare w .ep
  | 7 => if fieldAddr w = 0 then .ok (.e (fieldImm w).toNat) else .error .operand
  | _ => .error .opcode

/-- The decoder of `CW32` (R75, R76, R78): every word is a command or illegal. -/
def decode (w : BitVec 32) : Except IllegalWord Instr :=
  if fieldOpc w = 0 ∨ 8 ≤ (fieldOpc w).toNat then .error .opcode
  else if fieldRsv w = 0 then decodeBody w
  else .error .reserved

/-- The four fields of `CW32` put together, `opc` highest (R75). -/
def wordOf (opc rsv : BitVec 4) (addr16 : BitVec 16) (imm8 : BitVec 8) : BitVec 32 :=
  ((opc ++ rsv) ++ addr16) ++ imm8

/-- The encoder of `CW32` (R75, R76). The attempt bound of E keeps its low eight bits; a bound that does not fit is not
well formed. -/
def encode : Instr → BitVec 32
  | .br => wordOf 1 0 0 0
  | .r addr => wordOf 2 0 addr 0
  | .er => wordOf 3 0 0 0
  | .bp => wordOf 4 0 0 0
  | .p addr word => wordOf 5 0 addr word
  | .ep => wordOf 6 0 0 0
  | .e n => wordOf 7 0 0 (BitVec.ofNat 8 n)

/-- The host's entry: a command word numbered as spec/opcode_table.json numbers it (bit 0 the least significant). Every
command is one word of 32 bits (R82), so a number that does not fit is no command, and `nbits` says nothing more. -/
def decodeTableWord (_nbits w : Nat) : Option Instr :=
  if w < 2 ^ 32 then (decode (BitVec.ofNat 32 w)).toOption else none

end Sys2Proof
end

