-- ==== Sys2Proof/Machine/Flags.lean ====
section
/-! DEFINITION. The block has no arithmetic flags (00_scope.md R17); its status flags are the result registers (10_state.md
R34). Their codes (60_exceptions.md R191, R23) and the response word (30_encoding.md R79). -/

namespace Sys2Proof.Machine

/-- The 4-bit code of an outcome (R191). -/
def statusCode : Status → BitVec 4
  | .ok => 0
  | .seqViolation => 1
  | .eraseFailed => 2
  | .cancelled => 3
  | .illegal => 4

/-- The code of `cs` on the status port (R23, D2). -/
def cycleCode : CycleState → BitVec 2
  | .idle => 0
  | .readActive => 1
  | .programActive => 2

/-- `RW32`, presented when a command ends (R79): `opc`, `status`, `raddr`, `rdata`. -/
def responseWord (s : State) : BitVec 32 :=
  wordOf s.ropc (statusCode s.status) s.raddr s.rdata

/-- The status of E's last line (R151, R157). -/
def eraseStatus (r : EraseRecord) : Status :=
  if r.ok then .ok else if r.cancelled then .cancelled else .eraseFailed

end Sys2Proof.Machine
end

