-- ==== Sys2Proof/Machine/Erase.lean ====
section
/-! DEFINITION. EraseEngine: the command E (45_erase_engine.md). The erase record (10_state.md R33) stands in the state while E
runs and is gone when it ends. -/

namespace Sys2Proof.Machine

/-- The record E starts with (R33, R151). -/
def eraseStart : EraseRecord := ⟨0, 0, false, 0, 0, false⟩

/-- The erase record of the E that runs. -/
def eraseRecord (s : State) : EraseRecord := s.erase.getD eraseStart

/-- Write the erase record. -/
def setRecord (r : EraseRecord) (s : State) : State := { s with erase := some r }

/-- Step 1 of an attempt (R151, R152): the erase pulse. -/
def erasePulseStep (s : State) : State :=
  let s := setDirection false s
  let s := setAddressOverride .highVoltage s
  let s := setOutputEnable .highVoltage s
  let s := setAddress 0 s
  let s := writeBus erasedValue s
  let s := enable true s
  let s := delay .erasePulse s
  enable false s

/-- Step 2 of an attempt (R151, R152): back to reading levels, settle. -/
def eraseSettleStep (s : State) : State :=
  let s := setDirection true s
  let s := setOutputEnable .logicHigh s
  let s := setAddressOverride .normal s
  let s := enable true s
  delay .eraseSettle s

/-- `light_read(a)` up to the sample (R153). -/
def lightReadSetup (a : Nat) (s : State) : State :=
  let s := setAddress a s
  let s := enable true s
  let s := setOutputEnable .logicLow s
  delay .readPulse s

/-- `light_read(a)` after the sample (R153). -/
def lightReadEnd (s : State) : State :=
  let s := enable false s
  setOutputEnable .logicHigh s

/-- The word `light_read(a)` returns (R153). -/
def lightReadValue (a : Nat) (s : State) : Word := readBusValue (lightReadSetup a s)

/-- `light_read(a)` (R153): R without the `SROE` step and without the check. -/
def lightRead (a : Nat) (s : State) : State := lightReadEnd (readBus (lightReadSetup a s))

/-- One address of the verify pass (R151 step 3, R154). -/
def verifyStep (s : State) : State :=
  let r := eraseRecord s
  let w := lightReadValue r.vaddr.toNat s
  let s := lightRead r.vaddr.toNat s
  if w = erasedValue then setRecord { r with vaddr := r.vaddr + 1 } s
  else setRecord { r with ok := false, failAddr := addressRegister r.vaddr.toNat, failVal := w } s

/-- `while vaddr < MEMORY_SIZE and ok` of R151, for at most the given number of addresses. -/
def verifyLoop : Nat → State → State
  | 0, s => s
  | k + 1, s =>
    if (eraseRecord s).vaddr.toNat < s.cfg.memorySize ∧ (eraseRecord s).ok = true then verifyLoop k (verifyStep s) else s

/-- Step 3 of an attempt: the verify pass, every address of `[0, MEMORY_SIZE)` in ascending order, to the first mismatch. -/
def verifyPass (s : State) : State :=
  verifyLoop s.cfg.memorySize (setRecord { eraseRecord s with ok := true, vaddr := 0 } s)

/-- Step 4 of an attempt (R151, R154, R155): after a failed pass, the report and the cancellation waypoint. -/
def eraseWaypoint (s : State) : State :=
  let r := eraseRecord s
  if r.ok = true then s
  else
    let s := report (.eraseMismatch r.attempt r.failAddr erasedValue r.failVal) s
    setRecord { r with cancelled := cancelAnswer s } (pollCancel s)

/-- One attempt: the body of the outer loop of R151. -/
def eraseAttempt (s : State) : State :=
  let r := eraseRecord s
  let s := setRecord { r with attempt := r.attempt + 1 } s
  eraseWaypoint (verifyPass (eraseSettleStep (erasePulseStep s)))

/-- `while attempt < n and not ok and not cancelled` of R151, for at most the given number of attempts. -/
def eraseLoop (n : Nat) : Nat → State → State
  | 0, s => s
  | k + 1, s =>
    if (eraseRecord s).attempt < n ∧ (eraseRecord s).ok = false ∧ (eraseRecord s).cancelled = false then
      eraseLoop n k (eraseAttempt s)
    else s

/-- Step 5 (R151, R156): the guaranteed cleanup. -/
def eraseCleanup (s : State) : State :=
  let s := enable false s
  let s := setOutputEnable .logicHigh s
  let s := setAddressOverride .normal s
  setDirection true s

/-- The last line of E (R151, R157): the result registers; the record is discarded (R33). -/
def eraseFinish (s : State) : State :=
  let r := eraseRecord s
  finish 7 (eraseStatus r) r.failAddr r.failVal { s with erase := none }

/-- The body of E (R151). DEDUCED (log entry 25): with no attempt allowed it leaves `L` as it was, as R151, R159, R26 and R96 give
it; R156 says that `L` is then `0`. -/
def bodyE (n : Nat) (s : State) : State :=
  let s := setRegisterOutput true s
  let s := eraseLoop n n (setRecord eraseStart s)
  eraseFinish (eraseCleanup s)

/-- `E n` (R151): requires `Idle` (D9). -/
def execE (maxAttempts : Nat) (s : State) : Host.Outcome State Fault Refusal :=
  accept (check 7 .idle (bodyE maxAttempts)) s

end Sys2Proof.Machine
end

