-- ==== Sys2Proof/Machine/Dispatch.lean ====
section
/-! DEFINITION. One arm per command (30_encoding.md R74). -/

namespace Sys2Proof.Machine

def exec (i : Instr) (s : State) : Host.Outcome State Fault Refusal :=
  match i with
  | .br => Sys2Proof.Machine.execBr s
  | .r addr => Sys2Proof.Machine.execR addr s
  | .er => Sys2Proof.Machine.execEr s
  | .bp => Sys2Proof.Machine.execBp s
  | .p addr word => Sys2Proof.Machine.execP addr word s
  | .ep => Sys2Proof.Machine.execEp s
  | .e n => Sys2Proof.Machine.execE n s

end Sys2Proof.Machine
end

