-- ==== Sys2Proof/Machine/Port.lean ====
section
/-! DEFINITION. The command port: illegal words (30_encoding.md R78, 60_exceptions.md R198)
and presenting a command word. -/

namespace Sys2Proof.Machine

/-- An illegal word (R78, R198): `STATUS = ILLEGAL`, zeros, the opcode bits as received (R79), nothing executed. It is looked
at before `cs` (R200). -/
def illegalWord (w : BitVec 32) (s : State) : Host.Outcome State Fault Refusal :=
  accept (raise (fieldOpc w) .illegal) s

/-- The host presents this word as the next command (R11, R39; log entry 6). -/
def presentWord (w : BitVec 32) (s : State) : State := { s with commands := w :: s.commands }

end Sys2Proof.Machine
end

