-- ==== Sys2Proof/Machine/Step.lean ====
section
/-! DEFINITION. One step: the block takes the next command the host presents and runs it to completion (00_scope.md R16,
10_state.md R22); with none presented it waits (70_reset_and_hazards.md R217). -/

namespace Sys2Proof.Machine

/-- One step. A presented word is decoded first (R200): a command runs, an illegal word is answered. -/
def step (s : State) : Host.Outcome State Fault Refusal :=
  match s.commands with
  | [] => .next s
  | w :: rest =>
    match decode w with
    | .ok i => exec i { s with commands := rest }
    | .error _ => illegalWord w { s with commands := rest }

/-- The state with this command word presented next (one word of 32 bits, R82). -/
def State.withFetchWord (s : State) (_nbits w : Nat) : State := presentWord (BitVec.ofNat 32 w) s

end Sys2Proof.Machine
end

