-- ==== Sys2Proof/Machine/Reset.lean ====
section
/-! DEFINITION. The reset sequence (70_reset_and_hazards.md R216), from any power-on state. There is no reset command. -/

namespace Sys2Proof.Machine

/-- The twelve events of the reset sequence, from any power-on levels (R216). -/
def resetLines (s : State) : State :=
  let s := pin (.ser false) (pin (.rclk false) (pin (.sclk false) s))
  let s := enable false s
  let s := setOutputEnable .logicHigh s
  let s := setAddressOverride .normal s
  let s := setDirection true s
  registerReset s

/-- The reset sequence (R216). `VEC` and `DOUT` keep what they powered on with (R27, R28); `D` counts as not driven yet (R24). -/
def resetSequence (powerOn : State) : State :=
  let s := resetLines { powerOn with busy := true }
  { s with
    cs := .idle, status := .ok, raddr := 0, rdata := 0, ropc := 0, d := none, erase := none
    trace := [], fault := false, busy := false }

end Sys2Proof.Machine
end

