-- ==== Sys2Proof/Machine/Adapter.lean ====
section
/-! DEFINITION. The ASCII spelling of the commands and the adapter's call contract (30_encoding.md R70 to R73, R80 to R84;
46_adapter_commands.md R170 to R178). The adapter is outside the block (00_scope.md R6): no step and no meaning uses this
file; it says which core operations a line calls and what is answered. The strings are parameters of `Cfg` (R9). What the
source leaves open here is log entry 19, for `wp` log entry 26. -/

namespace Sys2Proof.Machine

/-! ### Numbers (R73, D26) -/

/-- The value of a hexadecimal digit; lower-case digits only (R73). -/
def hexDigitValue (c : Char) : Option Nat :=
  if 48 ≤ c.toNat ∧ c.toNat ≤ 57 then some (c.toNat - 48)
  else if 97 ≤ c.toNat ∧ c.toNat ≤ 102 then some (c.toNat - 87)
  else none

/-- The digits after the ones that gave `n`. -/
def parseDigits : List Char → Nat → Option Nat
  | [], n => some n
  | c :: cs, n =>
    match hexDigitValue c with
    | some d => parseDigits cs (16 * n + d)
    | none => none

/-- A hexadecimal number without prefix, leading zeros allowed (R73). -/
def parseHex (cs : List Char) : Option Nat := if cs = [] then none else parseDigits cs 0

/-- A lower-case hexadecimal digit. -/
def hexDigit (n : Nat) : Char := Char.ofNat (if n < 10 then 48 + n else 87 + n)

/-- The digits of a number of at most `k` digits, no leading zeros. -/
def hexDigits : Nat → Nat → List Char
  | 0, _ => []
  | k + 1, n => if n < 16 then [hexDigit n] else hexDigits k (n / 16) ++ [hexDigit (n % 16)]

/-- "lower-case, no prefix, no leading zeros, minimal digits (`0` for zero)" (R80), of a value of at most 16 bits. -/
def hexText (n : Nat) : List Char := hexDigits 4 n

/-! ### Lines (R71, R72, R81, R84) -/

/-- The tokens of a line, `cur` the token being read, last character first. DESIGN CHOICE (log entry 19): whitespace is the
space only, so a line feed after the carriage return is a character of the next line's first token. -/
def tokensFrom : List Char → List Char → List (List Char)
  | [], cur => if cur = [] then [] else [cur.reverse]
  | c :: cs, cur =>
    if c = ' ' then (if cur = [] then tokensFrom cs [] else cur.reverse :: tokensFrom cs [])
    else tokensFrom cs (c :: cur)

/-- The whitespace-delimited tokens of a line, its carriage return taken off (R71). -/
def tokens (line : List Char) : List (List Char) := tokensFrom line []

/-- What a line asks for. -/
inductive LineMeaning where
  /-- one core operation (R170) -/
  | core (i : Instr)
  /-- `e`: the confirmation prompt before an erase (R172) -/
  | erasePrompt
  /-- `wp <end>`: the confirmation prompt before a test-pattern run (R174); the end address is reduced -/
  | patternPrompt (last : Addr)
  /-- `echo <string>` (R176) -/
  | echo (text : List Char)
  /-- the line was too long or held the cancel byte: "command cancelled", no core operation (R81) -/
  | aborted
  /-- not covered by the source; no core operation (R84, X5) -/
  | unknown
  deriving DecidableEq, Repr

/-- A line whose argument is an address. -/
def withAddress (cfg : Cfg) (arg : List Char) (f : Addr → LineMeaning) : LineMeaning :=
  match parseHex arg with
  | some n => f (asciiAddress cfg n)
  | none => .unknown

/-- The command table (R72) on the tokens of a line. DESIGN CHOICE (log entry 19): the command names are case-sensitive, as the
table writes them, so `BR` is no command. -/
def tokenMeaning (cfg : Cfg) : List (List Char) → LineMeaning
  | [['b', 'r']] => .core .br
  | [['e', 'r']] => .core .er
  | [['b', 'p']] => .core .bp
  | [['e', 'p']] => .core .ep
  | [['e']] => .erasePrompt
  | [['r'], a] => withAddress cfg a fun addr => .core (.r addr)
  | [['w', 'p'], a] => withAddress cfg a .patternPrompt
  | [['e', 'c', 'h', 'o'], text] => .echo text
  | [['p'], a, w] =>
    match parseHex w with
    | some n => withAddress cfg a fun addr => .core (.p addr (asciiData n))
    | none => .unknown
  | _ => .unknown

/-- The character is the cancel byte of the channel (R81). -/
def isCancel (cfg : Cfg) (c : Char) : Bool := c.toNat == cfg.cancelByte.toNat

/-- What an input line, its carriage return taken off, asks for (R71, R72, R81). DESIGN CHOICE (log entry 19): the carriage
return does not count in the length, and a line that is too long is dropped whole, to its carriage return. -/
def lineMeaning (cfg : Cfg) (line : List Char) : LineMeaning :=
  if cfg.maxLineLength < line.length ∨ line.any (isCancel cfg) = true then .aborted
  else tokenMeaning cfg (tokens line)

/-! ### Responses (R80, R81, R172) -/

/-- "Response buffer has a bounded maximum size; overflow must be truncated" (R81). DESIGN CHOICE (log entry 19): all that answers
a line goes through the buffer, the responses and the notices for an aborted or unknown line; prompts, reports, the banner and the
ready token do not. -/
def bounded (cfg : Cfg) (text : List Char) : List Char := text.take cfg.responseBufferSize

/-- `"<addr_hex>: <data_hex>"` (R80). -/
def dataResponse (addr : Addr) (data : Word) : List Char :=
  hexText addr.toNat ++ [':', ' '] ++ hexText data.toNat

/-- The normal response to a core operation, from the state it left (R80, R172). `erase` returned true exactly when `STATUS` is
OK, so an E that strict mode rejected is answered like one that failed: DESIGN CHOICE (log entry 19), since R80 allows `e` one
of three texts. DESIGN CHOICE (log entry 19): an R or P that strict mode rejected, if it is answered at all (R171), shows the
result registers, which are zero then, not the operands of its line. -/
def coreResponse (i : Instr) (after : State) : List Char :=
  bounded after.cfg
    (match i with
    | .br => after.cfg.texts.statusBr
    | .r _ => dataResponse after.raddr after.rdata
    | .er => after.cfg.texts.statusEr
    | .bp => after.cfg.texts.statusBp
    | .p _ _ => dataResponse after.raddr after.rdata
    | .ep => after.cfg.texts.statusEp
    | .e _ => if after.status = .ok then "Erase complete".toList else "Erase Failed".toList)

/-- What the adapter sends to the operator. -/
inductive Message where
  /-- a prompt for confirmation (R172, R174) -/
  | prompt (text : List Char)
  /-- a report (R171, R172, R174) -/
  | report (text : List Char)
  /-- a response (R80) -/
  | response (text : List Char)
  /-- a notice, the banner, the ready token (R81, R177) -/
  | notice (text : List Char)
  deriving DecidableEq, Repr

/-- What a line comes to: the state its core operations leave, and what is sent, in order. -/
structure Dialog where
  outcome : Host.Outcome State Fault Refusal
  messages : List Message

/-- The text of a record the block reports (R171, R172); the formats are open (N13). -/
def reportText (cfg : Cfg) : Report → List Char
  | .sequencingViolation _ _ _ => cfg.texts.violationReport
  | .eraseMismatch k a w v => Config.mismatchText k a w v

/-- The message for one event: "each `report(x)` of a command ... is delivered to the host" (R79). -/
def eventMessage (cfg : Cfg) : Event → Option Message
  | .report x => some (.report (reportText cfg x))
  | .pin _ => none
  | .delay _ => none
  | .sample _ => none
  | .cancelPoll _ => none

/-- The reports of the core operations that led from one state to the other, in trace order (R79). -/
def shownReports (before after : State) : List Message :=
  (after.trace.drop before.trace.length).filterMap (eventMessage after.cfg)

/-- Whether the normal response is sent after a command with this status: always, but that R171 leaves it open after a
strict-mode rejection. -/
def isAnswered (code : Status) : Bool := code != .seqViolation || Config.answersRejected

/-- A line of the six commands that map to one core operation (R170, R171). -/
def coreDialog (i : Instr) (s : State) : Dialog :=
  match exec i s with
  | .next t =>
    ⟨.next t, shownReports s t ++ if isAnswered t.status then [.response (coreResponse i t)] else []⟩
  | .fault f => ⟨.fault f, []⟩
  | .refused x => ⟨.refused x, []⟩

/-- The operator at a confirmation prompt (R172, R173): "the expected input or an explicit cancel byte". -/
inductive Confirmation where
  | expected
  | cancelByte
  deriving DecidableEq, Repr

/-! ### `e` (R172) -/

/-- `e` after the operator has answered (R172): no core operation on a cancel, else E with `ERASE_MAX_ATTEMPTS`. -/
def eraseDialog (answer : Confirmation) (s : State) : Host.Outcome State Fault Refusal :=
  match answer with
  | .expected => exec (.e s.cfg.eraseMaxAttempts) s
  | .cancelByte => .next s

/-- What `e` answers, from the state after it (R172): always one of three texts (R80). -/
def eraseDialogResponse (answer : Confirmation) (after : State) : List Char :=
  match answer with
  | .expected => coreResponse (.e after.cfg.eraseMaxAttempts) after
  | .cancelByte => bounded after.cfg "erase cancelled".toList

/-- The whole of `e` (R172): the prompt, the reports of E, the response. -/
def eraseLine (answer : Confirmation) (s : State) : Dialog :=
  match eraseDialog answer s with
  | .next t =>
    ⟨.next t, .prompt s.cfg.texts.erasePrompt :: shownReports s t ++ [.response (eraseDialogResponse answer t)]⟩
  | .fault f => ⟨.fault f, [.prompt s.cfg.texts.erasePrompt]⟩
  | .refused x => ⟨.refused x, [.prompt s.cfg.texts.erasePrompt]⟩

/-! ### `wp` (R174, R175) -/

/-- The addresses of a test-pattern run up to the end address, ascending (R174), from `WP_START`, with the end address itself
if `WP_END_INCLUSIVE` (R175). -/
def patternRange (cfg : Cfg) (last : Addr) : List Addr :=
  (List.range' cfg.wpStart.toNat
    ((if cfg.wpEndInclusive then last.toNat + 1 else last.toNat) - cfg.wpStart.toNat)).map (BitVec.ofNat 16)

/-- The core operations of a test-pattern run before its reads (R174): `BP`; `P a, Pattern(a)` for each address; `EP`; `BR`. -/
def patternProgram (addrs : List Addr) : List Instr :=
  [.bp] ++ addrs.map (fun a => .p a (Config.pattern a)) ++ [.ep, .br]

/-- The core operations of a list, one after the other (R59, R170), to the first that answers no next state. DESIGN CHOICE
(log entry 26): a command that strict mode rejects does not end the list. -/
def runCommands : List Instr → State → Host.Outcome State Fault Refusal
  | [], s => .next s
  | i :: rest, s =>
    match exec i s with
    | .next t => runCommands rest t
    | .fault f => .fault f
    | .refused x => .refused x

/-- A mismatch a test-pattern run finds: "address and expected/actual values" (R174). -/
structure PatternMismatch where
  addr : Addr
  expected : Word
  actual : Word
  deriving DecidableEq, Repr

/-- What a test-pattern run leaves: the state, and "the full failure set" (R174). -/
structure PatternRun where
  outcome : Host.Outcome State Fault Refusal
  failures : List PatternMismatch

/-- The mismatch of one read, from the state it left, if there is one. A read that strict mode rejected has read nothing and is
not compared: DESIGN CHOICE (log entry 26). -/
def readMismatch (a : Addr) (after : State) : List PatternMismatch :=
  if after.status = .ok ∧ after.rdata ≠ Config.pattern a then [⟨a, Config.pattern a, after.rdata⟩] else []

/-- The reads of a test-pattern run, each compared with the pattern (R174): a mismatch does not end the run, "so the operator
sees the full failure set". -/
def patternReads : List Addr → State → PatternRun
  | [], s => ⟨.next s, []⟩
  | a :: rest, s =>
    match exec (.r a) s with
    | .next t =>
      let run := patternReads rest t
      { run with failures := readMismatch a t ++ run.failures }
    | .fault f => ⟨.fault f, []⟩
    | .refused x => ⟨.refused x, []⟩

/-- The core operations of `wp` over these addresses (R174): a program cycle, then a read cycle that verifies. -/
def patternCycles (addrs : List Addr) (s : State) : PatternRun :=
  match runCommands (patternProgram addrs) s with
  | .next t =>
    let run := patternReads addrs t
    match run.outcome with
    | .next u => { run with outcome := exec .er u }
    | .fault _ => run
    | .refused _ => run
  | .fault f => ⟨.fault f, []⟩
  | .refused x => ⟨.refused x, []⟩

/-- Whether a confirmed `wp` starts: in `WP_REQUIRED_CS` it does; in another state R175 leaves it open. -/
def patternStarts (s : State) : Bool := s.cs == s.cfg.wpRequiredCs || Config.patternRunsAnywhere

/-- `wp <end>` after the operator has answered (R173, R174), the end address already reduced: no core operation on a cancel,
else the run. DESIGN CHOICE (log entry 26): a cancellation is recognised at the prompt only. -/
def patternDialog (answer : Confirmation) (last : Addr) (s : State) : PatternRun :=
  match answer with
  | .expected => if patternStarts s then patternCycles (patternRange s.cfg last) s else ⟨.next s, []⟩
  | .cancelByte => ⟨.next s, []⟩

/-- What is sent at the end of a confirmed `wp` (R174): every mismatch with address and expected and actual word, what is said
of their count, and the response. -/
def patternMessages (cfg : Cfg) (failures : List PatternMismatch) : List Message :=
  failures.map (fun x => .report (Config.patternMismatchText x.addr x.expected x.actual)) ++
    (Config.failureCountTexts failures.length).map .report ++ [.response (bounded cfg "Test pattern complete".toList)]

/-- What `wp` sends after its prompt (R174, R80). -/
def patternAnswer (answer : Confirmation) (s t : State) (failures : List PatternMismatch) : List Message :=
  match answer with
  | .expected =>
    if patternStarts s then shownReports s t ++ patternMessages s.cfg failures
    else Config.patternRefusedTexts.map fun text => .response (bounded s.cfg text)
  | .cancelByte => [.response (bounded s.cfg s.cfg.texts.patternCancelled)]

/-- The whole of `wp <end>` (R174): the prompt, the run, what is sent about it. DESIGN CHOICE (log entry 26): the prompt comes
first in every state, and `WP_REQUIRED_CS` is looked at after the operator has confirmed. -/
def patternLine (answer : Confirmation) (last : Addr) (s : State) : Dialog :=
  let run := patternDialog answer last s
  match run.outcome with
  | .next t => ⟨.next t, .prompt s.cfg.texts.patternPrompt :: patternAnswer answer s t run.failures⟩
  | .fault f => ⟨.fault f, [.prompt s.cfg.texts.patternPrompt]⟩
  | .refused x => ⟨.refused x, [.prompt s.cfg.texts.patternPrompt]⟩

/-! ### A line, and a run of the adapter -/

/-- What `echo <string>` answers (R176): the string unchanged, within the bound of the channel (R81). -/
def echoResponse (cfg : Cfg) (text : List Char) : List Char := bounded cfg text

/-- The notice for an input line that was aborted (R81). DESIGN CHOICE (log entry 19): the words the source quotes are its exact
text, which N13 calls unclear. -/
def abortNotice (cfg : Cfg) : List Char := bounded cfg "command cancelled".toList

/-- One input line (R170), with the operator's answer should the line prompt for one. -/
def lineDialog (line : List Char) (answer : Confirmation) (s : State) : Dialog :=
  match lineMeaning s.cfg line with
  | .core i => coreDialog i s
  | .erasePrompt => eraseLine answer s
  | .patternPrompt last => patternLine answer last s
  | .echo text => ⟨.next s, [.response (echoResponse s.cfg text)]⟩
  | .aborted => ⟨.next s, [.notice (abortNotice s.cfg)]⟩
  | .unknown => ⟨.next s, (Config.unknownLineTexts line).map fun text => .notice (bounded s.cfg text)⟩

/-- The lines of an operator, one after the other: a line is read when the one before it has been answered (R16, R173). -/
def operate : List (List Char × Confirmation) → State → Dialog
  | [], s => ⟨.next s, []⟩
  | (line, answer) :: rest, s =>
    let first := lineDialog line answer s
    match first.outcome with
    | .next t =>
      let others := operate rest t
      { others with messages := first.messages ++ others.messages }
    | .fault _ => first
    | .refused _ => first

/-- The banner, then the ready token (R177). -/
def greeting (cfg : Cfg) : List Message := [.notice cfg.texts.banner, .notice cfg.texts.readyToken]

/-- Startup and what follows (R177): the reset sequence, then the banner and the ready token, then the operator's lines. -/
def startUp (powerOn : State) (lines : List (List Char × Confirmation)) : Dialog :=
  let s := resetSequence powerOn
  let rest := operate lines s
  { rest with messages := greeting s.cfg ++ rest.messages }

end Sys2Proof.Machine
end

