-- ==== Sys2Proof/Safety.lean ====
section
/-! DEFINITION. What counts as a safe run: the invariants of 10_state.md section 9 and the hazards of
70_reset_and_hazards.md section 3, in the terms the obligations use. -/

namespace Sys2Proof.Machine

/-! ### Between commands -/

/-- The serializer's lines idle (R43): `SCLK = 0`, `RCLK = 0`, `MR = deasserted`. -/
abbrev SerialIdle (s : State) : Prop := s.sclk = false ∧ s.rclk = false ∧ s.mr = .deasserted

/-- Break before make (R42): `OEH = on` implies `OEL = Off`. -/
abbrev DriversExclusive (s : State) : Prop := s.oeh = .on → s.oel = .off

/-- The table of R43, row by row. -/
abbrev CycleLines (s : State) : Prop :=
  match s.cs with
  | .idle => outputEnableMode s = some .logicHigh ∧ s.aov = .off ∧ s.ddir = .input
  | .readActive => outputEnableMode s = some .logicHigh ∧ s.aov = .off ∧ s.ddir = .input
  | .programActive =>
    outputEnableMode s = some .highVoltage ∧ s.aov = .off ∧ s.ddir = .output ∧ s.sroe = .on

/-- The port is ready for a command (R36) on a machine with a configuration of this block (X2, X3). -/
abbrev Ready (s : State) : Prop := s.cfg.wf ∧ s.busy = false

/-- Ready, the serializer idle and the device deselected: what R43 says of every point between commands of an unmarked run,
whatever `cs` is. -/
abbrev Settled (s : State) : Prop := Ready s ∧ SerialIdle s ∧ s.csel = .deasserted

/-- Settled in an unmarked run: "every claim about a run takes `fault = false` as a premise" (R196). -/
abbrev Quiet (s : State) : Prop := Settled s ∧ s.fault = false

/-- What holds between commands of every run: the port ready (R36), the drivers exclusive (R42), no erase record (R33), the
canonical form of the cells (the model's, log entry 3), `D` and `DOUT` in agreement (the model's, log entry 9); and, while the
run is not marked, the lines as R43 says. Of the lines of a marked run it says no more than R42 (R196, log entry 12). -/
abbrev Between (s : State) : Prop :=
  Ready s ∧ DriversExclusive s ∧ s.erase = none ∧ Memory.wf s.cfg.memorySize s.mem = true ∧
    (∀ w, s.d = some w → s.dout = w) ∧
    (s.fault = false → SerialIdle s ∧ s.csel = .deasserted ∧ CycleLines s)

/-- A state from which a command runs as its rule says without the mark (R43, R196). -/
abbrev Sound (s : State) : Prop := Between s ∧ s.fault = false

/-- The required state of a command (R74). -/
def required : Instr → CycleState
  | .br => .idle
  | .r _ => .readActive
  | .er => .readActive
  | .bp => .idle
  | .p _ _ => .programActive
  | .ep => .programActive
  | .e _ => .idle

/-- The state a command leaves when it runs (R133), from the state it finds. -/
def cycleAfter : Instr → CycleState → CycleState
  | .br, _ => .readActive
  | .r _, c => c
  | .er, _ => .idle
  | .bp, _ => .programActive
  | .p _ _, c => c
  | .ep, _ => .idle
  | .e _, c => c

/-- The state after the rejection of a command outside its required state in strict mode (R132, R193): the report, and the
result registers with zeros; nothing else. -/
def rejected (i : Instr) (s : State) : State :=
  { s with
    status := .seqViolation, raddr := 0, rdata := 0, ropc := i.opcode
    trace := s.trace ++ [.report (.sequencingViolation i.opcode s.cs (required i))] }

/-! ### Along the trace -/

/-- The levels of the signals at one point of a trace (R24). -/
structure Lines where
  ser : Bool
  sclk : Bool
  rclk : Bool
  mr : Assertion
  sroe : Switch
  csel : Assertion
  oel : LogicDrive
  oeh : Switch
  aov : Switch
  ddir : Direction
  deriving DecidableEq, Repr

/-- The signals of a state. -/
def linesOf (s : State) : Lines :=
  ⟨s.ser, s.sclk, s.rclk, s.mr, s.sroe, s.csel, s.oel, s.oeh, s.aov, s.ddir⟩

/-- The signals after one event: a signal changes by its `Pin` event only (R24). -/
def lineStep (l : Lines) : Event → Lines
  | .pin (.ser v) => { l with ser := v }
  | .pin (.sclk v) => { l with sclk := v }
  | .pin (.rclk v) => { l with rclk := v }
  | .pin (.mr v) => { l with mr := v }
  | .pin (.sroe v) => { l with sroe := v }
  | .pin (.cs v) => { l with csel := v }
  | .pin (.oel v) => { l with oel := v }
  | .pin (.oeh v) => { l with oeh := v }
  | .pin (.aov v) => { l with aov := v }
  | .pin (.ddir v) => { l with ddir := v }
  | .pin (.d _) => l
  | .delay _ => l
  | .sample _ => l
  | .report _ => l
  | .cancelPoll _ => l

/-- The signals after a list of events. -/
def linesAfter (l : Lines) (evs : List Event) : Lines := evs.foldl lineStep l

/-- Every event of the list is allowed at the levels it finds. -/
def allAllowed (ok : Lines → Event → Prop) : Lines → List Event → Prop
  | _, [] => True
  | l, x :: evs => ok l x ∧ allAllowed ok (lineStep l x) evs

/-- The events appended on the way from `s` to `t` lead from the levels of `s` to those of `t`, and each is allowed. -/
def runsBy (ok : Lines → Event → Prop) (s t : State) : Prop :=
  ∃ evs, t.trace = s.trace ++ evs ∧ linesAfter (linesOf s) evs = linesOf t ∧ allAllowed ok (linesOf s) evs

/-- After the event the two drivers of the output-enable net are not on together (R42, R224). -/
def exclusiveAfter (l : Lines) (x : Event) : Prop := (lineStep l x).oeh = .on → (lineStep l x).oel = .off

/-- The serial pulse discipline (R92, R97, R222, R223): no `SER` event while `SCLK = 1`; no `RCLK` event while `SCLK = 1`; no
`SCLK` event while `RCLK = 1`; none of them while `MR` is asserted. -/
def serialDiscipline (l : Lines) : Event → Prop
  | .pin (.ser _) => l.sclk = false ∧ l.mr = .deasserted
  | .pin (.sclk _) => l.rclk = false ∧ l.mr = .deasserted
  | .pin (.rclk _) => l.sclk = false ∧ l.mr = .deasserted
  | _ => True

/-- Direction before access, and no contention (R109, R225): data are driven with `DDIR = Out` only, sampled with `DDIR = In`
only, and after the event the controller does not drive the bus while the device does. -/
def busDiscipline (l : Lines) (x : Event) : Prop :=
  (match x with
    | .pin (.d _) => l.ddir = .output
    | .sample _ => l.ddir = .input
    | _ => True) ∧
  ¬((lineStep l x).ddir = .output ∧ (lineStep l x).csel = .asserted ∧ (lineStep l x).oel = .low ∧
    (lineStep l x).oeh = .off)

/-- The events of `set_address` (R91) when `VEC` holds `v`: for each slot below `k`, highest first, data, rising clock, clock
back to idle. -/
def shiftEvents : Nat → Addr → List Event
  | 0, _ => []
  | k + 1, v =>
    [.pin (.ser (v.getLsbD k)), .pin (.sclk true), .pin (.sclk false)] ++ shiftEvents k v

/-- The fifty events of `set_address` (R91): `SETADDR` of 95_test_vectors.md. -/
def addressEvents (v : Addr) : List Event := shiftEvents 16 v ++ [.pin (.rclk true), .pin (.rclk false)]

/-- The 59 events of R (R135) that reads `w` at the serialized address `v`. -/
def readEvents (v : Addr) (w : Word) : List Event :=
  addressEvents v ++
    [.pin (.sroe .on), .pin (.cs .asserted), .pin (.oeh .off), .pin (.oel .low), .delay .readPulse, .sample w,
     .pin (.cs .deasserted), .pin (.oeh .off), .pin (.oel .high)]

/-- The 56 events of P (R141) that programs `w` at the serialized address `v`. -/
def programEvents (v : Addr) (w : Word) : List Event :=
  addressEvents v ++
    [.pin (.d w), .delay .busSettle, .pin (.cs .asserted), .delay .progPulse, .pin (.cs .deasserted), .delay .dataHold]

/-- The 58 events of the light read (R153). -/
def lightReadEvents (v : Addr) (w : Word) : List Event :=
  addressEvents v ++
    [.pin (.cs .asserted), .pin (.oeh .off), .pin (.oel .low), .delay .readPulse, .sample w, .pin (.cs .deasserted),
     .pin (.oeh .off), .pin (.oel .high)]

/-- The events of a verify pass over the addresses below `n` of cells that all but the last read as erased (R151 step 3, R154):
one light read each, in ascending order. -/
def passEvents (cfg : Cfg) (m : Memory) (n : Nat) : List Event :=
  (List.range n).flatMap fun a => lightReadEvents (serOf cfg (BitVec.ofNat 16 a)) (memRead m a)

/-- The 58 events of step 1 of an erase attempt (R151, R160). -/
def erasePulseEvents (v : Addr) : List Event :=
  [.pin (.ddir .output), .pin (.aov .on), .pin (.oel .off), .pin (.oeh .on)] ++ addressEvents v ++
    [.pin (.d erasedValue), .pin (.cs .asserted), .delay .erasePulse, .pin (.cs .deasserted)]

/-- The 6 events of step 2 of an erase attempt (R151, R160). -/
def eraseSettleEvents : List Event :=
  [.pin (.ddir .input), .pin (.oeh .off), .pin (.oel .high), .pin (.aov .off), .pin (.cs .asserted), .delay .eraseSettle]

/-- The events of an attempt up to its verify pass's last read (R151 steps 1 to 3): the pulse, the settle, a light read of each
address below `n` of the cells `m` the pulse left. -/
def attemptEvents (cfg : Cfg) (m : Memory) (n : Nat) : List Event :=
  erasePulseEvents (serOf cfg 0) ++ eraseSettleEvents ++ passEvents cfg m n

/-- The 5 events of E's cleanup (R151, R160). -/
def eraseCleanupEvents : List Event :=
  [.pin (.cs .deasserted), .pin (.oeh .off), .pin (.oel .high), .pin (.aov .off), .pin (.ddir .input)]

/-- How many erase pulses a list of events holds: one `Delay(T_ERASE_PULSE)` each (R160). -/
def erasePulses (evs : List Event) : Nat := evs.count (.delay .erasePulse)

/-- The event reports an erase mismatch (R154). -/
def isMismatch : Event → Bool
  | .report (.eraseMismatch _ _ _ _) => true
  | _ => false

/-- How many erase mismatches a list of events reports. -/
def mismatchReports (evs : List Event) : Nat := evs.countP isMismatch

/-- The outcome leaves a cell that does not read the erased value (R66: "at least one cell different from `ERASED_VALUE`"). -/
def leavesUnerased (size : Nat) (x : EraseDraw) : Prop := ∃ a, a < size ∧ memRead (erasedArray size x) a ≠ erasedValue

end Sys2Proof.Machine
end

