-- ==== Sys2Proof/Certificates/Slice0/Obligations.lean ====
section
/-! DEFINITION. The statements for the provers. Each docstring names the rules of spec/ it comes from. `Ready`, `Settled`,
`Quiet`, `Between` and `Sound` are defined in Sys2Proof/Safety.lean; they are premises on the state alone, and `Between` is itself
stated to hold at reset and to be kept by every step. -/

open Sys2Proof Sys2Proof.Machine

/-! ### Encoding -/

/-- R75, R76: the words E1 to E6 and E8 to E11 of 95_test_vectors.md section 2.6 decode to the commands they stand for, and so
does the word R76 gives `P 0xABCD, 0x00`; the word the vectors print for that one, E7, has a reserved field that is not zero
and is illegal by R78 (log entry 21). -/
def Obligations.SpecWordsDecode : Prop :=
  decode 0x10000000 = .ok .br ∧ decode 0x20001000 = .ok (.r 0x0010) ∧ decode 0x20FFFF00 = .ok (.r 0xFFFF) ∧
  decode 0x30000000 = .ok .er ∧ decode 0x40000000 = .ok .bp ∧ decode 0x500010FF = .ok (.p 0x0010 0xFF) ∧
  decode 0x50ABCD00 = .ok (.p 0xABCD 0x00) ∧
  decode 0x5ABCD000 = .error .reserved ∧ decode 0x60000000 = .ok .ep ∧ decode 0x70000003 = .ok (.e 3) ∧
  decode 0x700000FF = .ok (.e 255) ∧ decode 0x70000000 = .ok (.e 0)

/-- R70, R75 to R77: a command that has a word decodes from it to itself, with every operand at every value. -/
def Obligations.EncodedCommandsDecodeToThemselves : Prop := ∀ i : Instr, i.wf = true → decode (encode i) = .ok i

/-- R70 ("exactly one binary word"), R82: a word that decodes is the word of the command it decodes to. -/
def Obligations.DecodedWordsEncodeBack : Prop :=
  ∀ (w : BitVec 32) (i : Instr), decode w = .ok i → i.wf = true ∧ encode i = w

/-- R76: a word spells the command of a row exactly when `w AND mask = match`; the seven rows are disjoint. The operands are
the fields `addr16` and `imm8`. -/
def Obligations.DecoderFollowsOpcodeTable : Prop :=
  (∀ w : BitVec 32,
    (w &&& 0xFFFFFFFF = 0x10000000 ↔ decode w = .ok .br) ∧
    (w &&& 0xFF0000FF = 0x20000000 ↔ decode w = .ok (.r (fieldAddr w))) ∧
    (w &&& 0xFFFFFFFF = 0x30000000 ↔ decode w = .ok .er) ∧
    (w &&& 0xFFFFFFFF = 0x40000000 ↔ decode w = .ok .bp) ∧
    (w &&& 0xFF000000 = 0x50000000 ↔ decode w = .ok (.p (fieldAddr w) (fieldImm w))) ∧
    (w &&& 0xFFFFFFFF = 0x60000000 ↔ decode w = .ok .ep) ∧
    (w &&& 0xFFFFFF00 = 0x70000000 ↔ decode w = .ok (.e (fieldImm w).toNat))) ∧
  ∀ row ∈ opcodeTable, ∀ row' ∈ opcodeTable, ∀ w : BitVec 32, row.spells w → row'.spells w → row = row'

/-- R78: the illegal words are those with `opc = 0x0`, `opc` in `0x8..0xF`, `rsv` not zero, or a must-be-zero operand field
not zero; such a word executes nothing and is answered `ILLEGAL` with zeros. The all-zero and the all-ones word are
illegal. -/
def Obligations.IllegalWordsExecuteNothing : Prop :=
  (∀ w : BitVec 32,
    (∀ i, decode w ≠ .ok i) ↔
      (fieldOpc w = 0 ∨ 8 ≤ (fieldOpc w).toNat ∨ fieldRsv w ≠ 0 ∨
        (fieldAddr w ≠ 0 ∧ fieldOpc w ≠ 2 ∧ fieldOpc w ≠ 5) ∨ (fieldImm w ≠ 0 ∧ fieldOpc w ≠ 5 ∧ fieldOpc w ≠ 7))) ∧
  (∀ (s : State) (w : BitVec 32) (rest : List (BitVec 32)), Ready s → s.commands = w :: rest → (∀ i, decode w ≠ .ok i) →
    step s = .next
      { s with commands := rest, status := .illegal, raddr := 0, rdata := 0, ropc := fieldOpc w, busy := false }) ∧
  (∀ i, decode 0 ≠ .ok i) ∧ (∀ i, decode 0xFFFFFFFF ≠ .ok i)

/-- R79: the four fields of the response word; R191: the five codes. -/
def Obligations.ResponseWordHoldsResults : Prop :=
  ∀ s : State,
    (responseWord s).extractLsb' 28 4 = s.ropc ∧
    (responseWord s).extractLsb' 24 4 =
      (match s.status with
        | .ok => 0
        | .seqViolation => 1
        | .eraseFailed => 2
        | .cancelled => 3
        | .illegal => 4) ∧
    (responseWord s).extractLsb' 8 16 = s.raddr ∧ (responseWord s).extractLsb' 0 8 = s.rdata

/-! ### Steps -/

/-- R16, R22: a step takes the next command presented and runs it: where its word decodes to `i`, the step is `exec i` of the
state without that word. With no command presented the block waits (R217). -/
def Obligations.StepRunsPresentedCommand : Prop :=
  (∀ (s : State) (w : BitVec 32) (rest : List (BitVec 32)) (i : Instr),
    s.commands = w :: rest → decode w = .ok i → step s = exec i { s with commands := rest }) ∧
  ∀ s : State, s.commands = [] → step s = .next s

/-- R36, R190: a command is accepted exactly when `BUSY = 0` (on a machine with a configuration of this block), and ends with
`BUSY = 0`; X2, X3, X4: otherwise it is refused. So every command completes. -/
def Obligations.CommandsCompleteExactlyWhenReady : Prop :=
  ∀ (i : Instr) (s : State),
    (Ready s → ∃ t, exec i s = .next t ∧ t.busy = false) ∧
    (s.cfg.wf → s.busy = true → exec i s = .refused .portBusy) ∧
    (¬s.cfg.wf → exec i s = .refused .notAConfiguration)

/-! ### Reset -/

/-- R216: from any power-on state the reset sequence drives its twelve events and leaves the reset state of R44; the cells change
only if the first chip-select event ends a pulse (and then as R65, R66 say). The model's choices: that `VEC` and `DOUT`, which
R27, R28 and R44 leave unspecified, keep what they powered on with (log entry 2); that no word counts as driven on `D` (log
entries 9 and 15). -/
def Obligations.ResetSequenceLeavesResetState : Prop :=
  ∀ p : State,
    (resetLines p).trace = p.trace ++
      [.pin (.sclk false), .pin (.rclk false), .pin (.ser false), .pin (.cs .deasserted), .pin (.oeh .off),
       .pin (.oel .high), .pin (.aov .off), .pin (.ddir .input), .pin (.sroe .off), .pin (.mr .asserted),
       .delay .mrGuard, .pin (.mr .deasserted)] ∧
    resetSequence p =
      { p with
        cs := .idle, ser := false, sclk := false, rclk := false, mr := .deasserted, sroe := .off, csel := .deasserted
        oel := .high, oeh := .off, aov := .off, ddir := .input, d := none, shiftReg := 0, latch := 0, erase := none
        status := .ok, raddr := 0, rdata := 0, busy := false, trace := [], fault := false
        ropc := (resetSequence p).ropc, mem := (selectReaction .deasserted p).mem
        eraseScript := (selectReaction .deasserted p).eraseScript, draws := (selectReaction .deasserted p).draws } ∧
    (¬(p.csel = .asserted ∧ outputEnableMode p = some .highVoltage) → (resetSequence p).mem = p.mem)

/-- R44, R43: the state after reset is sound: the lines inactive, the serializer idle, `cs = Idle`, the mark not set; whatever
the configuration and the cells. So is `State.reset`. -/
def Obligations.ResetStateIsSound : Prop :=
  (∀ (cfg : Cfg) (m : Memory), cfg.wf → Memory.wf cfg.memorySize m = true →
    Sound (State.resetWith cfg m) ∧ (State.resetWith cfg m).cs = .idle ∧ (State.resetWith cfg m).trace = []) ∧
  Sound State.reset

/-! ### AddressSerializer -/

/-- R91, R96: on idle serializer lines set_address appends fifty events (sixteen groups, slot 15 first, then the latch pulse),
and changes nothing but the serializer's lines and registers. That it leaves `VEC = S = L = Ser(a)` for `a = addr mod 2^16` with
`Ser(a)[BitOrderMap[i]] = a[i]`, and that the device's lines then carry `a`, is R93, which the spec itself derives from R91 and
R96. -/
def Obligations.SetAddressSerializes : Prop :=
  ∀ (s : State) (addr : Nat), s.cfg.bijective → SerialIdle s →
    ∃ v : Addr,
      setAddress addr s =
        { s with vec := v, shiftReg := v, latch := v, ser := v.getLsbD 0, trace := s.trace ++ addressEvents v } ∧
      (addressEvents v).length = 50 ∧
      (∀ i : Fin 16, v.getLsbD s.cfg.bitOrderMap[i].val = (BitVec.ofNat 16 addr).getLsbD i.val) ∧
      deserOf s.cfg v = BitVec.ofNat 16 addr

/-- R58, S4: serializing an address and deserializing from the physical line order recovers it, and the sum of R30 over the
lines is the number `Deser` gives. -/
def Obligations.DeserializingRecoversAddress : Prop :=
  ∀ cfg : Cfg, cfg.bijective →
    (∀ a : Addr, deserOf cfg (serOf cfg a) = a) ∧
    (∀ (a : Addr) (i : Fin 16), (serOf cfg a).getLsbD cfg.bitOrderMap[i].val = a.getLsbD i.val) ∧
    (∀ v : Addr, (deserOf cfg v).toNat =
      (bitIndices.map fun i => if v.getLsbD cfg.bitOrderMap[i].val then 2 ^ i.val else 0).sum)

/-- R56 (a), R61: the shift events change nothing the device sees: not the address bus, not chip select, not the output-enable
net, not the override net, not the data lines; nor its cells. The new address becomes visible at the rising edge of `RCLK`. -/
def Obligations.AddressVisibleAtLatchEdgeOnly : Prop :=
  ∀ (s : State) (k : Nat), SerialIdle s →
    (shiftOut k s).latch = s.latch ∧ (shiftOut k s).sroe = s.sroe ∧ devAddr (shiftOut k s) = devAddr s ∧
    (∀ i, addressLine (shiftOut k s) i = addressLine s i) ∧
    (shiftOut k s).csel = s.csel ∧ (shiftOut k s).oel = s.oel ∧ (shiftOut k s).oeh = s.oeh ∧
    (shiftOut k s).aov = s.aov ∧ (shiftOut k s).ddir = s.ddir ∧ (shiftOut k s).dout = s.dout ∧
    dataLines (shiftOut k s) = dataLines s ∧ (shiftOut k s).mem = s.mem ∧
    (pin (.rclk true) (shiftOut k s)).latch = (shiftOut k s).shiftReg

/-- R96: the external register. `S[0]` takes `SER` and the others move up at the rising `SCLK`; `L` takes `S` at the rising
`RCLK`; master reset clears both; while it is asserted edges have no effect; every other pin event leaves both alone; the
address lines carry `L` through the wiring while the output stage is on. The edges R97 forbids are outside (`SER` changing
while `SCLK = 1`, an edge of one clock while the other is 1), but for those of a clock while master reset is asserted: there R97
gives draws and R96 no effect, and that R96 wins is the model's choice (log entry 11). -/
def Obligations.RegisterReactsToEdges : Prop :=
  ∀ s : State,
    (s.sclk = false → s.rclk = false → s.mr = .deasserted →
      (pin (.sclk true) s).latch = s.latch ∧ (pin (.sclk true) s).shiftReg.getLsbD 0 = s.ser ∧
      ∀ j, j < 15 → (pin (.sclk true) s).shiftReg.getLsbD (j + 1) = s.shiftReg.getLsbD j) ∧
    (s.rclk = false → s.sclk = false → s.mr = .deasserted →
      (pin (.rclk true) s).latch = s.shiftReg ∧ (pin (.rclk true) s).shiftReg = s.shiftReg) ∧
    ((pin (.mr .asserted) s).shiftReg = 0 ∧ (pin (.mr .asserted) s).latch = 0) ∧
    (∀ p : PinWrite, p ≠ .mr .asserted → (p = .sclk true → s.sclk = true ∨ s.mr = .asserted) →
      (p = .rclk true → s.rclk = true ∨ s.mr = .asserted) → (∀ v, p = .ser v → s.sclk = false) →
      (pin p s).shiftReg = s.shiftReg ∧ (pin p s).latch = s.latch) ∧
    (s.aov = .off → ∀ i : Fin 16,
      addressLine s i = if s.sroe = .on then .level (s.latch.getLsbD s.cfg.bitOrderMap[i].val) else .undriven)

/-- R94, R95: the register's `reset()` from any state, and the output stage. -/
def Obligations.RegisterResetClearsAndDisables : Prop :=
  ∀ s : State,
    registerReset s =
      { s with
        sroe := .off, mr := .deasserted, shiftReg := 0, latch := 0
        trace := s.trace ++ [.pin (.sroe .off), .pin (.mr .asserted), .delay .mrGuard, .pin (.mr .deasserted)] } ∧
    ∀ on, setRegisterOutput on s =
      { s with
        sroe := if on = true then .on else .off
        trace := s.trace ++ [.pin (.sroe (if on = true then .on else .off))] }

/-- R27: "No value of `VEC` survives from one `set_address` to the next": what it held before makes no difference. -/
def Obligations.OldBitVectorMakesNoDifference : Prop :=
  ∀ (s : State) (addr : Nat) (v : Addr), s.cfg.bijective → setAddress addr { s with vec := v } = setAddress addr s

/-! ### DataBusPort, PowerSequencer, ChipSelect -/

/-- R106, R107: set_direction keeps `DOUT`; write drives the word with `DDIR = Out`, and with `DDIR = In` appends no event,
leaves `DOUT` and sets the mark. The lines carry `DOUT` exactly while `DDIR = Out`. -/
def Obligations.DataBusDirectionAndWrite : Prop :=
  ∀ s : State,
    (setDirection true s = { s with ddir := .input, trace := s.trace ++ [.pin (.ddir .input)] }) ∧
    (setDirection false s = { s with ddir := .output, trace := s.trace ++ [.pin (.ddir .output)] }) ∧
    (dataLines (setDirection true s) = none ∧ dataLines (setDirection false s) = some s.dout) ∧
    ∀ w : Word,
      (s.ddir = .output →
        writeBus w s = { s with dout := w, d := some w, trace := s.trace ++ [.pin (.d w)] } ∧
        dataLines (writeBus w s) = some w) ∧
      (s.ddir = .input → writeBus w s = { s with fault := true })

/-- R64, R108: read returns the addressed cell when the device validly drives the bus, appends one `Sample`, and changes no
state of the block or of the device. -/
def Obligations.ReadReturnsDrivenCell : Prop :=
  ∀ s : State,
    (BusDriven s → readBusValue s = memRead s.mem ((deserOf s.cfg s.latch).toNat % s.cfg.memorySize)) ∧
    (∃ n, readBus s = { s with trace := s.trace ++ [.sample (readBusValue s)], draws := n })

/-- R115: after set_output_enable the net is in the mode asked for; two events, the disabling one first; the two drivers are
never on together after either event; nothing but the two drivers changes. From any state at all. -/
def Obligations.OutputEnableBreaksBeforeMake : Prop :=
  ∀ (s : State) (m : OutputEnable),
    outputEnableMode (setOutputEnable m s) = some m ∧
    runsBy exclusiveAfter s (setOutputEnable m s) ∧
    setOutputEnable m s =
      { s with
        oel := (setOutputEnable m s).oel
        oeh := (setOutputEnable m s).oeh
        trace := s.trace ++
          match m with
          | .logicLow => [.pin (.oeh .off), .pin (.oel .low)]
          | .logicHigh => [.pin (.oeh .off), .pin (.oel .high)]
          | .highVoltage => [.pin (.oel .off), .pin (.oeh .on)]
          | .disabled => [.pin (.oeh .off), .pin (.oel .off)] }

/-- R116, R125: the override net, and the device-select line. `enable(false)` may end a pulse of the device: then its cells (with
the model's script and counter of free values, log entries 4 and 5) change as R65 and R66 say, and nothing else does; on a line
already deasserted it ends none. -/
def Obligations.OverrideAndSelectDriveOneLine : Prop :=
  ∀ s : State,
    (setAddressOverride .normal s = { s with aov := .off, trace := s.trace ++ [.pin (.aov .off)] }) ∧
    (setAddressOverride .highVoltage s = { s with aov := .on, trace := s.trace ++ [.pin (.aov .on)] }) ∧
    (enable true s = { s with csel := .asserted, trace := s.trace ++ [.pin (.cs .asserted)] }) ∧
    (enable false s =
      { s with
        csel := .deasserted, trace := s.trace ++ [.pin (.cs .deasserted)], mem := (enable false s).mem
        eraseScript := (enable false s).eraseScript, draws := (enable false s).draws }) ∧
    (s.csel = .deasserted → enable false s = { s with trace := s.trace ++ [.pin (.cs .deasserted)] })

/-! ### The reference device -/

/-- R65: at the end of a chip-select assertion under high voltage with the override off, the addressed cell takes
`ProgramCell(old, DOUT)` when data and address are driven, and some word otherwise; no cell but that of `DevAddr` changes, which
R62 leaves open with `SROE = off` (a cell of the device). -/
def Obligations.ProgramPulseWritesOneCell : Prop :=
  ∀ s : State, Memory.wf s.cfg.memorySize s.mem = true → s.csel = .asserted →
    outputEnableMode s = some .highVoltage → s.aov = .off →
    (s.ddir = .output ∧ s.sroe = .on → ∀ b, memRead (enable false s).mem b =
      if b = (deserOf s.cfg s.latch).toNat % s.cfg.memorySize then programCell s.cfg (memRead s.mem b) s.dout
      else memRead s.mem b) ∧
    (∀ b, b ≠ devAddr s → memRead (enable false s).mem b = memRead s.mem b) ∧
    (s.sroe = .on → devAddr s = (deserOf s.cfg s.latch).toNat % s.cfg.memorySize) ∧
    (1 ≤ s.cfg.memorySize → devAddr s < s.cfg.memorySize)

/-- R66: an erase pulse leaves every cell erased on success, and the array of the outcome on failure, which can be any array; the
outcome is the next of the script, or free when the script is exhausted (the model's, log entry 5); no event other than the end
of a program or erase pulse changes a cell. -/
def Obligations.ErasePulseFollowsOutcome : Prop :=
  (∀ s : State, s.csel = .asserted → outputEnableMode s = some .highVoltage → s.aov = .on →
    (enable false s).mem = erasedArray s.cfg.memorySize (eraseOutcome s)) ∧
  (∀ (s : State) (rest : List EraseDraw), s.csel = .asserted → outputEnableMode s = some .highVoltage → s.aov = .on →
    (s.eraseScript = .success :: rest → ∀ a, memRead (enable false s).mem a = erasedValue) ∧
    (∀ cells, s.eraseScript = .failure cells :: rest → (enable false s).mem = arrayOf s.cfg.memorySize cells)) ∧
  (∀ (size : Nat) (m : Memory), Memory.wf size m = true → ∃ cells, arrayOf size cells = m) ∧
  (∀ (s : State) (p : PinWrite),
    ¬(p = .cs .deasserted ∧ s.csel = .asserted ∧ outputEnableMode s = some .highVoltage) → (pin p s).mem = s.mem)

/-- R60: the cells as an array: a read after a write, and that a write keeps the canonical form. -/
def Obligations.CellsReadWhatWasWritten : Prop :=
  ∀ (size : Nat) (m : Memory) (a : Nat) (v : Word), Memory.wf size m = true → a < size →
    Memory.wf size (memWrite m a v) = true ∧ ∀ b, memRead (memWrite m a v) b = if b = a then v else memRead m b

/-! ### The commands -/

/-- R134: BR from `Idle`, all of it: five events, and every other field as it was; in another state strict mode rejects it. -/
def Obligations.BeginReadResult : Prop :=
  (∀ s : State, Quiet s → s.cs = .idle →
    ∃ t, exec .br s = .next t ∧ responseWord t = 0x10000000 ∧
      t = { s with
        ddir := .input, oeh := .off, oel := .high, aov := .off, cs := .readActive
        status := .ok, raddr := 0, rdata := 0, ropc := 1
        trace := s.trace ++
          [.pin (.cs .deasserted), .pin (.ddir .input), .pin (.oeh .off), .pin (.oel .high), .pin (.aov .off)] }) ∧
  ∀ s : State, Ready s → s.cfg.strict = true → s.cs ≠ .idle → exec .br s = .next (rejected .br s)

/-- R135, R77: R in `ReadActive`, all of it: the reduced address is serialized, the addressed cell is returned, 59 events, and
every other field (with all of the cells) as it was; in another state strict mode rejects it. -/
def Obligations.ReadByteResult : Prop :=
  (∀ (s : State) (addr16 : Addr), Sound s → s.cs = .readActive →
    ∃ t v, exec (.r addr16) s = .next t ∧
      v = serOf s.cfg (BitVec.ofNat 16 (addr16.toNat % s.cfg.memorySize)) ∧
      (readEvents v (memRead s.mem (addr16.toNat % s.cfg.memorySize))).length = 59 ∧
      t = { s with
        vec := v, shiftReg := v, latch := v, ser := v.getLsbD 0, sroe := .on, oeh := .off, oel := .high
        status := .ok, raddr := BitVec.ofNat 16 (addr16.toNat % s.cfg.memorySize)
        rdata := memRead s.mem (addr16.toNat % s.cfg.memorySize), ropc := 2
        trace := s.trace ++ readEvents v (memRead s.mem (addr16.toNat % s.cfg.memorySize)) }) ∧
  ∀ (s : State) (addr16 : Addr), Ready s → s.cfg.strict = true → s.cs ≠ .readActive →
    exec (.r addr16) s = .next (rejected (.r addr16) s)

/-- R139: ER in `ReadActive`, all of it: four events; neither `DDIR` nor `SROE` changes; in another state strict mode
rejects it. -/
def Obligations.EndReadResult : Prop :=
  (∀ s : State, Quiet s → s.cs = .readActive →
    ∃ t, exec .er s = .next t ∧ responseWord t = 0x30000000 ∧
      t = { s with
        oeh := .off, oel := .high, aov := .off, cs := .idle, status := .ok, raddr := 0, rdata := 0, ropc := 3
        trace := s.trace ++ [.pin (.cs .deasserted), .pin (.oeh .off), .pin (.oel .high), .pin (.aov .off)] }) ∧
  ∀ s : State, Ready s → s.cfg.strict = true → s.cs ≠ .readActive → exec .er s = .next (rejected .er s)

/-- R140: BP from `Idle`, all of it: five events; `CS` is not touched; in another state strict mode rejects it. -/
def Obligations.BeginProgramResult : Prop :=
  (∀ s : State, Ready s → s.fault = false → s.cs = .idle →
    ∃ t, exec .bp s = .next t ∧ responseWord t = 0x40000000 ∧
      t = { s with
        ddir := .output, oel := .off, oeh := .on, aov := .off, sroe := .on, cs := .programActive
        status := .ok, raddr := 0, rdata := 0, ropc := 4
        trace := s.trace ++
          [.pin (.ddir .output), .pin (.oel .off), .pin (.oeh .on), .pin (.aov .off), .pin (.sroe .on)] }) ∧
  ∀ s : State, Ready s → s.cfg.strict = true → s.cs ≠ .idle → exec .bp s = .next (rejected .bp s)

/-- R141, R77: P in `ProgramActive`, all of it: 56 events, the addressed cell takes `ProgramCell(old, word)`, every other cell
and every other field as it was; in another state strict mode rejects it. -/
def Obligations.ProgramByteResult : Prop :=
  (∀ (s : State) (addr16 : Addr) (w : Word), Sound s → s.cs = .programActive →
    ∃ t v, exec (.p addr16 w) s = .next t ∧
      v = serOf s.cfg (BitVec.ofNat 16 (addr16.toNat % s.cfg.memorySize)) ∧ (programEvents v w).length = 56 ∧
      (∀ b, memRead t.mem b =
        if b = addr16.toNat % s.cfg.memorySize then programCell s.cfg (memRead s.mem b) w else memRead s.mem b) ∧
      t = { s with
        vec := v, shiftReg := v, latch := v, ser := v.getLsbD 0, d := some w, dout := w, mem := t.mem
        status := .ok, raddr := BitVec.ofNat 16 (addr16.toNat % s.cfg.memorySize), rdata := w, ropc := 5
        trace := s.trace ++ programEvents v w }) ∧
  ∀ (s : State) (addr16 : Addr) (w : Word), Ready s → s.cfg.strict = true → s.cs ≠ .programActive →
    exec (.p addr16 w) s = .next (rejected (.p addr16 w) s)

/-- R142: EP in `ProgramActive`, all of it: six events, the override before the output-enable; in another state strict mode
rejects it. -/
def Obligations.EndProgramResult : Prop :=
  (∀ s : State, Quiet s → s.cs = .programActive →
    ∃ t, exec .ep s = .next t ∧ responseWord t = 0x60000000 ∧
      t = { s with
        aov := .off, oeh := .off, oel := .high, ddir := .input, sroe := .off, cs := .idle
        status := .ok, raddr := 0, rdata := 0, ropc := 6
        trace := s.trace ++
          [.pin (.cs .deasserted), .pin (.aov .off), .pin (.oeh .off), .pin (.oel .high), .pin (.ddir .input),
           .pin (.sroe .off)] }) ∧
  ∀ s : State, Ready s → s.cfg.strict = true → s.cs ≠ .programActive → exec .ep s = .next (rejected .ep s)

/-- R159: E with no attempt allowed, all of it: six events, `ERASE_FAILED` with zeros, no pulse. That `L` is as it was is R151,
R159 and R96, where R156 says `0` (log entry 25). -/
def Obligations.EraseWithoutAttempts : Prop :=
  ∀ s : State, Quiet s → s.cs = .idle → s.erase = none →
    ∃ t, exec (.e 0) s = .next t ∧ responseWord t = 0x72000000 ∧
      t = { s with
        sroe := .on, oeh := .off, oel := .high, aov := .off, ddir := .input
        status := .eraseFailed, raddr := 0, rdata := 0, ropc := 7
        trace := s.trace ++ [.pin (.sroe .on), .pin (.cs .deasserted), .pin (.oeh .off), .pin (.oel .high),
          .pin (.aov .off), .pin (.ddir .input)] }

/-- R151, R156, R157, R197: E from `Idle` completes for every attempt bound, whatever the device and the operator do; the
cleanup has run, `cs` is `Idle` as before, the result is one of the three outcomes, the register holds the last address
latched; and what E does not touch is as it was. -/
def Obligations.EraseCompletesAndCleansUp : Prop :=
  ∀ (s : State) (n : Nat), Quiet s → s.cs = .idle →
    ∃ t, exec (.e n) s = .next t ∧
      (t.status = .ok ∨ t.status = .eraseFailed ∨ t.status = .cancelled) ∧ t.ropc = 7 ∧ t.busy = false ∧ t.erase = none ∧
      t.cs = .idle ∧ t.csel = .deasserted ∧ outputEnableMode t = some .logicHigh ∧ t.aov = .off ∧ t.ddir = .input ∧
      t.sroe = .on ∧ SerialIdle t ∧ t.fault = s.fault ∧ t.cfg = s.cfg ∧ t.commands = s.commands ∧
      (1 ≤ n → t.d = some erasedValue ∧ t.dout = erasedValue ∧ t.vec = t.latch ∧ t.shiftReg = t.latch ∧
        t.ser = t.latch.getLsbD 0 ∧
        t.latch = serOf s.cfg (if t.status = .ok then BitVec.ofNat 16 (s.cfg.memorySize - 1) else t.raddr)) ∧
      ∃ evs, t.trace = s.trace ++ evs

/-- R158 (a), S2: when E answers OK every cell reads the erased value. -/
def Obligations.EraseSuccessLeavesAllErased : Prop :=
  ∀ (s t : State) (n : Nat), Quiet s → s.cs = .idle → exec (.e n) s = .next t → t.status = .ok →
    ∀ a, a < t.cfg.memorySize → memRead t.mem a = erasedValue

/-- R154, R157, R158 (b): when E with at least one attempt does not answer OK, the result registers hold the last mismatch, the
lowest address that does not read the erased value and the word there, and it was reported; the operator was polled after
the report. -/
def Obligations.EraseFailureReportsMismatch : Prop :=
  ∀ (s t : State) (n : Nat), Quiet s → s.cs = .idle → 1 ≤ n → exec (.e n) s = .next t → t.status ≠ .ok →
    t.raddr.toNat < t.cfg.memorySize ∧ memRead t.mem t.raddr.toNat = t.rdata ∧ t.rdata ≠ erasedValue ∧
    (∀ a, a < t.raddr.toNat → memRead t.mem a = erasedValue) ∧
    ∃ evs k b, t.trace = s.trace ++ evs ++
      [.report (.eraseMismatch k t.raddr erasedValue t.rdata), .cancelPoll b, .pin (.cs .deasserted), .pin (.oeh .off),
       .pin (.oel .high), .pin (.aov .off), .pin (.ddir .input)] ∧
      erasePulses evs = k ∧ (t.status = .cancelled ↔ b = true)

/-- R158 (c), R155: E makes at most `n` erase pulses, one report for each failed attempt and none for a successful one; it
answers `ERASE_FAILED` only after exactly `n` attempts. -/
def Obligations.EraseAttemptsAreBounded : Prop :=
  ∀ (s t : State) (n : Nat), Quiet s → s.cs = .idle → exec (.e n) s = .next t →
    ∃ evs, t.trace = s.trace ++ evs ∧ erasePulses evs ≤ n ∧
      (t.status = .ok → mismatchReports evs + 1 = erasePulses evs) ∧
      (t.status ≠ .ok → mismatchReports evs = erasePulses evs) ∧
      (t.status = .eraseFailed → erasePulses evs = n)

/-- R158 (c), S3: on a device that fails on every pulse, and without a cancel, E answers `ERASE_FAILED` after exactly `n`
attempts, each reported. -/
def Obligations.UnerasableDeviceFailsAfterAllAttempts : Prop :=
  ∀ (s : State) (fails later : List EraseDraw) (answers : List Bool), Quiet s → s.cs = .idle →
    s.eraseScript = fails ++ later → (∀ x ∈ fails, leavesUnerased s.cfg.memorySize x) →
    s.cancelIn = List.replicate fails.length false ++ answers →
    ∃ t evs, exec (.e fails.length) s = .next t ∧ t.status = .eraseFailed ∧ t.trace = s.trace ++ evs ∧
      erasePulses evs = fails.length ∧ mismatchReports evs = fails.length ∧
      t.eraseScript = later ∧ t.cancelIn = answers

/-- R155, R195: a cancel at the first waypoint ends E at once: one pulse, status CANCELLED, no further attempt. All events, in
order (R151, R153, R154): the verify pass stops at the first mismatch. -/
def Obligations.CancelStopsEraseAtOnce : Prop :=
  ∀ (s : State) (n : Nat) (x : EraseDraw) (later : List EraseDraw) (answers : List Bool), Quiet s → s.cs = .idle →
    1 ≤ n → s.eraseScript = x :: later → leavesUnerased s.cfg.memorySize x → s.cancelIn = true :: answers →
    ∃ t, exec (.e n) s = .next t ∧ t.status = .cancelled ∧ t.mem = erasedArray s.cfg.memorySize x ∧
      t.trace = s.trace ++
        ([.pin (.sroe .on)] ++ attemptEvents s.cfg t.mem (t.raddr.toNat + 1) ++
          [.report (.eraseMismatch 1 t.raddr erasedValue t.rdata), .cancelPoll true] ++ eraseCleanupEvents) ∧
      t.eraseScript = later ∧ t.cancelIn = answers

/-- R151, R154, R157: a pulse that fails and, without a cancel, one that succeeds: two attempts, OK, every cell erased; the result
registers keep the mismatch of the first, the lowest address that did not read the erased value. All events, in order. -/
def Obligations.EraseRetriesAfterMismatch : Prop :=
  ∀ (s : State) (n : Nat) (x : EraseDraw) (later : List EraseDraw) (answers : List Bool), Quiet s → s.cs = .idle →
    2 ≤ n → s.eraseScript = x :: .success :: later → leavesUnerased s.cfg.memorySize x →
    s.cancelIn = false :: answers →
    ∃ t, exec (.e n) s = .next t ∧ t.status = .ok ∧ t.mem = [] ∧ t.raddr.toNat < s.cfg.memorySize ∧
      t.rdata ≠ erasedValue ∧ memRead (erasedArray s.cfg.memorySize x) t.raddr.toNat = t.rdata ∧
      (∀ a, a < t.raddr.toNat → memRead (erasedArray s.cfg.memorySize x) a = erasedValue) ∧
      t.trace = s.trace ++
        ([.pin (.sroe .on)] ++ attemptEvents s.cfg (erasedArray s.cfg.memorySize x) (t.raddr.toNat + 1) ++
          [.report (.eraseMismatch 1 t.raddr erasedValue t.rdata), .cancelPoll false] ++
          attemptEvents s.cfg [] s.cfg.memorySize ++ eraseCleanupEvents) ∧
      t.eraseScript = later ∧ t.cancelIn = answers

/-- R151, R153, R160: a successful first attempt, all its events in order: `1 + 58 + 6 + 58 * MEMORY_SIZE + 5` of them; OK with
zeros, one pulse. -/
def Obligations.EraseFirstSuccessEventCount : Prop :=
  ∀ (s : State) (n : Nat) (later : List EraseDraw), Quiet s → s.cs = .idle → 1 ≤ n →
    s.eraseScript = .success :: later →
    ∃ t evs, exec (.e n) s = .next t ∧ responseWord t = 0x70000000 ∧ t.mem = [] ∧ t.trace = s.trace ++ evs ∧
      evs = [.pin (.sroe .on)] ++ attemptEvents s.cfg [] s.cfg.memorySize ++ eraseCleanupEvents ∧
      evs.length = 1 + 58 + 6 + 58 * s.cfg.memorySize + 5 ∧ erasePulses evs = 1 ∧
      evs.count (.delay .eraseSettle) = 1 ∧ evs.count (.delay .readPulse) = s.cfg.memorySize

/-! ### Sequencing -/

/-- R132: a command outside its required state. In strict mode it is reported and nothing else happens. In non-strict mode it
runs as it would in its required state, with the mark set, but for `cs`, which it writes as R133 says. -/
def Obligations.PreconditionCheck : Prop :=
  ∀ (i : Instr) (s : State), Ready s → s.cs ≠ required i →
    (s.cfg.strict = true → exec i s = .next (rejected i s)) ∧
    (s.cfg.strict = false →
      ∃ t, exec i { s with cs := required i, fault := true } = .next t ∧ t.fault = true ∧
        exec i s = .next { t with cs := cycleAfter i s.cs })

/-- R132, R133, R196: in non-strict mode such a command runs, is not rejected, and sets the mark; in its required state a
command is not rejected either. Neither reports a violation. -/
def Obligations.NonStrictModeRunsAndMarks : Prop :=
  ∀ (i : Instr) (s : State), Ready s → s.cfg.strict = false →
    ∃ t, exec i s = .next t ∧ t.status ≠ .seqViolation ∧ (s.cs ≠ required i → t.fault = true) ∧ t.cs = cycleAfter i s.cs ∧
      ∃ evs, t.trace = s.trace ++ evs ∧ ∀ opc cs req, Event.report (.sequencingViolation opc cs req) ∉ evs

/-- R132, R133: the transition table, strict and non-strict, which the spec derives: the mode changes only by BR, ER, BP, EP, and
only when the command runs; a violation is answered in strict mode only, and runs with the mark in non-strict mode (log entry
12). -/
def Obligations.TransitionTable : Prop :=
  ∀ (i : Instr) (s t : State), exec i s = .next t →
    (t.cs = if s.cs = required i ∨ s.cfg.strict = false then cycleAfter i s.cs else s.cs) ∧
    (t.status = .seqViolation ↔ s.cs ≠ required i ∧ s.cfg.strict = true) ∧
    (s.cs ≠ required i → s.cfg.strict = false → t.fault = true)

/-- R130: no step of a strict run leads from one open cycle to the other. -/
def Obligations.CyclesOpenFromIdleOnly : Prop :=
  ∀ s t : State, s.cfg.strict = true → step s = .next t →
    (t.cs = s.cs ∨ s.cs = .idle ∨ t.cs = .idle)

/-- R40, R196: the mark is never cleared, and the trace only grows. -/
def Obligations.MarkIsStickyAndTraceGrows : Prop :=
  ∀ s t : State, step s = .next t → (s.fault = true → t.fault = true) ∧ ∃ evs, t.trace = s.trace ++ evs

/-- R9, R35, C8: no step changes the configuration; R39: a step takes at most the one command presented. -/
def Obligations.ConfigurationIsConstant : Prop :=
  ∀ s t : State, step s = .next t → t.cfg = s.cfg ∧ t.commands = s.commands.tail

/-- R34: "no command reads them": the result registers make no difference to what a command does. -/
def Obligations.ResultRegistersAreNotRead : Prop :=
  ∀ (i : Instr) (s : State) (code : Status) (a : Addr) (w : Word) (o : BitVec 4),
    exec i { s with status := code, raddr := a, rdata := w, ropc := o } = exec i s

/-- R57, R66: only P and E change the device's cells, in a run that is not marked (R196). -/
def Obligations.OnlyProgramAndEraseChangeCells : Prop :=
  ∀ (i : Instr) (s t : State), Quiet s → (∀ a w, i ≠ .p a w) → (∀ n, i ≠ .e n) → exec i s = .next t → t.fault = false →
    t.mem = s.mem

/-- R144, S1: with the default `ProgramCell`, programming `w` at `a` in a program cycle and then reading `a` in a read cycle
returns `w`, and the block is back in `Idle`. -/
def Obligations.ProgramThenReadReturnsWord : Prop :=
  ∀ (s : State) (a : Addr) (w : Word), Sound s → s.cs = .idle → s.cfg.cellRule = .overwrite →
    a.toNat < s.cfg.memorySize →
    ∃ s1 s2 s3 s4 s5 s6, exec .bp s = .next s1 ∧ exec (.p a w) s1 = .next s2 ∧ exec .ep s2 = .next s3 ∧
      exec .br s3 = .next s4 ∧ exec (.r a) s4 = .next s5 ∧ exec .er s5 = .next s6 ∧
      s5.status = .ok ∧ s5.raddr = a ∧ s5.rdata = w ∧ s6.cs = .idle ∧ Sound s6

/-! ### Invariants of every step -/

/-- R36, R42, R33: what holds between commands is kept by every step: `BUSY = 0`, the drivers exclusive, no erase record; and in a
run that is not marked the lines of R43 (of a marked run nothing more is said of the lines, R196, log entry 12). The canonical
form of the cells (log entry 3) and `D` and `DOUT` in agreement (log entry 9) are the model's own. -/
def Obligations.StepKeepsBetweenCommands : Prop := ∀ s t : State, Between s → step s = .next t → Between t

/-- R196, R107: a run is marked only by a command outside its required state in non-strict mode. -/
def Obligations.OnlyTrustedViolationsMark : Prop :=
  ∀ (i : Instr) (s t : State), Sound s → exec i s = .next t →
    (t.fault = true ↔ s.cs ≠ required i ∧ s.cfg.strict = false)

/-- R42, R224: at every point of the trace of every step, in strict or non-strict mode and whatever `cs` is, the high-voltage
and the logic driver of the output-enable net are not on together. -/
def Obligations.DriversNeverOnTogether : Prop :=
  ∀ s t : State, DriversExclusive s → step s = .next t → runsBy exclusiveAfter s t ∧ DriversExclusive t

/-- R92, R222, R223, R97: at every point of the trace of every step of an unmarked run (R196) the serial pulses keep their
discipline, and the serial lines end idle (R43). -/
def Obligations.SerialPulsesNeverOverlap : Prop :=
  ∀ s t : State, SerialIdle s → step s = .next t → t.fault = false → runsBy serialDiscipline s t ∧ SerialIdle t

/-- R109, R225: in an unmarked run data are driven with `DDIR = Out` only, sampled with `DDIR = In` only, and the controller
never drives the bus while the device does. -/
def Obligations.NoBusContention : Prop :=
  ∀ s t : State, Sound s → step s = .next t → t.fault = false → runsBy busDiscipline s t

/-! ### The adapter -/

/-- R178, R80, S6: the source's end-to-end example in full, from `Idle`: `bp`, `p 0010 ff`, `ep`, `br`, `r 0010`, `er`; the `p` and
the `r` are answered `10: ff`, the others with their status strings, and nothing else is sent. The adapter's bounds must leave
room for the lines and the answer, and the cancel byte must not be a character of the lines (R81). -/
def Obligations.EndToEndExampleAnswersTenFf : Prop :=
  ∀ (s : State) (answer : Confirmation) (lines : List (List Char)),
    lines = [['b', 'p'], ['p', ' ', '0', '0', '1', '0', ' ', 'f', 'f'], ['e', 'p'], ['b', 'r'],
      ['r', ' ', '0', '0', '1', '0'], ['e', 'r']] →
    Sound s → s.cs = .idle → s.cfg.cellRule = .overwrite → 0x10 < s.cfg.memorySize → 9 ≤ s.cfg.maxLineLength →
    6 ≤ s.cfg.responseBufferSize → (∀ line ∈ lines, line.any (isCancel s.cfg) = false) →
    ∃ t, operate (lines.map fun line => (line, answer)) s =
        ⟨.next t,
          [.response (bounded s.cfg s.cfg.texts.statusBp), .response ['1', '0', ':', ' ', 'f', 'f'],
           .response (bounded s.cfg s.cfg.texts.statusEp), .response (bounded s.cfg s.cfg.texts.statusBr),
           .response ['1', '0', ':', ' ', 'f', 'f'], .response (bounded s.cfg s.cfg.texts.statusEr)]⟩ ∧
      t.cs = .idle ∧ Sound t

/-- R174: a confirmed `wp` from a sound `Idle` state, on a device whose `ProgramCell` is the default: the program cycle and the
read cycle complete, every address of the range holds its pattern, every other cell is as it was, and the reads find no
mismatch. `WP_REQUIRED_CS`, where the run starts and ends, and `Pattern` are the parameters of R175. -/
def Obligations.PatternRunVerifies : Prop :=
  ∀ (s : State) (last : Addr), Sound s → s.cs = .idle → s.cfg.wpRequiredCs = .idle → s.cfg.cellRule = .overwrite →
    last.toNat < s.cfg.memorySize →
    ∃ t, patternDialog .expected last s = ⟨.next t, []⟩ ∧ t.cs = .idle ∧ Sound t ∧
      ∀ b, memRead t.mem b =
        if s.cfg.wpStart.toNat ≤ b ∧ (b < last.toNat ∨ b = last.toNat ∧ s.cfg.wpEndInclusive = true) then
          Config.pattern (BitVec.ofNat 16 b)
        else memRead s.mem b

/-- R172, S8, C6: a cancel at the confirmation prompt of `e` calls no core operation, so every line is as it was, and answers
`erase cancelled`; the expected input runs E with `ERASE_MAX_ATTEMPTS`, and a failure for whatever reason answers
`Erase Failed`. -/
def Obligations.EraseDialogCancelTouchesNothing : Prop :=
  ∀ s : State, 15 ≤ s.cfg.responseBufferSize →
    eraseDialog .cancelByte s = .next s ∧
    eraseDialogResponse .cancelByte s = "erase cancelled".toList ∧
    eraseDialog .expected s = exec (.e s.cfg.eraseMaxAttempts) s ∧
    (s.status = .eraseFailed ∨ s.status = .cancelled →
      eraseDialogResponse .expected s = "Erase Failed".toList) ∧
    (s.status = .ok → eraseDialogResponse .expected s = "Erase complete".toList)
end

