-- ==== Sys2Proof/Laws/Adapter.lean ====
section
/-! SUPPORT. What the adapter's operations can do (46_adapter_commands.md R170 to R178): which events are shown, what a line of
the command table comes to, lists of commands, the range of a test-pattern run. -/

namespace Sys2Proof.Machine

/-! ### What is shown -/

theorem shiftEvents_silent (cfg : Cfg) (k : Nat) (v : Addr) : (shiftEvents k v).filterMap (eventMessage cfg) = [] := by
  induction k with
  | zero => rfl
  | succ k ih => rw [shiftEvents, List.filterMap_append, ih]; rfl

theorem addressEvents_silent (cfg : Cfg) (v : Addr) : (addressEvents v).filterMap (eventMessage cfg) = [] := by
  rw [addressEvents, List.filterMap_append, shiftEvents_silent]; rfl

theorem readEvents_silent (cfg : Cfg) (v : Addr) (w : Word) : (readEvents v w).filterMap (eventMessage cfg) = [] := by
  rw [readEvents, List.filterMap_append, addressEvents_silent]; rfl

theorem programEvents_silent (cfg : Cfg) (v : Addr) (w : Word) :
    (programEvents v w).filterMap (eventMessage cfg) = [] := by
  rw [programEvents, List.filterMap_append, addressEvents_silent]; rfl

/-- A command that answers OK and whose events show nothing is answered with its normal response alone (R80, R170). -/
theorem coreDialog_ok {i : Instr} {s t : State} {evs : List Event} (h : exec i s = .next t) (ht : t.trace = s.trace ++ evs)
    (hq : evs.filterMap (eventMessage t.cfg) = []) (hs : t.status = .ok) :
    coreDialog i s = ⟨.next t, [.response (coreResponse i t)]⟩ := by
  simp only [coreDialog, h, shownReports, ht, List.drop_left, hq, isAnswered, hs]
  rfl

/-! ### Lines -/

/-- A line within the bounds of the channel means what its tokens mean (R72, R81). -/
theorem lineMeaning_tokens {cfg : Cfg} {line : List Char} (h : line.length ≤ cfg.maxLineLength)
    (hc : line.any (isCancel cfg) = false) : lineMeaning cfg line = tokenMeaning cfg (tokens line) := by
  rw [lineMeaning, if_neg]
  rw [hc]
  simp
  omega

/-- The first line of several, when it is one core operation that completes. -/
theorem operate_core {line : List Char} {answer : Confirmation} {rest : List (List Char × Confirmation)} {i : Instr}
    {s t : State} {sent : List Message} (h : lineMeaning s.cfg line = .core i) (hd : coreDialog i s = ⟨.next t, sent⟩) :
    operate ((line, answer) :: rest) s = ⟨(operate rest t).outcome, sent ++ (operate rest t).messages⟩ := by
  have hl : lineDialog line answer s = ⟨.next t, sent⟩ := by rw [lineDialog, h]; exact hd
  simp only [operate, hl]

/-! ### Lists of commands and the range of `wp` -/

theorem runCommands_append {a b : List Instr} {s t : State} (h : runCommands a s = .next t) :
    runCommands (a ++ b) s = runCommands b t := by
  induction a generalizing s with
  | nil => cases h; rfl
  | cons i a ih =>
    simp only [runCommands, List.cons_append] at h ⊢
    cases he : exec i s with
    | next u => rw [he] at h; exact ih h
    | fault f => rw [he] at h; cases h
    | refused x => rw [he] at h; cases h

/-- The addresses of a test-pattern run: from `WP_START` to the end address, itself among them if `WP_END_INCLUSIVE` (R175). -/
theorem mem_patternRange {cfg : Cfg} {last a : Addr} :
    a ∈ patternRange cfg last ↔
      cfg.wpStart.toNat ≤ a.toNat ∧ (a.toNat < last.toNat ∨ a.toNat = last.toNat ∧ cfg.wpEndInclusive = true) := by
  have hl := last.isLt
  simp only [patternRange, List.mem_map, List.mem_range'_1]
  constructor
  · rintro ⟨n, ⟨h1, h2⟩, rfl⟩
    have hn : n < 65536 := by split at h2 <;> omega
    rw [BitVec.toNat_ofNat, Nat.mod_eq_of_lt hn]
    refine ⟨h1, ?_⟩
    split at h2
    · rename_i h; simp only [h, and_true]; omega
    · left; omega
  · rintro ⟨h1, h2⟩
    refine ⟨a.toNat, ⟨h1, ?_⟩, by simp⟩
    rcases h2 with h2 | ⟨h2, h3⟩
    · split <;> omega
    · rw [if_pos h3]; omega

end Sys2Proof.Machine
end

