-- ==== Sys2Proof/Laws/Bits.lean ====
section
/-! SUPPORT. The bit helpers: what each bit of their result is, and that serializing and deserializing cancel
(20_memory.md R58, 40_address_serializer.md R93). -/

namespace Sys2Proof.Machine

theorem setBit_getLsbD (v : Addr) (k : Fin 16) (b : Bool) (j : Nat) :
    (setBit v k b).getLsbD j = if j = k.val then b else v.getLsbD j := by
  have hk := k.isLt
  unfold setBit
  by_cases hj : j = k.val
  · subst hj; cases b <;> simp [hk]
  · by_cases h16 : j < 16
    · cases b <;> simp [hj, h16]
    · rw [if_neg hj]
      cases b <;> simp [BitVec.getLsbD_of_ge _ j (Nat.le_of_not_lt h16)]

theorem shiftIn_getLsbD (s : Addr) (b : Bool) (j : Nat) (hj : j < 16) :
    (shiftIn s b).getLsbD j = if j = 0 then b else s.getLsbD (j - 1) := by
  unfold shiftIn
  by_cases h0 : j = 0
  · subst h0; cases b <;> simp
  · have : 1 ≤ j := by omega
    have hj1 : j - 1 < 16 := by omega
    simp only [BitVec.getLsbD_or, BitVec.getLsbD_shiftLeft, BitVec.getLsbD_setWidth, BitVec.getLsbD_ofBool]
    simp [hj, h0]

/-- A fold of `setBit` at places that are all different: what it leaves at each place, and elsewhere. -/
theorem foldl_setBit_getLsbD (f : Fin 16 → Fin 16) (g : Fin 16 → Bool) (hf : Function.Injective f) (v : Addr) (j : Nat) :
    ∀ l : List (Fin 16), (l.foldl (fun v i => setBit v (f i) (g i)) v).getLsbD j =
      if h : ∃ i ∈ l, (f i).val = j then g h.choose else v.getLsbD j := by
  intro l
  induction l using List.reverseRecOn with
  | nil => simp
  | append_singleton l i ih =>
    simp only [List.foldl_append, List.foldl_cons, List.foldl_nil, setBit_getLsbD, ih]
    have uniq : ∀ {a b : Fin 16}, (f a).val = j → (f b).val = j → a = b := fun ha hb =>
      hf (Fin.ext (ha.trans hb.symm))
    by_cases hi : (f i).val = j
    · have hex : ∃ a ∈ l ++ [i], (f a).val = j := ⟨i, by simp, hi⟩
      rw [if_pos hi.symm, dif_pos hex]
      exact congrArg g (uniq hi hex.choose_spec.2)
    · rw [if_neg (fun h => hi h.symm)]
      by_cases hl : ∃ a ∈ l, (f a).val = j
      · have hex : ∃ a ∈ l ++ [i], (f a).val = j := by
          obtain ⟨a, ha, he⟩ := hl
          exact ⟨a, by simp [ha], he⟩
        rw [dif_pos hl, dif_pos hex]
        exact congrArg g (uniq hl.choose_spec.2 hex.choose_spec.2)
      · have hex : ¬∃ a ∈ l ++ [i], (f a).val = j := by
          rintro ⟨a, ha, he⟩
          rcases List.mem_append.mp ha with h | h
          · exact hl ⟨a, h, he⟩
          · rw [List.mem_singleton.mp h] at he; exact hi he
        rw [dif_neg hl, dif_neg hex]

theorem mem_bitIndices (i : Fin 16) : i ∈ bitIndices := by revert i; decide

theorem injective_of_bijective {cfg : Cfg} (h : cfg.bijective) :
    Function.Injective fun i : Fin 16 => cfg.bitOrderMap[i] := fun i j hij => h i j hij

/-- `VEC[BitOrderMap[i]] = a[i]` after the fill of R91. -/
theorem fillVec_getLsbD {cfg : Cfg} (h : cfg.bijective) (a vec : Addr) (i : Fin 16) :
    (fillVec cfg a vec).getLsbD cfg.bitOrderMap[i].val = a.getLsbD i.val := by
  have key := foldl_setBit_getLsbD (fun i => cfg.bitOrderMap[i]) (fun i => a.getLsbD i.val)
    (injective_of_bijective h) vec cfg.bitOrderMap[i].val bitIndices
  have hex : ∃ a ∈ bitIndices, (cfg.bitOrderMap[a]).val = cfg.bitOrderMap[i].val := ⟨i, mem_bitIndices i, rfl⟩
  rw [fillVec, key, dif_pos hex]
  rw [h _ _ (Fin.ext hex.choose_spec.2)]

/-- The fill of R91 does not depend on what `VEC` held: "all 16 slots are written before any is read" (R27). -/
theorem fillVec_eq_serOf {cfg : Cfg} (h : cfg.bijective) (a vec : Addr) : fillVec cfg a vec = serOf cfg a := by
  apply BitVec.eq_of_getLsbD_eq
  intro j hj
  obtain ⟨i, hi⟩ := (Finite.injective_iff_surjective.mp (injective_of_bijective h)) ⟨j, hj⟩
  have hv : cfg.bitOrderMap[i].val = j := congrArg Fin.val hi
  rw [← hv, serOf, fillVec_getLsbD h, fillVec_getLsbD h]

/-- `Ser(a)[BitOrderMap[i]] = a[i]` (R58, R93). -/
theorem serOf_getLsbD {cfg : Cfg} (h : cfg.bijective) (a : Addr) (i : Fin 16) :
    (serOf cfg a).getLsbD cfg.bitOrderMap[i].val = a.getLsbD i.val := fillVec_getLsbD h a 0 i

/-- `Deser(v)[i] = v[BitOrderMap[i]]` (R58, R93). -/
theorem deserOf_getLsbD (cfg : Cfg) (v : Addr) (i : Fin 16) :
    (deserOf cfg v).getLsbD i.val = v.getLsbD cfg.bitOrderMap[i].val := by
  have key := foldl_setBit_getLsbD (fun i => i) (fun i => v.getLsbD cfg.bitOrderMap[i].val) (fun _ _ h => h) 0 i.val
    bitIndices
  have hex : ∃ a ∈ bitIndices, a.val = i.val := ⟨i, mem_bitIndices i, rfl⟩
  rw [deserOf, key, dif_pos hex]
  rw [Fin.ext hex.choose_spec.2]

end Sys2Proof.Machine
end

