-- ==== Sys2Proof/Laws/Memory.lean ====
section
/-! SUPPORT. The device's cells: a read after a write, equality of canonical memories, and that every operation keeps the
canonical form. -/

namespace Sys2Proof.Machine

theorem memWfFrom_cons {size lo a : Nat} {v : Word} {m : Memory} :
    memWfFrom size lo ((a, v) :: m) = true ↔
      lo ≤ a ∧ a < size ∧ v ≠ erasedValue ∧ memWfFrom size (a + 1) m = true := by
  simp [memWfFrom, and_assoc]

/-- Raising nothing: a canonical list stays canonical from a lower start. -/
theorem memWfFrom_mono {size lo lo' : Nat} {m : Memory} (h : memWfFrom size lo m = true) (hle : lo' ≤ lo) :
    memWfFrom size lo' m = true := by
  cases m with
  | nil => rfl
  | cons c m =>
    obtain ⟨b, x⟩ := c
    rw [memWfFrom_cons] at h ⊢
    exact ⟨by omega, h.2⟩

/-- Below the first listed address everything reads the erased value. -/
theorem memRead_below {size : Nat} {m : Memory} {lo a : Nat} (h : memWfFrom size lo m = true) (ha : a < lo) :
    memRead m a = erasedValue := by
  induction m generalizing lo with
  | nil => rfl
  | cons c m ih =>
    obtain ⟨b, x⟩ := c
    rw [memWfFrom_cons] at h
    rw [memRead, if_neg (by omega)]
    exact ih h.2.2.2 (by omega)

/-- An address the device does not have is not listed. -/
theorem memRead_outside {size : Nat} {m : Memory} {lo a : Nat} (h : memWfFrom size lo m = true) (ha : size ≤ a) :
    memRead m a = erasedValue := by
  induction m generalizing lo with
  | nil => rfl
  | cons c m ih =>
    obtain ⟨b, x⟩ := c
    rw [memWfFrom_cons] at h
    rw [memRead, if_neg (by omega)]
    exact ih h.2.2.2

/-- What every read gives after a write. -/
theorem memRead_memWrite {size lo : Nat} {m : Memory} (h : memWfFrom size lo m = true) (a b : Nat) (v : Word) :
    memRead (memWrite m a v) b = if b = a then v else memRead m b := by
  induction m generalizing lo with
  | nil => by_cases hv : v = erasedValue <;> simp [memWrite, memRead, hv]
  | cons c m ih =>
    obtain ⟨k, x⟩ := c
    rw [memWfFrom_cons] at h
    obtain ⟨h1, h2, h3, h4⟩ := h
    unfold memWrite
    by_cases hlt : a < k
    · rw [if_pos hlt]
      by_cases hv : v = erasedValue
      · rw [if_pos hv]
        by_cases hb : b = a
        · rw [if_pos hb, hv, hb, memRead, if_neg (by omega)]
          exact memRead_below h4 (by omega)
        · rw [if_neg hb]
      · rw [if_neg hv]; rfl
    · rw [if_neg hlt]
      by_cases heq : a = k
      · subst heq
        rw [if_pos rfl]
        by_cases hv : v = erasedValue
        · rw [if_pos hv]
          by_cases hb : b = a
          · rw [if_pos hb, hv, hb]
            exact memRead_below h4 (by omega)
          · rw [if_neg hb, memRead, if_neg hb]
        · rw [if_neg hv]
          by_cases hb : b = a
          · simp [memRead, hb]
          · simp [memRead, hb]
      · rw [if_neg heq]
        simp only [memRead, ih h4]
        by_cases hb : b = k
        · subst hb
          rw [if_pos rfl, if_neg (fun h => heq h.symm), if_pos rfl]
        · simp [hb]

/-- A write inside the device keeps the canonical form. -/
theorem memWrite_wfFrom {size lo : Nat} {m : Memory} (h : memWfFrom size lo m = true) {a : Nat} (v : Word)
    (hlo : lo ≤ a) (ha : a < size) : memWfFrom size lo (memWrite m a v) = true := by
  induction m generalizing lo with
  | nil =>
    by_cases hv : v = erasedValue
    · simp [memWrite, memWfFrom, hv]
    · rw [memWrite, if_neg hv, memWfFrom_cons]
      exact ⟨hlo, ha, hv, rfl⟩
  | cons c m ih =>
    obtain ⟨k, x⟩ := c
    have hc := h
    rw [memWfFrom_cons] at h
    obtain ⟨h1, h2, h3, h4⟩ := h
    unfold memWrite
    split_ifs with g1 g2 g3 g4
    · exact hc
    · rw [memWfFrom_cons]
      exact ⟨hlo, ha, g2, memWfFrom_cons.mpr ⟨by omega, h2, h3, h4⟩⟩
    · exact memWfFrom_mono h4 (by omega)
    · rw [memWfFrom_cons]
      exact ⟨h1, h2, g4, h4⟩
    · rw [memWfFrom_cons]
      exact ⟨h1, h2, h3, ih h4 (by omega)⟩

/-- `MemWrite` keeps the canonical form (log entry 3). -/
theorem memWrite_wf {size : Nat} {m : Memory} (h : Memory.wf size m = true) {a : Nat} (v : Word) (ha : a < size) :
    Memory.wf size (memWrite m a v) = true := memWrite_wfFrom h v (Nat.zero_le a) ha

/-- A read after a write, on a canonical memory. -/
theorem memRead_memWrite_of_wf {size : Nat} {m : Memory} (h : Memory.wf size m = true) (a b : Nat) (v : Word) :
    memRead (memWrite m a v) b = if b = a then v else memRead m b := memRead_memWrite h a b v

/-- Any list of cells gives a canonical array (R66). -/
theorem arrayOf_wf (size : Nat) (cells : List Host.Cell) : Memory.wf size (arrayOf size cells) = true := by
  have key : ∀ (cells : List Host.Cell) (m : Memory), Memory.wf size m = true →
      Memory.wf size (cells.foldl (fun m c => if c.1 < size then memWrite m c.1 c.2 else m) m) = true := by
    intro cells
    induction cells with
    | nil => exact fun _ h => h
    | cons c cells ih =>
      intro m h
      refine ih _ ?_
      by_cases hc : c.1 < size
      · simpa only [if_pos hc] using memWrite_wf h c.2 hc
      · simpa only [if_neg hc] using h
  exact key cells [] rfl

/-- The array an erase pulse leaves is canonical (R66). -/
theorem erasedArray_wf (size : Nat) (x : EraseDraw) : Memory.wf size (erasedArray size x) = true := by
  cases x with
  | success => rfl
  | failure cells => exact arrayOf_wf size cells

/-- Equal reads, equal data: two canonical memories that read alike are equal. -/
theorem memory_ext {size : Nat} {m m' : Memory} {lo : Nat} (h : memWfFrom size lo m = true)
    (h' : memWfFrom size lo m' = true) (heq : ∀ a, memRead m a = memRead m' a) : m = m' := by
  induction m generalizing lo m' with
  | nil =>
    cases m' with
    | nil => rfl
    | cons c m' =>
      obtain ⟨b, x⟩ := c
      rw [memWfFrom_cons] at h'
      exact absurd (by simpa [memRead] using (heq b).symm) h'.2.2.1
  | cons c m ih =>
    obtain ⟨b, x⟩ := c
    have hb := memWfFrom_cons.mp h
    cases m' with
    | nil => exact absurd (by simpa [memRead] using heq b) hb.2.2.1
    | cons c' m' =>
      obtain ⟨b', x'⟩ := c'
      have hb' := memWfFrom_cons.mp h'
      have hbb : b = b' := by
        rcases Nat.lt_trichotomy b b' with hlt | he | hgt
        · have hr := heq b
          rw [memRead, if_pos rfl, memRead, if_neg (by omega), memRead_below hb'.2.2.2 (by omega)] at hr
          exact absurd hr hb.2.2.1
        · exact he
        · have hr := heq b'
          rw [memRead, if_neg (by omega), memRead_below hb.2.2.2 (by omega), memRead, if_pos rfl] at hr
          exact absurd hr.symm hb'.2.2.1
      subst hbb
      have hx : x = x' := by simpa [memRead] using heq b
      subst hx
      refine congrArg _ (ih hb.2.2.2 hb'.2.2.2 fun a => ?_)
      have hr := heq a
      by_cases ha : a = b
      · rw [ha, memRead_below hb.2.2.2 (by omega), memRead_below hb'.2.2.2 (by omega)]
      · simpa [memRead, ha] using hr

end Sys2Proof.Machine
end

