-- ==== Sys2Proof/Laws/State.lean ====
section
/-! SUPPORT. One lemma per field for each operation that updates the state by a record, true by definition, so that no later
proof unfolds a record update; and one equation for each pin that nothing reacts to. -/

namespace Sys2Proof.Machine

variable (s : State)

/-! ### emit -/

@[simp] theorem emit_cs (x : Event) : (emit x s).cs = s.cs := rfl
@[simp] theorem emit_ser (x : Event) : (emit x s).ser = s.ser := rfl
@[simp] theorem emit_sclk (x : Event) : (emit x s).sclk = s.sclk := rfl
@[simp] theorem emit_rclk (x : Event) : (emit x s).rclk = s.rclk := rfl
@[simp] theorem emit_mr (x : Event) : (emit x s).mr = s.mr := rfl
@[simp] theorem emit_sroe (x : Event) : (emit x s).sroe = s.sroe := rfl
@[simp] theorem emit_csel (x : Event) : (emit x s).csel = s.csel := rfl
@[simp] theorem emit_oel (x : Event) : (emit x s).oel = s.oel := rfl
@[simp] theorem emit_oeh (x : Event) : (emit x s).oeh = s.oeh := rfl
@[simp] theorem emit_aov (x : Event) : (emit x s).aov = s.aov := rfl
@[simp] theorem emit_ddir (x : Event) : (emit x s).ddir = s.ddir := rfl
@[simp] theorem emit_d (x : Event) : (emit x s).d = s.d := rfl
@[simp] theorem emit_dout (x : Event) : (emit x s).dout = s.dout := rfl
@[simp] theorem emit_vec (x : Event) : (emit x s).vec = s.vec := rfl
@[simp] theorem emit_shiftReg (x : Event) : (emit x s).shiftReg = s.shiftReg := rfl
@[simp] theorem emit_latch (x : Event) : (emit x s).latch = s.latch := rfl
@[simp] theorem emit_erase (x : Event) : (emit x s).erase = s.erase := rfl
@[simp] theorem emit_status (x : Event) : (emit x s).status = s.status := rfl
@[simp] theorem emit_raddr (x : Event) : (emit x s).raddr = s.raddr := rfl
@[simp] theorem emit_rdata (x : Event) : (emit x s).rdata = s.rdata := rfl
@[simp] theorem emit_ropc (x : Event) : (emit x s).ropc = s.ropc := rfl
@[simp] theorem emit_busy (x : Event) : (emit x s).busy = s.busy := rfl
@[simp] theorem emit_mem (x : Event) : (emit x s).mem = s.mem := rfl
@[simp] theorem emit_trace (x : Event) : (emit x s).trace = s.trace ++ [x] := rfl
@[simp] theorem emit_fault (x : Event) : (emit x s).fault = s.fault := rfl
@[simp] theorem emit_cfg (x : Event) : (emit x s).cfg = s.cfg := rfl
@[simp] theorem emit_commands (x : Event) : (emit x s).commands = s.commands := rfl
@[simp] theorem emit_cancelIn (x : Event) : (emit x s).cancelIn = s.cancelIn := rfl
@[simp] theorem emit_eraseScript (x : Event) : (emit x s).eraseScript = s.eraseScript := rfl
@[simp] theorem emit_draws (x : Event) : (emit x s).draws = s.draws := rfl

/-! ### takeDraw -/

@[simp] theorem takeDraw_cs : (takeDraw s).cs = s.cs := rfl
@[simp] theorem takeDraw_ser : (takeDraw s).ser = s.ser := rfl
@[simp] theorem takeDraw_sclk : (takeDraw s).sclk = s.sclk := rfl
@[simp] theorem takeDraw_rclk : (takeDraw s).rclk = s.rclk := rfl
@[simp] theorem takeDraw_mr : (takeDraw s).mr = s.mr := rfl
@[simp] theorem takeDraw_sroe : (takeDraw s).sroe = s.sroe := rfl
@[simp] theorem takeDraw_csel : (takeDraw s).csel = s.csel := rfl
@[simp] theorem takeDraw_oel : (takeDraw s).oel = s.oel := rfl
@[simp] theorem takeDraw_oeh : (takeDraw s).oeh = s.oeh := rfl
@[simp] theorem takeDraw_aov : (takeDraw s).aov = s.aov := rfl
@[simp] theorem takeDraw_ddir : (takeDraw s).ddir = s.ddir := rfl
@[simp] theorem takeDraw_d : (takeDraw s).d = s.d := rfl
@[simp] theorem takeDraw_dout : (takeDraw s).dout = s.dout := rfl
@[simp] theorem takeDraw_vec : (takeDraw s).vec = s.vec := rfl
@[simp] theorem takeDraw_shiftReg : (takeDraw s).shiftReg = s.shiftReg := rfl
@[simp] theorem takeDraw_latch : (takeDraw s).latch = s.latch := rfl
@[simp] theorem takeDraw_erase : (takeDraw s).erase = s.erase := rfl
@[simp] theorem takeDraw_status : (takeDraw s).status = s.status := rfl
@[simp] theorem takeDraw_raddr : (takeDraw s).raddr = s.raddr := rfl
@[simp] theorem takeDraw_rdata : (takeDraw s).rdata = s.rdata := rfl
@[simp] theorem takeDraw_ropc : (takeDraw s).ropc = s.ropc := rfl
@[simp] theorem takeDraw_busy : (takeDraw s).busy = s.busy := rfl
@[simp] theorem takeDraw_mem : (takeDraw s).mem = s.mem := rfl
@[simp] theorem takeDraw_trace : (takeDraw s).trace = s.trace := rfl
@[simp] theorem takeDraw_fault : (takeDraw s).fault = s.fault := rfl
@[simp] theorem takeDraw_cfg : (takeDraw s).cfg = s.cfg := rfl
@[simp] theorem takeDraw_commands : (takeDraw s).commands = s.commands := rfl
@[simp] theorem takeDraw_cancelIn : (takeDraw s).cancelIn = s.cancelIn := rfl
@[simp] theorem takeDraw_eraseScript : (takeDraw s).eraseScript = s.eraseScript := rfl
@[simp] theorem takeDraw_draws : (takeDraw s).draws = s.draws + 1 := rfl

/-! ### finish -/

@[simp] theorem finish_cs (opc : BitVec 4) (code : Status) (addr : Addr) (data : Word) : (finish opc code addr data s).cs = s.cs := rfl
@[simp] theorem finish_ser (opc : BitVec 4) (code : Status) (addr : Addr) (data : Word) : (finish opc code addr data s).ser = s.ser := rfl
@[simp] theorem finish_sclk (opc : BitVec 4) (code : Status) (addr : Addr) (data : Word) : (finish opc code addr data s).sclk = s.sclk := rfl
@[simp] theorem finish_rclk (opc : BitVec 4) (code : Status) (addr : Addr) (data : Word) : (finish opc code addr data s).rclk = s.rclk := rfl
@[simp] theorem finish_mr (opc : BitVec 4) (code : Status) (addr : Addr) (data : Word) : (finish opc code addr data s).mr = s.mr := rfl
@[simp] theorem finish_sroe (opc : BitVec 4) (code : Status) (addr : Addr) (data : Word) : (finish opc code addr data s).sroe = s.sroe := rfl
@[simp] theorem finish_csel (opc : BitVec 4) (code : Status) (addr : Addr) (data : Word) : (finish opc code addr data s).csel = s.csel := rfl
@[simp] theorem finish_oel (opc : BitVec 4) (code : Status) (addr : Addr) (data : Word) : (finish opc code addr data s).oel = s.oel := rfl
@[simp] theorem finish_oeh (opc : BitVec 4) (code : Status) (addr : Addr) (data : Word) : (finish opc code addr data s).oeh = s.oeh := rfl
@[simp] theorem finish_aov (opc : BitVec 4) (code : Status) (addr : Addr) (data : Word) : (finish opc code addr data s).aov = s.aov := rfl
@[simp] theorem finish_ddir (opc : BitVec 4) (code : Status) (addr : Addr) (data : Word) : (finish opc code addr data s).ddir = s.ddir := rfl
@[simp] theorem finish_d (opc : BitVec 4) (code : Status) (addr : Addr) (data : Word) : (finish opc code addr data s).d = s.d := rfl
@[simp] theorem finish_dout (opc : BitVec 4) (code : Status) (addr : Addr) (data : Word) : (finish opc code addr data s).dout = s.dout := rfl
@[simp] theorem finish_vec (opc : BitVec 4) (code : Status) (addr : Addr) (data : Word) : (finish opc code addr data s).vec = s.vec := rfl
@[simp] theorem finish_shiftReg (opc : BitVec 4) (code : Status) (addr : Addr) (data : Word) : (finish opc code addr data s).shiftReg = s.shiftReg := rfl
@[simp] theorem finish_latch (opc : BitVec 4) (code : Status) (addr : Addr) (data : Word) : (finish opc code addr data s).latch = s.latch := rfl
@[simp] theorem finish_erase (opc : BitVec 4) (code : Status) (addr : Addr) (data : Word) : (finish opc code addr data s).erase = s.erase := rfl
@[simp] theorem finish_status (opc : BitVec 4) (code : Status) (addr : Addr) (data : Word) : (finish opc code addr data s).status = code := rfl
@[simp] theorem finish_raddr (opc : BitVec 4) (code : Status) (addr : Addr) (data : Word) : (finish opc code addr data s).raddr = addr := rfl
@[simp] theorem finish_rdata (opc : BitVec 4) (code : Status) (addr : Addr) (data : Word) : (finish opc code addr data s).rdata = data := rfl
@[simp] theorem finish_ropc (opc : BitVec 4) (code : Status) (addr : Addr) (data : Word) : (finish opc code addr data s).ropc = opc := rfl
@[simp] theorem finish_busy (opc : BitVec 4) (code : Status) (addr : Addr) (data : Word) : (finish opc code addr data s).busy = false := rfl
@[simp] theorem finish_mem (opc : BitVec 4) (code : Status) (addr : Addr) (data : Word) : (finish opc code addr data s).mem = s.mem := rfl
@[simp] theorem finish_trace (opc : BitVec 4) (code : Status) (addr : Addr) (data : Word) : (finish opc code addr data s).trace = s.trace := rfl
@[simp] theorem finish_fault (opc : BitVec 4) (code : Status) (addr : Addr) (data : Word) : (finish opc code addr data s).fault = s.fault := rfl
@[simp] theorem finish_cfg (opc : BitVec 4) (code : Status) (addr : Addr) (data : Word) : (finish opc code addr data s).cfg = s.cfg := rfl
@[simp] theorem finish_commands (opc : BitVec 4) (code : Status) (addr : Addr) (data : Word) : (finish opc code addr data s).commands = s.commands := rfl
@[simp] theorem finish_cancelIn (opc : BitVec 4) (code : Status) (addr : Addr) (data : Word) : (finish opc code addr data s).cancelIn = s.cancelIn := rfl
@[simp] theorem finish_eraseScript (opc : BitVec 4) (code : Status) (addr : Addr) (data : Word) : (finish opc code addr data s).eraseScript = s.eraseScript := rfl
@[simp] theorem finish_draws (opc : BitVec 4) (code : Status) (addr : Addr) (data : Word) : (finish opc code addr data s).draws = s.draws := rfl

/-! ### setRecord -/

@[simp] theorem setRecord_cs (r : EraseRecord) : (setRecord r s).cs = s.cs := rfl
@[simp] theorem setRecord_ser (r : EraseRecord) : (setRecord r s).ser = s.ser := rfl
@[simp] theorem setRecord_sclk (r : EraseRecord) : (setRecord r s).sclk = s.sclk := rfl
@[simp] theorem setRecord_rclk (r : EraseRecord) : (setRecord r s).rclk = s.rclk := rfl
@[simp] theorem setRecord_mr (r : EraseRecord) : (setRecord r s).mr = s.mr := rfl
@[simp] theorem setRecord_sroe (r : EraseRecord) : (setRecord r s).sroe = s.sroe := rfl
@[simp] theorem setRecord_csel (r : EraseRecord) : (setRecord r s).csel = s.csel := rfl
@[simp] theorem setRecord_oel (r : EraseRecord) : (setRecord r s).oel = s.oel := rfl
@[simp] theorem setRecord_oeh (r : EraseRecord) : (setRecord r s).oeh = s.oeh := rfl
@[simp] theorem setRecord_aov (r : EraseRecord) : (setRecord r s).aov = s.aov := rfl
@[simp] theorem setRecord_ddir (r : EraseRecord) : (setRecord r s).ddir = s.ddir := rfl
@[simp] theorem setRecord_d (r : EraseRecord) : (setRecord r s).d = s.d := rfl
@[simp] theorem setRecord_dout (r : EraseRecord) : (setRecord r s).dout = s.dout := rfl
@[simp] theorem setRecord_vec (r : EraseRecord) : (setRecord r s).vec = s.vec := rfl
@[simp] theorem setRecord_shiftReg (r : EraseRecord) : (setRecord r s).shiftReg = s.shiftReg := rfl
@[simp] theorem setRecord_latch (r : EraseRecord) : (setRecord r s).latch = s.latch := rfl
@[simp] theorem setRecord_erase (r : EraseRecord) : (setRecord r s).erase = some r := rfl
@[simp] theorem setRecord_status (r : EraseRecord) : (setRecord r s).status = s.status := rfl
@[simp] theorem setRecord_raddr (r : EraseRecord) : (setRecord r s).raddr = s.raddr := rfl
@[simp] theorem setRecord_rdata (r : EraseRecord) : (setRecord r s).rdata = s.rdata := rfl
@[simp] theorem setRecord_ropc (r : EraseRecord) : (setRecord r s).ropc = s.ropc := rfl
@[simp] theorem setRecord_busy (r : EraseRecord) : (setRecord r s).busy = s.busy := rfl
@[simp] theorem setRecord_mem (r : EraseRecord) : (setRecord r s).mem = s.mem := rfl
@[simp] theorem setRecord_trace (r : EraseRecord) : (setRecord r s).trace = s.trace := rfl
@[simp] theorem setRecord_fault (r : EraseRecord) : (setRecord r s).fault = s.fault := rfl
@[simp] theorem setRecord_cfg (r : EraseRecord) : (setRecord r s).cfg = s.cfg := rfl
@[simp] theorem setRecord_commands (r : EraseRecord) : (setRecord r s).commands = s.commands := rfl
@[simp] theorem setRecord_cancelIn (r : EraseRecord) : (setRecord r s).cancelIn = s.cancelIn := rfl
@[simp] theorem setRecord_eraseScript (r : EraseRecord) : (setRecord r s).eraseScript = s.eraseScript := rfl
@[simp] theorem setRecord_draws (r : EraseRecord) : (setRecord r s).draws = s.draws := rfl

/-! ### The erase record -/

@[simp] theorem eraseRecord_setRecord (r : EraseRecord) : eraseRecord (setRecord r s) = r := rfl

theorem eraseRecord_of_erase {s t : State} (h : t.erase = s.erase) : eraseRecord t = eraseRecord s := by
  simp only [eraseRecord, h]

/-! ### The device's and the host's answers are used up: what stays -/

@[simp] theorem dropOutcome_cs : (dropOutcome s).cs = s.cs := by unfold dropOutcome; split <;> rfl
@[simp] theorem dropOutcome_ser : (dropOutcome s).ser = s.ser := by unfold dropOutcome; split <;> rfl
@[simp] theorem dropOutcome_sclk : (dropOutcome s).sclk = s.sclk := by unfold dropOutcome; split <;> rfl
@[simp] theorem dropOutcome_rclk : (dropOutcome s).rclk = s.rclk := by unfold dropOutcome; split <;> rfl
@[simp] theorem dropOutcome_mr : (dropOutcome s).mr = s.mr := by unfold dropOutcome; split <;> rfl
@[simp] theorem dropOutcome_sroe : (dropOutcome s).sroe = s.sroe := by unfold dropOutcome; split <;> rfl
@[simp] theorem dropOutcome_csel : (dropOutcome s).csel = s.csel := by unfold dropOutcome; split <;> rfl
@[simp] theorem dropOutcome_oel : (dropOutcome s).oel = s.oel := by unfold dropOutcome; split <;> rfl
@[simp] theorem dropOutcome_oeh : (dropOutcome s).oeh = s.oeh := by unfold dropOutcome; split <;> rfl
@[simp] theorem dropOutcome_aov : (dropOutcome s).aov = s.aov := by unfold dropOutcome; split <;> rfl
@[simp] theorem dropOutcome_ddir : (dropOutcome s).ddir = s.ddir := by unfold dropOutcome; split <;> rfl
@[simp] theorem dropOutcome_d : (dropOutcome s).d = s.d := by unfold dropOutcome; split <;> rfl
@[simp] theorem dropOutcome_dout : (dropOutcome s).dout = s.dout := by unfold dropOutcome; split <;> rfl
@[simp] theorem dropOutcome_vec : (dropOutcome s).vec = s.vec := by unfold dropOutcome; split <;> rfl
@[simp] theorem dropOutcome_shiftReg : (dropOutcome s).shiftReg = s.shiftReg := by unfold dropOutcome; split <;> rfl
@[simp] theorem dropOutcome_latch : (dropOutcome s).latch = s.latch := by unfold dropOutcome; split <;> rfl
@[simp] theorem dropOutcome_erase : (dropOutcome s).erase = s.erase := by unfold dropOutcome; split <;> rfl
@[simp] theorem dropOutcome_status : (dropOutcome s).status = s.status := by unfold dropOutcome; split <;> rfl
@[simp] theorem dropOutcome_raddr : (dropOutcome s).raddr = s.raddr := by unfold dropOutcome; split <;> rfl
@[simp] theorem dropOutcome_rdata : (dropOutcome s).rdata = s.rdata := by unfold dropOutcome; split <;> rfl
@[simp] theorem dropOutcome_ropc : (dropOutcome s).ropc = s.ropc := by unfold dropOutcome; split <;> rfl
@[simp] theorem dropOutcome_busy : (dropOutcome s).busy = s.busy := by unfold dropOutcome; split <;> rfl
@[simp] theorem dropOutcome_mem : (dropOutcome s).mem = s.mem := by unfold dropOutcome; split <;> rfl
@[simp] theorem dropOutcome_trace : (dropOutcome s).trace = s.trace := by unfold dropOutcome; split <;> rfl
@[simp] theorem dropOutcome_fault : (dropOutcome s).fault = s.fault := by unfold dropOutcome; split <;> rfl
@[simp] theorem dropOutcome_cfg : (dropOutcome s).cfg = s.cfg := by unfold dropOutcome; split <;> rfl
@[simp] theorem dropOutcome_commands : (dropOutcome s).commands = s.commands := by unfold dropOutcome; split <;> rfl
@[simp] theorem dropOutcome_cancelIn : (dropOutcome s).cancelIn = s.cancelIn := by unfold dropOutcome; split <;> rfl

@[simp] theorem dropAnswer_cs : (dropAnswer s).cs = s.cs := by unfold dropAnswer; split <;> rfl
@[simp] theorem dropAnswer_ser : (dropAnswer s).ser = s.ser := by unfold dropAnswer; split <;> rfl
@[simp] theorem dropAnswer_sclk : (dropAnswer s).sclk = s.sclk := by unfold dropAnswer; split <;> rfl
@[simp] theorem dropAnswer_rclk : (dropAnswer s).rclk = s.rclk := by unfold dropAnswer; split <;> rfl
@[simp] theorem dropAnswer_mr : (dropAnswer s).mr = s.mr := by unfold dropAnswer; split <;> rfl
@[simp] theorem dropAnswer_sroe : (dropAnswer s).sroe = s.sroe := by unfold dropAnswer; split <;> rfl
@[simp] theorem dropAnswer_csel : (dropAnswer s).csel = s.csel := by unfold dropAnswer; split <;> rfl
@[simp] theorem dropAnswer_oel : (dropAnswer s).oel = s.oel := by unfold dropAnswer; split <;> rfl
@[simp] theorem dropAnswer_oeh : (dropAnswer s).oeh = s.oeh := by unfold dropAnswer; split <;> rfl
@[simp] theorem dropAnswer_aov : (dropAnswer s).aov = s.aov := by unfold dropAnswer; split <;> rfl
@[simp] theorem dropAnswer_ddir : (dropAnswer s).ddir = s.ddir := by unfold dropAnswer; split <;> rfl
@[simp] theorem dropAnswer_d : (dropAnswer s).d = s.d := by unfold dropAnswer; split <;> rfl
@[simp] theorem dropAnswer_dout : (dropAnswer s).dout = s.dout := by unfold dropAnswer; split <;> rfl
@[simp] theorem dropAnswer_vec : (dropAnswer s).vec = s.vec := by unfold dropAnswer; split <;> rfl
@[simp] theorem dropAnswer_shiftReg : (dropAnswer s).shiftReg = s.shiftReg := by unfold dropAnswer; split <;> rfl
@[simp] theorem dropAnswer_latch : (dropAnswer s).latch = s.latch := by unfold dropAnswer; split <;> rfl
@[simp] theorem dropAnswer_erase : (dropAnswer s).erase = s.erase := by unfold dropAnswer; split <;> rfl
@[simp] theorem dropAnswer_status : (dropAnswer s).status = s.status := by unfold dropAnswer; split <;> rfl
@[simp] theorem dropAnswer_raddr : (dropAnswer s).raddr = s.raddr := by unfold dropAnswer; split <;> rfl
@[simp] theorem dropAnswer_rdata : (dropAnswer s).rdata = s.rdata := by unfold dropAnswer; split <;> rfl
@[simp] theorem dropAnswer_ropc : (dropAnswer s).ropc = s.ropc := by unfold dropAnswer; split <;> rfl
@[simp] theorem dropAnswer_busy : (dropAnswer s).busy = s.busy := by unfold dropAnswer; split <;> rfl
@[simp] theorem dropAnswer_mem : (dropAnswer s).mem = s.mem := by unfold dropAnswer; split <;> rfl
@[simp] theorem dropAnswer_trace : (dropAnswer s).trace = s.trace := by unfold dropAnswer; split <;> rfl
@[simp] theorem dropAnswer_fault : (dropAnswer s).fault = s.fault := by unfold dropAnswer; split <;> rfl
@[simp] theorem dropAnswer_cfg : (dropAnswer s).cfg = s.cfg := by unfold dropAnswer; split <;> rfl
@[simp] theorem dropAnswer_commands : (dropAnswer s).commands = s.commands := by unfold dropAnswer; split <;> rfl
@[simp] theorem dropAnswer_eraseScript : (dropAnswer s).eraseScript = s.eraseScript := by unfold dropAnswer; split <;> rfl

/-! ### Primitives that only append an event -/

@[simp] theorem delay_eq (t : DelayName) : delay t s = emit (.delay t) s := rfl
@[simp] theorem report_eq (x : Report) : report x s = emit (.report x) s := rfl

/-! ### Pins nothing reacts to -/

@[simp] theorem pin_sroe (v : Switch) : pin (.sroe v) s = emit (.pin (.sroe v)) { s with sroe := v } := rfl
@[simp] theorem pin_oel (v : LogicDrive) : pin (.oel v) s = emit (.pin (.oel v)) { s with oel := v } := rfl
@[simp] theorem pin_oeh (v : Switch) : pin (.oeh v) s = emit (.pin (.oeh v)) { s with oeh := v } := rfl
@[simp] theorem pin_aov (v : Switch) : pin (.aov v) s = emit (.pin (.aov v)) { s with aov := v } := rfl
@[simp] theorem pin_ddir (v : Direction) : pin (.ddir v) s = emit (.pin (.ddir v)) { s with ddir := v } := rfl
@[simp] theorem pin_d (w : Word) : pin (.d w) s = emit (.pin (.d w)) { s with d := some w } := rfl

/-- Asserting chip select starts a pulse and changes nothing else (R125). -/
@[simp] theorem pin_cs_asserted : pin (.cs .asserted) s = emit (.pin (.cs .asserted)) { s with csel := .asserted } := rfl

/-- Deasserting a deselected device ends no pulse (R125). -/
theorem pin_cs_deasserted_idle {s : State} (h : s.csel = .deasserted) :
    pin (.cs .deasserted) s = emit (.pin (.cs .deasserted)) { s with csel := .deasserted } := by
  simp [pin, selectReaction, h]

/-- Deasserting chip select with the net not at high voltage ends no pulse (R66). -/
theorem pin_cs_deasserted_low {s : State} (h : outputEnableMode s ≠ some .highVoltage) :
    pin (.cs .deasserted) s = emit (.pin (.cs .deasserted)) { s with csel := .deasserted } := by
  simp [pin, selectReaction, endOfPulse, h]

/-- Deasserting chip select under high voltage with the override off is a program pulse (R65). -/
theorem pin_cs_deasserted_program {s : State} (hc : s.csel = .asserted)
    (hm : outputEnableMode s = some .highVoltage) (ha : s.aov = .off) :
    pin (.cs .deasserted) s = emit (.pin (.cs .deasserted)) { programPulse s with csel := .deasserted } := by
  simp [pin, selectReaction, endOfPulse, hc, hm, ha]

/-- Deasserting chip select under high voltage with the override on is an erase pulse (R66). -/
theorem pin_cs_deasserted_erase {s : State} (hc : s.csel = .asserted)
    (hm : outputEnableMode s = some .highVoltage) (ha : s.aov = .on) :
    pin (.cs .deasserted) s = emit (.pin (.cs .deasserted)) { erasePulse s with csel := .deasserted } := by
  simp [pin, selectReaction, endOfPulse, hc, hm, ha]

end Sys2Proof.Machine
end

