-- ==== Sys2Proof/Laws/Serializer.lean ====
section
/-! SUPPORT. What set_address does (40_address_serializer.md R91, R93, R96), once: on idle serializer lines it leaves
`VEC = S = L = Ser(a)`, appends its fifty events and changes nothing else. -/

namespace Sys2Proof.Machine

/-- The shift stages after the slots below `k` of `v` have been sent, highest first. -/
def shiftedIn : Nat → Addr → Addr → Addr
  | 0, _, r => r
  | k + 1, v, r => shiftedIn k v (shiftIn r (v.getLsbD k))

theorem shiftedIn_getLsbD (k : Nat) (v r : Addr) (j : Nat) (hj : j < 16) :
    (shiftedIn k v r).getLsbD j = if j < k then v.getLsbD j else r.getLsbD (j - k) := by
  induction k generalizing r with
  | zero => simp [shiftedIn]
  | succ k ih =>
    rw [shiftedIn, ih]
    by_cases h1 : j < k
    · rw [if_pos h1, if_pos (by omega)]
    · rw [if_neg h1, shiftIn_getLsbD _ _ _ (by omega)]
      by_cases h2 : j = k
      · subst h2; simp
      · rw [if_neg (by omega), if_neg (by omega)]
        congr 1

/-- After sixteen clocks the previous contents are out and `S` holds the slots sent (R91, R93). -/
theorem shiftedIn_sixteen (v r : Addr) : shiftedIn 16 v r = v := by
  apply BitVec.eq_of_getLsbD_eq
  intro j hj
  rw [shiftedIn_getLsbD _ _ _ _ hj, if_pos hj]

theorem shiftEvents_length (k : Nat) (v : Addr) : (shiftEvents k v).length = 3 * k := by
  induction k with
  | zero => rfl
  | succ k ih => simp only [shiftEvents, List.length_append, ih, List.length_cons, List.length_nil]; omega

/-- set_address appends exactly fifty events (R91). -/
theorem addressEvents_length (v : Addr) : (addressEvents v).length = 50 := by
  simp [addressEvents, shiftEvents_length]

/-- One bit on idle lines (R91, R96): `S <- {S[14:0], b}` and three events. -/
theorem shiftBit_eq (b : Bool) {s : State} (h : SerialIdle s) :
    shiftBit b s =
      { s with
        ser := b
        shiftReg := shiftIn s.shiftReg b
        trace := s.trace ++ [.pin (.ser b), .pin (.sclk true), .pin (.sclk false)] } := by
  obtain ⟨h1, h2, h3⟩ := h
  cases s
  simp only at h1 h2 h3
  subst h1 h2 h3
  simp [shiftBit, pin, serReaction, clockReaction, emit]

/-- The shift of R91: the slots below `k`, highest first. Nothing but `SER`, `S` and the trace changes: in particular not
`L` (R56 (a)). -/
theorem shiftOut_eq (k : Nat) {s : State} (h : SerialIdle s) :
    shiftOut k s =
      { s with
        ser := if k = 0 then s.ser else s.vec.getLsbD 0
        shiftReg := shiftedIn k s.vec s.shiftReg
        trace := s.trace ++ shiftEvents k s.vec } := by
  induction k generalizing s with
  | zero => simp [shiftOut, shiftedIn, shiftEvents]
  | succ k ih =>
    rw [shiftOut, shiftBit_eq _ h, ih (s := { s with
        ser := s.vec.getLsbD k
        shiftReg := shiftIn s.shiftReg (s.vec.getLsbD k)
        trace := s.trace ++ [.pin (.ser (s.vec.getLsbD k)), .pin (.sclk true), .pin (.sclk false)] }) h]
    cases k <;> simp [shiftedIn, shiftEvents]

theorem pulseLatch_eq {s : State} (h : SerialIdle s) :
    pulseLatch s =
      { s with latch := s.shiftReg, trace := s.trace ++ [.pin (.rclk true), .pin (.rclk false)] } := by
  obtain ⟨h1, h2, h3⟩ := h
  cases s
  simp only at h1 h2 h3
  subst h1 h2 h3
  simp [pulseLatch, pin, latchReaction, emit]

/-- The state after set_address on idle lines (R91, R93, R96). -/
def addressed (addr : Nat) (s : State) : State :=
  { s with
    ser := (serOf s.cfg (BitVec.ofNat 16 addr)).getLsbD 0
    vec := serOf s.cfg (BitVec.ofNat 16 addr)
    shiftReg := serOf s.cfg (BitVec.ofNat 16 addr)
    latch := serOf s.cfg (BitVec.ofNat 16 addr)
    trace := s.trace ++ addressEvents (serOf s.cfg (BitVec.ofNat 16 addr)) }

/-- What set_address does on idle lines, all of it (R91, R93, R96). -/
theorem setAddress_eq (addr : Nat) {s : State} (hb : s.cfg.bijective) (h : SerialIdle s) :
    setAddress addr s = addressed addr s := by
  have hm : s.mr ≠ .asserted := by rw [h.2.2]; exact fun h => nomatch h
  simp only [setAddress, if_neg hm]
  rw [shiftOut_eq 16 (s := { s with vec := fillVec s.cfg (BitVec.ofNat 16 addr) s.vec }) h]
  rw [pulseLatch_eq (by exact h)]
  simp [shiftedIn_sixteen, fillVec_eq_serOf hb, addressEvents, addressed]

/-- The device sees the address that was set (R58, R93): the permutation and the wiring cancel. -/
theorem deserOf_serOf {cfg : Cfg} (h : cfg.bijective) (a : Addr) : deserOf cfg (serOf cfg a) = a := by
  apply BitVec.eq_of_getLsbD_eq
  intro j hj
  have := deserOf_getLsbD cfg (serOf cfg a) ⟨j, hj⟩
  rw [serOf_getLsbD h] at this
  exact this

/-- A valid address reaches the device unchanged (R54, R62). -/
theorem deserOf_serOf_toNat {cfg : Cfg} (h : cfg.wf) {addr : Nat} (ha : addr < cfg.memorySize) :
    (deserOf cfg (serOf cfg (BitVec.ofNat 16 addr))).toNat % cfg.memorySize = addr := by
  have := h.2.1
  rw [deserOf_serOf h.2.2, BitVec.toNat_ofNat, Nat.mod_eq_of_lt (show addr < 2 ^ 16 by omega), Nat.mod_eq_of_lt ha]

end Sys2Proof.Machine
end

