-- ==== Sys2Proof/Laws/Cycle.lean ====
section
/-! SUPPORT. What acceptance and the precondition check do (10_state.md R36, 44_cycle_state_machine.md R132), and the whole
effect of each cycle command's body on the states between commands (R134 to R142), as one equation each. -/

namespace Sys2Proof.Machine

/-! ### Acceptance and the check -/

/-- A ready port takes the command. -/
theorem accept_ready (run : State → State) {s : State} (h : Ready s) :
    accept run s = .next (run { s with busy := true }) := by
  rw [accept, if_pos h.1, if_neg (by simp [h.2])]

/-- Whatever a command answers, the port was ready; acceptance adds nothing to the command's own run. -/
theorem accept_next {run : State → State} {s t : State} (h : accept run s = .next t) :
    Ready s ∧ t = run { s with busy := true } := by
  unfold accept at h
  split at h
  · rename_i hc
    split at h
    · cases h
    · rename_i hb
      cases h
      exact ⟨⟨hc, by simpa using hb⟩, rfl⟩
  · cases h

/-- The three ways a check can go (R132). -/
theorem check_cases (opc : BitVec 4) (required : CycleState) (body : State → State) (s : State) :
    (s.cs = required ∧ check opc required body s = body s) ∨
    (s.cs ≠ required ∧ s.cfg.strict = true ∧
      check opc required body s =
        finish opc .seqViolation 0 0 (emit (.report (.sequencingViolation opc s.cs required)) s)) ∨
    (s.cs ≠ required ∧ s.cfg.strict = false ∧ check opc required body s = body { s with fault := true }) := by
  by_cases h : s.cs = required
  · exact .inl ⟨h, if_pos h⟩
  · by_cases hs : s.cfg.strict = true
    · exact .inr (.inl ⟨h, hs, by rw [check, if_neg h, if_pos hs]; rfl⟩)
    · exact .inr (.inr ⟨h, by simpa using hs, by rw [check, if_neg h, if_neg hs]⟩)

/-- In its required state an accepted command runs its body (R132). -/
theorem accept_check_required {opc : BitVec 4} {required : CycleState} {body : State → State} {s : State}
    (h : Ready s) (hc : s.cs = required) :
    accept (check opc required body) s = .next (body { s with busy := true }) := by
  rw [accept_ready _ h, check, if_pos (by exact hc)]

/-! ### The output-enable net -/

theorem setOutputEnable_logicHigh (s : State) :
    setOutputEnable .logicHigh s =
      { s with oeh := .off, oel := .high, trace := s.trace ++ [.pin (.oeh .off), .pin (.oel .high)] } := by
  simp [setOutputEnable, emit]

theorem setOutputEnable_logicLow (s : State) :
    setOutputEnable .logicLow s =
      { s with oeh := .off, oel := .low, trace := s.trace ++ [.pin (.oeh .off), .pin (.oel .low)] } := by
  simp [setOutputEnable, emit]

theorem setOutputEnable_highVoltage (s : State) :
    setOutputEnable .highVoltage s =
      { s with oel := .off, oeh := .on, trace := s.trace ++ [.pin (.oel .off), .pin (.oeh .on)] } := by
  simp [setOutputEnable, emit]

/-! ### The bodies of BR, ER, BP, EP -/

theorem bodyBr_eq {s : State} (hc : s.csel = .deasserted) :
    bodyBr s =
      { s with
        ddir := .input, oeh := .off, oel := .high, aov := .off, cs := .readActive
        status := .ok, raddr := 0, rdata := 0, ropc := 1, busy := false
        trace := s.trace ++
          [.pin (.cs .deasserted), .pin (.ddir .input), .pin (.oeh .off), .pin (.oel .high), .pin (.aov .off)] } := by
  cases s
  simp only at hc
  subst hc
  simp [bodyBr, enable, setDirection, setAddressOverride, setOutputEnable, pin_cs_deasserted_idle, emit, finish]

theorem bodyEr_eq {s : State} (hc : s.csel = .deasserted) :
    bodyEr s =
      { s with
        oeh := .off, oel := .high, aov := .off, cs := .idle
        status := .ok, raddr := 0, rdata := 0, ropc := 3, busy := false
        trace := s.trace ++ [.pin (.cs .deasserted), .pin (.oeh .off), .pin (.oel .high), .pin (.aov .off)] } := by
  cases s
  simp only at hc
  subst hc
  simp [bodyEr, enable, setAddressOverride, setOutputEnable, pin_cs_deasserted_idle, emit, finish]

theorem bodyBp_eq (s : State) :
    bodyBp s =
      { s with
        ddir := .output, oel := .off, oeh := .on, aov := .off, sroe := .on, cs := .programActive
        status := .ok, raddr := 0, rdata := 0, ropc := 4, busy := false
        trace := s.trace ++
          [.pin (.ddir .output), .pin (.oel .off), .pin (.oeh .on), .pin (.aov .off), .pin (.sroe .on)] } := by
  simp [bodyBp, setDirection, setAddressOverride, setOutputEnable, setRegisterOutput, emit, finish]

theorem bodyEp_eq {s : State} (hc : s.csel = .deasserted) :
    bodyEp s =
      { s with
        aov := .off, oeh := .off, oel := .high, ddir := .input, sroe := .off, cs := .idle
        status := .ok, raddr := 0, rdata := 0, ropc := 6, busy := false
        trace := s.trace ++
          [.pin (.cs .deasserted), .pin (.aov .off), .pin (.oeh .off), .pin (.oel .high), .pin (.ddir .input),
           .pin (.sroe .off)] } := by
  cases s
  simp only at hc
  subst hc
  simp [bodyEp, enable, setDirection, setAddressOverride, setOutputEnable, setRegisterOutput, pin_cs_deasserted_idle,
    emit, finish]

/-! ### The body of R -/

/-- The state R samples in (R135), its serializer lines idle. -/
theorem readSetup_eq (addr : Nat) {s : State} (hb : s.cfg.bijective) (h : SerialIdle s) :
    readSetup addr s =
      { addressed addr s with
        sroe := .on, csel := .asserted, oeh := .off, oel := .low
        trace := (addressed addr s).trace ++
          [.pin (.sroe .on), .pin (.cs .asserted), .pin (.oeh .off), .pin (.oel .low), .delay .readPulse] } := by
  simp [readSetup, setAddress_eq addr hb h, setRegisterOutput, enable, setOutputEnable, emit]

/-- The word R samples with the bus at input and the override off is the addressed cell (R64, R135). -/
theorem busValue_readSetup {addr : Nat} {s : State} (hw : s.cfg.wf) (h : SerialIdle s) (hd : s.ddir = .input)
    (ha : s.aov = .off) (hr : addr < s.cfg.memorySize) :
    BusDriven (readSetup addr s) ∧ busValue (readSetup addr s) = memRead s.mem addr := by
  have hd' : BusDriven (readSetup addr s) := by
    rw [readSetup_eq addr hw.2.2 h]
    simp [BusDriven, outputEnableMode, oeMode, addressed, hd, ha]
  refine ⟨hd', ?_⟩
  rw [busValue, if_pos hd', readSetup_eq addr hw.2.2 h]
  simp [devAddr, addressed, deserOf_serOf_toNat hw hr]

theorem bodyR_eq {addr : Nat} {s : State} (hw : s.cfg.wf) (h : SerialIdle s) (hd : s.ddir = .input)
    (ha : s.aov = .off) (hr : addr < s.cfg.memorySize) :
    bodyR addr s =
      { addressed addr s with
        sroe := .on, csel := .deasserted, oeh := .off, oel := .high
        status := .ok, raddr := addressRegister addr, rdata := memRead s.mem addr, ropc := 2, busy := false
        trace := s.trace ++ readEvents (serOf s.cfg (BitVec.ofNat 16 addr)) (memRead s.mem addr) } := by
  obtain ⟨hd', hv⟩ := busValue_readSetup hw h hd ha hr
  have he : ∀ t : State, t.oel = .low → enable false t = emit (.pin (.cs .deasserted)) { t with csel := .deasserted } := by
    intro t ht
    refine pin_cs_deasserted_low ?_
    rw [outputEnableMode, ht]
    cases t.oeh <;> simp [oeMode]
  simp only [bodyR, readBusValue, readBus, hv, sample, if_pos hd']
  rw [he _ (by rw [readSetup_eq addr hw.2.2 h]; rfl), readSetup_eq addr hw.2.2 h]
  simp [setOutputEnable, emit, finish, readEvents, addressed]

/-! ### The body of P -/

/-- P in a program cycle (R141): the addressed cell takes `ProgramCell(old, word)`. -/
theorem bodyP_eq {addr : Nat} {s : State} (word : Word) (hw : s.cfg.wf) (h : SerialIdle s) (hd : s.ddir = .output)
    (ha : s.aov = .off) (hm : outputEnableMode s = some .highVoltage) (hs : s.sroe = .on)
    (hr : addr < s.cfg.memorySize) :
    bodyP addr word s =
      { addressed addr s with
        d := some word, dout := word, csel := .deasserted
        mem := memWrite s.mem addr (programCell s.cfg (memRead s.mem addr) word)
        status := .ok, raddr := addressRegister addr, rdata := word, ropc := 5, busy := false
        trace := s.trace ++ programEvents (serOf s.cfg (BitVec.ofNat 16 addr)) word } := by
  have he : ∀ t : State, t.csel = .asserted → outputEnableMode t = some .highVoltage → t.aov = .off → t.ddir = .output →
      t.sroe = .on → t.cfg = s.cfg → t.latch = serOf s.cfg (BitVec.ofNat 16 addr) →
      enable false t = emit (.pin (.cs .deasserted))
        { t with
          mem := memWrite t.mem addr (programCell s.cfg (memRead t.mem addr) t.dout)
          csel := .deasserted } := by
    intro t h1 h2 h3 h4 h5 h6 h7
    have hda : devAddr t = addr := by rw [devAddr, if_pos h5, h6, h7, deserOf_serOf_toNat hw hr]
    rw [enable, if_neg (by simp), pin_cs_deasserted_program h1 h2 h3, programPulse, if_pos ⟨h4, h5⟩, hda, h6]
  have hm' : oeMode s.oel s.oeh = some .highVoltage := hm
  simp only [bodyP, setAddress_eq addr hw.2.2 h, writeBus]
  rw [if_pos (by exact hd)]
  have hcs : ∀ t : State, enable true t = emit (.pin (.cs .asserted)) { t with csel := .asserted } := fun _ => rfl
  simp only [hcs, delay_eq, pin_d]
  rw [he]
  · simp [emit, finish, programEvents, addressed]
  · rfl
  · exact hm'
  · exact ha
  · exact hd
  · exact hs
  · rfl
  · rfl

end Sys2Proof.Machine
end

