-- ==== Sys2Proof/Laws/Encoding.lean ====
section
/-! SUPPORT. The fields of `CW32` (30_encoding.md R75): taking them out of a word put together gives them back, and a word is its
fields put together. -/

namespace Sys2Proof

theorem fieldOpc_wordOf (o r : BitVec 4) (a : BitVec 16) (i : BitVec 8) : fieldOpc (wordOf o r a i) = o := by
  unfold fieldOpc wordOf
  apply BitVec.eq_of_getLsbD_eq
  intro j hj
  simp only [BitVec.getLsbD_extractLsb', BitVec.getLsbD_append, hj, decide_true, Bool.true_and]
  rw [if_neg (by omega), if_neg (by omega), if_neg (by omega)]
  congr 1
  omega

theorem fieldRsv_wordOf (o r : BitVec 4) (a : BitVec 16) (i : BitVec 8) : fieldRsv (wordOf o r a i) = r := by
  unfold fieldRsv wordOf
  apply BitVec.eq_of_getLsbD_eq
  intro j hj
  simp only [BitVec.getLsbD_extractLsb', BitVec.getLsbD_append, hj, decide_true, Bool.true_and]
  rw [if_neg (by omega), if_neg (by omega), if_pos (by omega)]
  congr 1
  omega

theorem fieldAddr_wordOf (o r : BitVec 4) (a : BitVec 16) (i : BitVec 8) : fieldAddr (wordOf o r a i) = a := by
  unfold fieldAddr wordOf
  apply BitVec.eq_of_getLsbD_eq
  intro j hj
  simp only [BitVec.getLsbD_extractLsb', BitVec.getLsbD_append, hj, decide_true, Bool.true_and]
  rw [if_neg (by omega), if_pos (by omega)]
  congr 1
  omega

theorem fieldImm_wordOf (o r : BitVec 4) (a : BitVec 16) (i : BitVec 8) : fieldImm (wordOf o r a i) = i := by
  unfold fieldImm wordOf
  apply BitVec.eq_of_getLsbD_eq
  intro j hj
  simp only [BitVec.getLsbD_extractLsb', BitVec.getLsbD_append, hj, decide_true, Bool.true_and]
  rw [if_pos (by omega)]
  congr 1
  omega

theorem wordOf_fields (w : BitVec 32) : wordOf (fieldOpc w) (fieldRsv w) (fieldAddr w) (fieldImm w) = w := by
  unfold fieldOpc fieldRsv fieldAddr fieldImm wordOf
  apply BitVec.eq_of_getLsbD_eq
  intro j hj
  simp only [BitVec.getLsbD_extractLsb', BitVec.getLsbD_append]
  split_ifs with h1 h2 h3
  · simp [h1]
  · rw [show 8 + (j - 8) = j by omega]
    simp [h2]
  · rw [show 24 + (j - 8 - 16) = j by omega]
    simp [h3]
  · rw [show 28 + (j - 8 - 16 - 4) = j by omega]
    simp [show j - 8 - 16 - 4 < 4 by omega]

/-- What a word that decodes has in its fields (R75, R76). -/
theorem decode_ok {w : BitVec 32} {i : Instr} (h : decode w = .ok i) :
    fieldOpc w = i.opcode ∧ fieldRsv w = 0 ∧
      match i with
      | .r a => a = fieldAddr w ∧ fieldImm w = 0
      | .p a d => a = fieldAddr w ∧ d = fieldImm w
      | .e n => fieldAddr w = 0 ∧ n = (fieldImm w).toNat
      | _ => fieldAddr w = 0 ∧ fieldImm w = 0 := by
  unfold decode at h
  split at h
  · cases h
  · split at h
    · rename_i hr
      unfold decodeBody at h
      have val : ∀ k : Nat, (fieldOpc w).toNat = k → fieldOpc w = BitVec.ofNat 4 k := fun k hk => by
        rw [← hk, BitVec.ofNat_toNat, BitVec.setWidth_eq]
      split at h <;> rename_i hk <;> try (have ho := val _ hk)
      case h_8 => cases h
      case h_5 => cases h; exact ⟨ho, hr, rfl, rfl⟩
      case h_2 => split at h <;> cases h; exact ⟨ho, hr, rfl, by assumption⟩
      case h_7 => split at h <;> cases h; exact ⟨ho, hr, by assumption, rfl⟩
      all_goals
        unfold decodeBare at h
        split at h <;> cases h
        exact ⟨ho, hr, by assumption⟩
    · cases h

end Sys2Proof
end

