-- ==== Sys2Proof/Laws/Erase.lean ====
section
/-! SUPPORT. The erase engine (45_erase_engine.md): the light read, the verify pass and one whole attempt, each as one
equation, and the induction over attempts, packaged once. -/

namespace Sys2Proof.Machine

/-! ### The light read (R153) -/

/-- Where the light read works: the register enabled, the bus at input, the override off (R153: what E established). -/
abbrev ReadingLines (s : State) : Prop :=
  s.cfg.wf ∧ SerialIdle s ∧ s.ddir = .input ∧ s.aov = .off ∧ s.sroe = .on

/-- The state after a light read of `a` (R153). -/
def lightlyRead (a : Nat) (s : State) : State :=
  { addressed a s with
    csel := .deasserted, oeh := .off, oel := .high
    trace := s.trace ++ lightReadEvents (serOf s.cfg (BitVec.ofNat 16 a)) (memRead s.mem a) }

theorem lightReadSetup_eq (a : Nat) {s : State} (h : ReadingLines s) :
    lightReadSetup a s =
      { addressed a s with
        csel := .asserted, oeh := .off, oel := .low
        trace := (addressed a s).trace ++
          [.pin (.cs .asserted), .pin (.oeh .off), .pin (.oel .low), .delay .readPulse] } := by
  simp [lightReadSetup, setAddress_eq a h.1.2.2 h.2.1, enable, setOutputEnable, emit]

theorem busValue_lightReadSetup {a : Nat} {s : State} (h : ReadingLines s) (ha : a < s.cfg.memorySize) :
    BusDriven (lightReadSetup a s) ∧ busValue (lightReadSetup a s) = memRead s.mem a := by
  have hd : BusDriven (lightReadSetup a s) := by
    rw [lightReadSetup_eq a h]
    obtain ⟨_, _, h3, h4, h5⟩ := h
    simp [BusDriven, outputEnableMode, oeMode, addressed, h3, h4, h5]
  refine ⟨hd, ?_⟩
  rw [busValue, if_pos hd, lightReadSetup_eq a h]
  simp [devAddr, addressed, deserOf_serOf_toNat h.1 ha, h.2.2.2.2]

/-- The light read returns the cell (R153, R64). -/
theorem lightReadValue_eq {a : Nat} {s : State} (h : ReadingLines s) (ha : a < s.cfg.memorySize) :
    lightReadValue a s = memRead s.mem a := (busValue_lightReadSetup h ha).2

theorem lightRead_eq {a : Nat} {s : State} (h : ReadingLines s) (ha : a < s.cfg.memorySize) :
    lightRead a s = lightlyRead a s := by
  obtain ⟨hd, hv⟩ := busValue_lightReadSetup h ha
  have he : ∀ t : State, t.oel = .low → enable false t = emit (.pin (.cs .deasserted)) { t with csel := .deasserted } := by
    intro t ht
    refine pin_cs_deasserted_low ?_
    rw [outputEnableMode, ht]
    cases t.oeh <;> simp [oeMode]
  simp only [lightRead, lightReadEnd, readBus, sample, if_pos hd, hv]
  rw [he _ (by rw [lightReadSetup_eq a h]; rfl), lightReadSetup_eq a h]
  simp [setOutputEnable, emit, lightReadEvents, addressed, lightlyRead]

/-! ### The verify pass (R151 step 3, R154) -/

/-- The first cell of `v, v + 1, .., v + k - 1` that does not read the erased value. -/
def firstBad (m : Memory) : Nat → Nat → Option Nat
  | 0, _ => none
  | k + 1, v => if memRead m v = erasedValue then firstBad m k (v + 1) else some v

/-- The last address a pass over `v .. v + k` reads after `v` itself: the first bad one, else `v + k`. -/
def lastRead (m : Memory) : Nat → Nat → Nat
  | 0, v => v
  | k + 1, v => if memRead m v = erasedValue then lastRead m k (v + 1) else v

/-- The events of a pass over the `k` addresses from `v`. -/
def verifyEvents (cfg : Cfg) (m : Memory) : Nat → Nat → List Event
  | 0, _ => []
  | k + 1, v =>
    lightReadEvents (serOf cfg (BitVec.ofNat 16 v)) (memRead m v) ++
      (if memRead m v = erasedValue then verifyEvents cfg m k (v + 1) else [])

/-- The record a pass over the `k` addresses from `v` leaves. -/
def verifiedRecord (m : Memory) (k v : Nat) (r : EraseRecord) : EraseRecord :=
  match firstBad m k v with
  | none => { r with vaddr := BitVec.ofNat 17 (v + k) }
  | some a =>
    { r with vaddr := BitVec.ofNat 17 a, ok := false, failAddr := addressRegister a, failVal := memRead m a }

/-- One address of the pass, all of it. -/
theorem verifyStep_eq {v : Nat} {s : State} (h : ReadingLines s) (hv : v < s.cfg.memorySize)
    (hr : (eraseRecord s).vaddr = BitVec.ofNat 17 v) :
    verifyStep s =
      if memRead s.mem v = erasedValue then
        { lightlyRead v s with erase := some { eraseRecord s with vaddr := BitVec.ofNat 17 (v + 1) } }
      else
        { lightlyRead v s with
          erase := some
            { eraseRecord s with ok := false, failAddr := addressRegister v, failVal := memRead s.mem v } } := by
  have h1 := h.1.2.1
  have htn : (eraseRecord s).vaddr.toNat = v := by
    rw [hr, BitVec.toNat_ofNat, Nat.mod_eq_of_lt (by omega)]
  have hinc : (eraseRecord s).vaddr + 1 = BitVec.ofNat 17 (v + 1) := by
    rw [hr, BitVec.ofNat_add]
    rfl
  simp only [verifyStep, htn, lightReadValue_eq h hv, lightRead_eq h hv, hinc]
  rfl

theorem readingLines_lightlyRead {a : Nat} {s : State} (h : ReadingLines s) (e : Option EraseRecord) :
    ReadingLines { lightlyRead a s with erase := e } := h

/-- The pass from address `v` on, all of it: at least one address is left. -/
theorem verifyLoop_eq (k : Nat) {v : Nat} {s : State} (h : ReadingLines s) (hk : v + (k + 1) = s.cfg.memorySize)
    (hr : (eraseRecord s).vaddr = BitVec.ofNat 17 v) (hok : (eraseRecord s).ok = true) :
    verifyLoop (k + 1) s =
      { addressed (lastRead s.mem k v) s with
        csel := .deasserted, oeh := .off, oel := .high
        erase := some (verifiedRecord s.mem (k + 1) v (eraseRecord s))
        trace := s.trace ++ verifyEvents s.cfg s.mem (k + 1) v } := by
  have h1 := h.1.2.1
  have hv : v < s.cfg.memorySize := by omega
  have htn : (eraseRecord s).vaddr.toNat = v := by
    rw [hr, BitVec.toNat_ofNat, Nat.mod_eq_of_lt (by omega)]
  induction k generalizing v s with
  | zero =>
    rw [verifyLoop, if_pos ⟨by rw [htn]; exact hv, hok⟩, verifyLoop, verifyStep_eq h hv hr]
    by_cases hm : memRead s.mem v = erasedValue
    · rw [if_pos hm]
      simp [lastRead, verifiedRecord, firstBad, verifyEvents, hm, lightlyRead, addressed]
    · rw [if_neg hm]
      simp [lastRead, verifiedRecord, firstBad, verifyEvents, hm, lightlyRead, addressed, ← hr]
  | succ k ih =>
    rw [verifyLoop, if_pos ⟨by rw [htn]; exact hv, hok⟩, verifyStep_eq h hv hr]
    by_cases hm : memRead s.mem v = erasedValue
    · rw [if_pos hm]
      rw [ih (v := v + 1)
        (s := { lightlyRead v s with erase := some { eraseRecord s with vaddr := BitVec.ofNat 17 (v + 1) } })
        (readingLines_lightlyRead h _) (show v + 1 + (k + 1) = s.cfg.memorySize by omega) rfl hok
        (by exact h1) (show v + 1 < s.cfg.memorySize by omega)
        (by
          show (BitVec.ofNat 17 (v + 1)).toNat = v + 1
          rw [BitVec.toNat_ofNat, Nat.mod_eq_of_lt (by omega)])]
      have hvr : verifiedRecord s.mem (k + 1) (v + 1) { eraseRecord s with vaddr := BitVec.ofNat 17 (v + 1) } =
          verifiedRecord s.mem (k + 1 + 1) v (eraseRecord s) := by
        have hfb : firstBad s.mem (k + 1 + 1) v = firstBad s.mem (k + 1) (v + 1) := by rw [firstBad, if_pos hm]
        simp only [verifiedRecord, hfb, show v + 1 + (k + 1) = v + (k + 1 + 1) by omega]
      have hlr : lastRead s.mem (k + 1) v = lastRead s.mem k (v + 1) := by rw [lastRead, if_pos hm]
      have hev : verifyEvents s.cfg s.mem (k + 1 + 1) v =
          lightReadEvents (serOf s.cfg (BitVec.ofNat 16 v)) (memRead s.mem v) ++ verifyEvents s.cfg s.mem (k + 1) (v + 1) := by
        rw [verifyEvents, if_pos hm]
      rw [hlr, hev, ← hvr]
      simp [lightlyRead, addressed, eraseRecord]
    · rw [if_neg hm, verifyLoop, if_neg (by simp [eraseRecord])]
      simp [lastRead, verifiedRecord, firstBad, verifyEvents, hm, lightlyRead, addressed, ← hr]

/-! ### One attempt (R151 steps 1 to 4) -/

/-- Step 1 on idle serializer lines (R151): the erase pulse takes effect at its end. -/
theorem erasePulseStep_eq {s : State} (hb : s.cfg.bijective) (h : SerialIdle s) :
    erasePulseStep s =
      { addressed 0 (dropOutcome s) with
        ddir := .output, aov := .on, oel := .off, oeh := .on, d := some erasedValue, dout := erasedValue
        csel := .deasserted, mem := erasedArray s.cfg.memorySize (eraseOutcome s)
        trace := s.trace ++ erasePulseEvents (serOf s.cfg 0) } := by
  have he : ∀ t : State, t.csel = .asserted → t.oel = .off → t.oeh = .on → t.aov = .on →
      enable false t = emit (.pin (.cs .deasserted)) { erasePulse t with csel := .deasserted } := by
    intro t h1 h2 h3 h4
    rw [enable, if_neg (by simp), pin_cs_deasserted_erase h1 (by rw [outputEnableMode, h2, h3]; rfl) h4]
  have hcs : ∀ t : State, enable true t = emit (.pin (.cs .asserted)) { t with csel := .asserted } := fun _ => rfl
  have hsa : ∀ t : State, t.cfg = s.cfg → SerialIdle t → setAddress 0 t = addressed 0 t :=
    fun t h1 h2 => setAddress_eq 0 (by rw [h1]; exact hb) h2
  simp only [erasePulseStep, setDirection, setAddressOverride, setOutputEnable, pin_ddir, pin_aov, pin_oel, pin_oeh]
  rw [hsa]
  · simp only [writeBus, hcs, delay_eq, pin_d]
    rw [if_pos (by rfl), he]
    · cases s with
      | mk cs ser sclk rclk mr sroe csel oel oeh aov ddir d dout vec sh la er st ra rd ro bu mem tr fa cfg co ca es dr =>
        cases es <;> simp [emit, erasePulseEvents, addressed, erasePulse, dropOutcome, takeDraw, eraseOutcome]
    · rfl
    · rfl
    · rfl
    · rfl
  · rfl
  · exact h

/-- Step 2 (R151). -/
theorem eraseSettleStep_eq (s : State) :
    eraseSettleStep s =
      { s with
        ddir := .input, oeh := .off, oel := .high, aov := .off, csel := .asserted
        trace := s.trace ++ eraseSettleEvents } := by
  simp [eraseSettleStep, setDirection, setOutputEnable, setAddressOverride, enable, emit, eraseSettleEvents]

/-- The cells an attempt leaves (R66). -/
def attemptCells (s : State) : Memory := erasedArray s.cfg.memorySize (eraseOutcome s)

/-- The state after steps 1 to 3 of an attempt. -/
def attempted (s : State) : State :=
  { addressed (lastRead (attemptCells s) (s.cfg.memorySize - 1) 0) (dropOutcome s) with
    ddir := .input, aov := .off, oel := .high, oeh := .off, d := some erasedValue, dout := erasedValue
    csel := .deasserted, mem := attemptCells s
    erase := some (verifiedRecord (attemptCells s) s.cfg.memorySize 0
      { eraseRecord s with attempt := (eraseRecord s).attempt + 1, ok := true, vaddr := 0 })
    trace := s.trace ++ (erasePulseEvents (serOf s.cfg 0) ++ eraseSettleEvents ++
      verifyEvents s.cfg (attemptCells s) s.cfg.memorySize 0) }

/-- What an attempt needs: a configuration, idle serializer lines, the register enabled. -/
abbrev AttemptReady (s : State) : Prop := s.cfg.wf ∧ SerialIdle s ∧ s.sroe = .on

/-- One attempt, all of it (R151). -/
theorem eraseAttempt_eq {s : State} (h : AttemptReady s) : eraseAttempt s = eraseWaypoint (attempted s) := by
  obtain ⟨hw, hi, hs⟩ := h
  obtain ⟨k, hk⟩ : ∃ k, s.cfg.memorySize = k + 1 := ⟨s.cfg.memorySize - 1, by have := hw.1; omega⟩
  have hst : eraseSettleStep (erasePulseStep
      (setRecord { eraseRecord s with attempt := (eraseRecord s).attempt + 1 } s)) =
      { addressed 0 (dropOutcome s) with
        ddir := .input, aov := .off, oel := .high, oeh := .off, d := some erasedValue, dout := erasedValue
        csel := .asserted, mem := attemptCells s
        erase := some { eraseRecord s with attempt := (eraseRecord s).attempt + 1 }
        trace := s.trace ++ (erasePulseEvents (serOf s.cfg 0) ++ eraseSettleEvents) } := by
    rw [erasePulseStep_eq (by exact hw.2.2) (by exact hi), eraseSettleStep_eq]
    cases s with
    | mk cs ser sclk rclk mr sroe csel oel oeh aov ddir d dout vec sh la er st ra rd ro bu mem tr fa cfg co ca es dr =>
      cases es <;>
        simp [addressed, dropOutcome, takeDraw, eraseOutcome, setRecord, attemptCells]
  have hl := verifyLoop_eq k (v := 0)
    (s := setRecord { eraseRecord s with attempt := (eraseRecord s).attempt + 1, ok := true, vaddr := 0 }
      { addressed 0 (dropOutcome s) with
        ddir := .input, aov := .off, oel := .high, oeh := .off, d := some erasedValue, dout := erasedValue
        csel := .asserted, mem := attemptCells s
        trace := s.trace ++ (erasePulseEvents (serOf s.cfg 0) ++ eraseSettleEvents) })
    (by
      refine ⟨?_, ?_, rfl, rfl, ?_⟩
      · simpa [addressed] using hw
      · simpa [SerialIdle, addressed] using hi
      · simpa [addressed] using hs)
    (by simp [addressed, hk]) (by simp) (by simp)
  have hv : verifyPass { addressed 0 (dropOutcome s) with
        ddir := .input, aov := .off, oel := .high, oeh := .off, d := some erasedValue, dout := erasedValue
        csel := .asserted, mem := attemptCells s
        erase := some { eraseRecord s with attempt := (eraseRecord s).attempt + 1 }
        trace := s.trace ++ (erasePulseEvents (serOf s.cfg 0) ++ eraseSettleEvents) } = attempted s := by
    rw [verifyPass]
    simp only [addressed, dropOutcome_cfg, hk] at hl ⊢
    refine hl.trans ?_
    simp [attempted, addressed, hk]
  simp only [eraseAttempt]
  rw [hst, hv]

end Sys2Proof.Machine
end

