-- ==== Sys2Proof/Laws/EraseLoop.lean ====
section
/-! SUPPORT. What any number of erase attempts leaves (45_erase_engine.md R151 to R158): one attempt's result, the induction
over attempts, and the whole of E's body from them. -/

namespace Sys2Proof.Machine

/-! ### The first mismatch of a pass -/

theorem firstBad_none {m : Memory} {k v : Nat} (h : firstBad m k v = none) :
    ∀ a, v ≤ a → a < v + k → memRead m a = erasedValue := by
  induction k generalizing v with
  | zero => intro a h1 h2; omega
  | succ k ih =>
    rw [firstBad] at h
    split at h
    · rename_i hv
      intro a h1 h2
      rcases Nat.eq_or_lt_of_le h1 with he | hl
      · rw [← he]; exact hv
      · exact ih h a hl (by omega)
    · cases h

theorem firstBad_some {m : Memory} {k v a : Nat} (h : firstBad m k v = some a) :
    v ≤ a ∧ a < v + k ∧ memRead m a ≠ erasedValue ∧ ∀ b, v ≤ b → b < a → memRead m b = erasedValue := by
  induction k generalizing v with
  | zero => cases h
  | succ k ih =>
    rw [firstBad] at h
    split at h
    · rename_i hv
      obtain ⟨h1, h2, h3, h4⟩ := ih h
      refine ⟨by omega, by omega, h3, fun b hb hba => ?_⟩
      rcases Nat.eq_or_lt_of_le hb with he | hl
      · rw [← he]; exact hv
      · exact h4 b hl hba
    · rename_i hv
      cases h
      exact ⟨by omega, by omega, hv, fun b h1 h2 => by omega⟩

/-- Where a pass over `k + 1` addresses stops. -/
theorem lastRead_eq (m : Memory) (k v : Nat) : lastRead m k v = (firstBad m (k + 1) v).getD (v + k) := by
  induction k generalizing v with
  | zero => by_cases h : memRead m v = erasedValue <;> simp [lastRead, firstBad, h]
  | succ k ih =>
    rw [lastRead, firstBad]
    by_cases h : memRead m v = erasedValue
    · rw [if_pos h, if_pos h, ih]
      congr 1
      omega
    · rw [if_neg h, if_neg h]; rfl

/-! ### Counting events -/

theorem shiftEvents_count (k : Nat) (v : Addr) (t : DelayName) : (shiftEvents k v).count (.delay t) = 0 := by
  induction k with
  | zero => rfl
  | succ k ih => simp [shiftEvents, ih]

theorem shiftEvents_mismatch (k : Nat) (v : Addr) : (shiftEvents k v).countP isMismatch = 0 := by
  induction k with
  | zero => rfl
  | succ k ih =>
    rw [shiftEvents, List.countP_append, ih]
    rfl

@[simp] theorem addressEvents_count (v : Addr) (t : DelayName) : (addressEvents v).count (.delay t) = 0 := by
  simp [addressEvents, List.count_append, shiftEvents_count]

@[simp] theorem addressEvents_mismatch (v : Addr) : (addressEvents v).countP isMismatch = 0 := by
  rw [addressEvents, List.countP_append, shiftEvents_mismatch]
  rfl

/-- A pass pulses nothing and reports nothing; it reads once for each address it comes to. -/
theorem verifyEvents_counts (cfg : Cfg) (m : Memory) (k v : Nat) :
    (verifyEvents cfg m k v).count (.delay .erasePulse) = 0 ∧ (verifyEvents cfg m k v).countP isMismatch = 0 ∧
    (verifyEvents cfg m k v).count (.delay .eraseSettle) = 0 := by
  induction k generalizing v with
  | zero => exact ⟨rfl, rfl, rfl⟩
  | succ k ih =>
    rw [verifyEvents]
    split <;> simp [lightReadEvents, List.count_append, List.countP_append, isMismatch, ih]

theorem verifyEvents_range (cfg : Cfg) (m : Memory) (k v : Nat) :
    verifyEvents cfg m k v =
      (List.range' v (match firstBad m k v with | none => k | some a => a + 1 - v)).flatMap fun a =>
        lightReadEvents (serOf cfg (BitVec.ofNat 16 a)) (memRead m a) := by
  induction k generalizing v with
  | zero => rfl
  | succ k ih =>
    rw [verifyEvents, firstBad]
    by_cases h : memRead m v = erasedValue
    · rw [if_pos h, if_pos h, ih]
      cases hb : firstBad m k (v + 1) with
      | none => rw [List.range'_succ, List.flatMap_cons]
      | some a =>
        obtain ⟨h1, -⟩ := firstBad_some hb
        have e : a + 1 - v = (a + 1 - (v + 1)) + 1 := by omega
        simp only [e, List.range'_succ, List.flatMap_cons]
    · rw [if_neg h, if_neg h]
      simp

/-- The events of a pass that finds every address erased. -/
theorem verifyEvents_complete {cfg : Cfg} {m : Memory} {k : Nat} (h : firstBad m k 0 = none) :
    verifyEvents cfg m k 0 = passEvents cfg m k := by
  rw [verifyEvents_range, h, passEvents, List.range_eq_range']

/-- The events of a pass that stops at a mismatch (R154). -/
theorem verifyEvents_stopped {cfg : Cfg} {m : Memory} {k a : Nat} (h : firstBad m k 0 = some a) :
    verifyEvents cfg m k 0 = passEvents cfg m (a + 1) := by
  rw [verifyEvents_range, h, passEvents, List.range_eq_range']
  rfl

theorem firstBad_nil (k v : Nat) : firstBad [] k v = none := by
  induction k generalizing v with
  | zero => rfl
  | succ k ih => rw [firstBad, if_pos (by rfl), ih]

/-- A pass over an erased device: 58 events and one read for each address (R153, R160). -/
theorem verifyEvents_erased (cfg : Cfg) (k v : Nat) :
    (verifyEvents cfg [] k v).length = 58 * k ∧ (verifyEvents cfg [] k v).count (.delay .readPulse) = k := by
  induction k generalizing v with
  | zero => exact ⟨rfl, rfl⟩
  | succ k ih =>
    rw [verifyEvents, if_pos (by rfl)]
    simp [lightReadEvents, addressEvents_length, List.count_append, ih]
    omega

/-! ### After some attempts -/

/-- The state after `k` attempts of an E that stood at `s` before the first: at least one attempt was made. -/
structure Attempts (s : State) (k : Nat) (t : State) : Prop where
  frame : t = { s with
    vec := t.latch, shiftReg := t.latch, latch := t.latch, ser := t.latch.getLsbD 0, ddir := .input, aov := .off
    oel := .high, oeh := .off, d := some erasedValue, dout := erasedValue, csel := .deasserted
    mem := t.mem, erase := t.erase, trace := t.trace, eraseScript := t.eraseScript, cancelIn := t.cancelIn, draws := t.draws }
  attempt : (eraseRecord t).attempt = k
  wf : Memory.wf s.cfg.memorySize t.mem = true
  success : (eraseRecord t).ok = true →
    (eraseRecord t).cancelled = false ∧ t.mem = [] ∧ t.latch = serOf s.cfg (BitVec.ofNat 16 (s.cfg.memorySize - 1)) ∧
    ∃ evs, t.trace = s.trace ++ evs ∧ erasePulses evs = k ∧ mismatchReports evs + 1 = k
  mismatch : (eraseRecord t).ok = false →
    (eraseRecord t).failAddr.toNat < s.cfg.memorySize ∧
    memRead t.mem (eraseRecord t).failAddr.toNat = (eraseRecord t).failVal ∧ (eraseRecord t).failVal ≠ erasedValue ∧
    (∀ a, a < (eraseRecord t).failAddr.toNat → memRead t.mem a = erasedValue) ∧
    t.latch = serOf s.cfg (eraseRecord t).failAddr ∧
    ∃ evs, t.trace = s.trace ++ evs ++
        [.report (.eraseMismatch k (eraseRecord t).failAddr erasedValue (eraseRecord t).failVal),
         .cancelPoll (eraseRecord t).cancelled] ∧
      erasePulses evs = k ∧ mismatchReports evs + 1 = k

/-- Two canonical memories: one that reads erased everywhere inside the device is empty. -/
theorem memory_erased {size : Nat} {m : Memory} (h : Memory.wf size m = true)
    (he : ∀ a, a < size → memRead m a = erasedValue) : m = [] := by
  refine memory_ext h (m' := []) rfl fun a => ?_
  by_cases ha : a < size
  · rw [he a ha]; rfl
  · rw [memRead_outside h (by omega)]; rfl

/-- A successful attempt, all of it: the pass read every address and found it erased. -/
theorem eraseAttempt_success {s : State} (h : AttemptReady s) (he : attemptCells s = []) :
    eraseAttempt s =
      { addressed (s.cfg.memorySize - 1) (dropOutcome s) with
        ddir := .input, aov := .off, oel := .high, oeh := .off, d := some erasedValue, dout := erasedValue
        csel := .deasserted, mem := []
        erase := some { eraseRecord s with
          attempt := (eraseRecord s).attempt + 1, ok := true, vaddr := BitVec.ofNat 17 s.cfg.memorySize }
        trace := s.trace ++ (erasePulseEvents (serOf s.cfg 0) ++ eraseSettleEvents ++
          verifyEvents s.cfg [] s.cfg.memorySize 0) } := by
  obtain ⟨k, hk⟩ : ∃ k, s.cfg.memorySize = k + 1 := ⟨s.cfg.memorySize - 1, by have := h.1.1; omega⟩
  have ha : attempted s =
      { addressed (s.cfg.memorySize - 1) (dropOutcome s) with
        ddir := .input, aov := .off, oel := .high, oeh := .off, d := some erasedValue, dout := erasedValue
        csel := .deasserted, mem := []
        erase := some { eraseRecord s with
          attempt := (eraseRecord s).attempt + 1, ok := true, vaddr := BitVec.ofNat 17 s.cfg.memorySize }
        trace := s.trace ++ (erasePulseEvents (serOf s.cfg 0) ++ eraseSettleEvents ++
          verifyEvents s.cfg [] s.cfg.memorySize 0) } := by
    simp [attempted, he, lastRead_eq, firstBad_nil, verifiedRecord, hk]
  rw [eraseAttempt_eq h, ha, eraseWaypoint, if_pos (by rfl)]

/-- A failed attempt, all of it: the report and the poll after the first mismatch. -/
theorem eraseAttempt_mismatch {s : State} (h : AttemptReady s) {a : Nat}
    (he : firstBad (attemptCells s) s.cfg.memorySize 0 = some a) :
    eraseAttempt s =
      { addressed a (dropOutcome s) with
        ddir := .input, aov := .off, oel := .high, oeh := .off, d := some erasedValue, dout := erasedValue
        csel := .deasserted, mem := attemptCells s
        erase := some
          ⟨(eraseRecord s).attempt + 1, BitVec.ofNat 17 a, false, addressRegister a, memRead (attemptCells s) a,
            cancelAnswer (dropOutcome s)⟩
        cancelIn := (dropAnswer (dropOutcome s)).cancelIn
        draws := (dropAnswer (dropOutcome s)).draws
        trace := s.trace ++ (erasePulseEvents (serOf s.cfg 0) ++ eraseSettleEvents ++
          verifyEvents s.cfg (attemptCells s) s.cfg.memorySize 0) ++
          [.report (.eraseMismatch ((eraseRecord s).attempt + 1) (addressRegister a) erasedValue
            (memRead (attemptCells s) a)), .cancelPoll (cancelAnswer (dropOutcome s))] } := by
  obtain ⟨k, hk⟩ : ∃ k, s.cfg.memorySize = k + 1 := ⟨s.cfg.memorySize - 1, by have := h.1.1; omega⟩
  have hl : lastRead (attemptCells s) (s.cfg.memorySize - 1) 0 = a := by
    rw [lastRead_eq, show s.cfg.memorySize - 1 + 1 = s.cfg.memorySize by omega, he]; rfl
  have hr : eraseRecord (attempted s) =
      ⟨(eraseRecord s).attempt + 1, BitVec.ofNat 17 a, false, addressRegister a, memRead (attemptCells s) a,
        (eraseRecord s).cancelled⟩ := by
    simp [attempted, eraseRecord, verifiedRecord, he]
  rw [eraseAttempt_eq h, eraseWaypoint]
  simp only [hr]
  rw [if_neg (by simp)]
  simp only [attempted, hl]
  cases s with
  | mk cs ser sclk rclk mr sroe csel oel oeh aov ddir d dout vec sh la er st ra rd ro bu mem tr fa cfg co ca es dr =>
    cases es <;> cases ca <;>
      simp [addressed, dropOutcome, takeDraw, setRecord, pollCancel, report, emit, dropAnswer, cancelAnswer]

theorem pulseEvents_counts (v : Addr) :
    erasePulses (erasePulseEvents v) = 1 ∧ mismatchReports (erasePulseEvents v) = 0 ∧
    (erasePulseEvents v).count (.delay .eraseSettle) = 0 ∧ (erasePulseEvents v).count (.delay .readPulse) = 0 := by
  simp [erasePulses, mismatchReports, erasePulseEvents, List.count_append, List.countP_append, isMismatch]

theorem erasePulses_append (l l' : List Event) : erasePulses (l ++ l') = erasePulses l + erasePulses l' :=
  List.count_append

theorem mismatchReports_append (l l' : List Event) :
    mismatchReports (l ++ l') = mismatchReports l + mismatchReports l' := List.countP_append

/-- The events of steps 1 to 3 of an attempt hold one pulse and no report. -/
theorem attemptEvents_counts (cfg : Cfg) (m : Memory) (k : Nat) (v : Addr) :
    erasePulses (erasePulseEvents v ++ eraseSettleEvents ++ verifyEvents cfg m k 0) = 1 ∧
    mismatchReports (erasePulseEvents v ++ eraseSettleEvents ++ verifyEvents cfg m k 0) = 0 := by
  obtain ⟨h1, h2, -⟩ := pulseEvents_counts v
  obtain ⟨g1, g2, -⟩ := verifyEvents_counts cfg m k 0
  have e1 : erasePulses (verifyEvents cfg m k 0) = 0 := g1
  have e2 : mismatchReports (verifyEvents cfg m k 0) = 0 := g2
  simp only [erasePulses_append, mismatchReports_append, h1, h2, e1, e2]
  exact ⟨rfl, rfl⟩

/-- Two points of one E, `k` failed attempts apart: what an attempt never touches is as it was. -/
structure SameRun (s : State) (k : Nat) (t : State) : Prop where
  frame : t = { s with
    vec := t.vec, shiftReg := t.shiftReg, latch := t.latch, ser := t.ser, ddir := t.ddir, aov := t.aov
    oel := t.oel, oeh := t.oeh, d := t.d, dout := t.dout, csel := t.csel
    mem := t.mem, erase := t.erase, trace := t.trace, eraseScript := t.eraseScript, cancelIn := t.cancelIn, draws := t.draws }
  attempt : (eraseRecord t).attempt = k
  goesOn : (eraseRecord t).cancelled = false
  events : ∃ evs, t.trace = s.trace ++ evs ∧ erasePulses evs = k ∧ mismatchReports evs = k

theorem SameRun.cfg {s t : State} {k : Nat} (h : SameRun s k t) : t.cfg = s.cfg := by rw [h.frame]

/-- An attempt after `k` failed ones. -/
theorem attempts_step {s t : State} {k : Nat} (h : AttemptReady t) (hs : SameRun s k t) :
    Attempts s (k + 1) (eraseAttempt t) := by
  obtain ⟨evs, e1, e2, e3⟩ := hs.events
  obtain ⟨c1, c2⟩ := attemptEvents_counts t.cfg (attemptCells t) t.cfg.memorySize (serOf t.cfg 0)
  have hwf : Memory.wf t.cfg.memorySize (attemptCells t) = true := erasedArray_wf _ _
  have hsz := h.1.2.1
  have hcfg := hs.cfg
  have hat := hs.attempt
  have hgo := hs.goesOn
  cases hb : firstBad (attemptCells t) t.cfg.memorySize 0 with
  | none =>
    have he : attemptCells t = [] :=
      memory_erased hwf fun a ha => firstBad_none hb a (Nat.zero_le a) (by omega)
    rw [eraseAttempt_success h he]
    rw [he] at c1 c2
    refine ⟨?_, ?_, rfl, fun _ => ⟨hgo, rfl, ?_,
      evs ++ (erasePulseEvents (serOf t.cfg 0) ++ eraseSettleEvents ++ verifyEvents t.cfg [] t.cfg.memorySize 0),
      ?_, ?_, ?_⟩, fun hok => ?_⟩
    · rw [hs.frame]
      simp [addressed, dropOutcome_cfg]
    · rw [← hat]; rfl
    · simp [addressed, hcfg]
    · simp only [e1, List.append_assoc]
    · rw [erasePulses_append, e2, c1]
    · rw [mismatchReports_append, e3, c2]
    · simp [eraseRecord] at hok
  | some a =>
    obtain ⟨-, h2, h3, h4⟩ := firstBad_some hb
    have htn : (addressRegister a).toNat = a := by
      rw [addressRegister, BitVec.toNat_ofNat, Nat.mod_eq_of_lt (by omega)]
    rw [eraseAttempt_mismatch h hb]
    refine ⟨?_, ?_, by rw [← hcfg]; exact hwf, fun hok => ?_, fun _ => ⟨?_, ?_, h3, ?_, ?_,
      evs ++ (erasePulseEvents (serOf t.cfg 0) ++ eraseSettleEvents ++
        verifyEvents t.cfg (attemptCells t) t.cfg.memorySize 0), ?_, ?_, ?_⟩⟩
    · rw [hs.frame]
      simp [addressed]
    · rw [← hat]; rfl
    · simp [eraseRecord] at hok
    · simp only [eraseRecord, Option.getD_some, htn]; rw [← hcfg]; omega
    · simp only [eraseRecord, Option.getD_some, htn]
    · simp only [eraseRecord, Option.getD_some, htn]
      exact fun b hb' => h4 b (Nat.zero_le b) hb'
    · simp [addressed, hcfg, eraseRecord, addressRegister]
    · rw [hat]; simp only [e1, List.append_assoc]; rfl
    · rw [erasePulses_append, e2, c1]
    · rw [mismatchReports_append, e3, c2]

/-- After a failed attempt that was not cancelled E is where it can make another. -/
theorem Attempts.sameRun {s t : State} {k : Nat} (h : Attempts s k t) (hok : (eraseRecord t).ok = false)
    (hc : (eraseRecord t).cancelled = false) : SameRun s k t where
  frame := by
    have hf := h.frame
    cases t
    simp only [State.mk.injEq] at hf ⊢
    simp_all
  attempt := h.attempt
  goesOn := hc
  events := by
    obtain ⟨-, -, -, -, -, evs, e1, e2, e3⟩ := h.mismatch hok
    refine ⟨_, by rw [e1, List.append_assoc], ?_, ?_⟩
    · rw [erasePulses_append, e2]; rfl
    · rw [mismatchReports_append, ← e3]; rfl

theorem Attempts.ready {s t : State} {k : Nat} (h : Attempts s k t) (hs : AttemptReady s) : AttemptReady t := by
  rw [h.frame]; exact hs

/-- The loop over attempts, from a failed attempt or a successful one: at least one was made. -/
theorem eraseLoop_attempts {s : State} (n f k : Nat) {t : State} (hs : AttemptReady s) (h : Attempts s k t) (hk : 1 ≤ k)
    (hkn : k + f = n) :
    ∃ j, 1 ≤ j ∧ j ≤ n ∧ Attempts s j (eraseLoop n f t) ∧
      ((eraseRecord (eraseLoop n f t)).ok = false → (eraseRecord (eraseLoop n f t)).cancelled = false → j = n) := by
  induction f generalizing k t with
  | zero => exact ⟨k, hk, by omega, h, fun _ _ => by omega⟩
  | succ f ih =>
    rw [eraseLoop]
    split
    · rename_i hg
      exact ih (k + 1) (attempts_step (h.ready hs) (h.sameRun hg.2.1 hg.2.2)) (by omega) (by omega)
    · rename_i hg
      refine ⟨k, hk, by omega, h, fun h1 h2 => absurd ⟨?_, h1, h2⟩ hg⟩
      rw [h.attempt]; omega

/-- The loop over attempts of an E that has just begun. -/
theorem eraseLoop_begin {s : State} {n : Nat} (hn : 1 ≤ n) (hs : AttemptReady s) (h0 : eraseRecord s = eraseStart) :
    eraseLoop n n s = eraseLoop n (n - 1) (eraseAttempt s) ∧ Attempts s 1 (eraseAttempt s) := by
  refine ⟨?_, attempts_step hs ⟨rfl, by rw [h0]; rfl, by rw [h0]; rfl, [], by simp, rfl, rfl⟩⟩
  obtain ⟨m, rfl⟩ : ∃ m, n = m + 1 := ⟨n - 1, by omega⟩
  rw [eraseLoop, if_pos ⟨by rw [h0]; exact hn, by rw [h0]; rfl, by rw [h0]; rfl⟩]
  rfl

/-- A step of the loop. -/
theorem eraseLoop_again {n f k : Nat} {s t : State} (h : Attempts s k t) (hk : k < n) (hok : (eraseRecord t).ok = false)
    (hc : (eraseRecord t).cancelled = false) : eraseLoop n (f + 1) t = eraseLoop n f (eraseAttempt t) := by
  rw [eraseLoop, if_pos ⟨by rw [h.attempt]; exact hk, hok, hc⟩]

/-- The loop is over after a success or a cancel. -/
theorem eraseLoop_over {n f : Nat} {t : State} (h : (eraseRecord t).ok = true ∨ (eraseRecord t).cancelled = true) :
    eraseLoop n f t = t := by
  cases f with
  | zero => rfl
  | succ f =>
    rw [eraseLoop, if_neg]
    rintro ⟨-, h1, h2⟩
    rcases h with h | h
    · rw [h] at h1; cases h1
    · rw [h] at h2; cases h2

/-! ### The cleanup and E's last line -/

/-- Cleanup and last line where the device is deselected already (R156, R157): after the loop. -/
theorem eraseFinish_eraseCleanup {s : State} (hc : s.csel = .deasserted) :
    eraseFinish (eraseCleanup s) =
      { s with
        oeh := .off, oel := .high, aov := .off, ddir := .input, erase := none
        status := eraseStatus (eraseRecord s), raddr := (eraseRecord s).failAddr, rdata := (eraseRecord s).failVal
        ropc := 7, busy := false
        trace := s.trace ++ eraseCleanupEvents } := by
  cases s
  simp only at hc
  subst hc
  simp [eraseFinish, eraseCleanup, enable, setOutputEnable, setAddressOverride, setDirection, pin_cs_deasserted_idle, emit,
    finish, eraseRecord, eraseCleanupEvents]

/-- The state E's loop starts in (R151). -/
def eraseEntry (s : State) : State :=
  { s with sroe := .on, erase := some eraseStart, trace := s.trace ++ [.pin (.sroe .on)] }

theorem bodyE_eq (n : Nat) (s : State) : bodyE n s = eraseFinish (eraseCleanup (eraseLoop n n (eraseEntry s))) := rfl

/-- E accepted in `Idle`: entry, loop, cleanup, last line. -/
theorem execE_eq {s : State} (n : Nat) (h : Ready s) (hc : s.cs = .idle) :
    exec (.e n) s = .next (eraseFinish (eraseCleanup (eraseLoop n n (eraseEntry { s with busy := true })))) :=
  accept_check_required h hc

theorem eraseEntry_ready {s : State} (h : Settled s) : AttemptReady (eraseEntry { s with busy := true }) :=
  ⟨h.1.1, h.2.1, rfl⟩

/-- E's loop with at least one attempt allowed: some attempts were made, all of them unless one succeeded or was cancelled. -/
theorem eraseLoop_result {s : State} {n : Nat} (hn : 1 ≤ n) (hs : AttemptReady s) (h0 : eraseRecord s = eraseStart) :
    ∃ j, 1 ≤ j ∧ j ≤ n ∧ Attempts s j (eraseLoop n n s) ∧
      ((eraseRecord (eraseLoop n n s)).ok = false → (eraseRecord (eraseLoop n n s)).cancelled = false → j = n) := by
  obtain ⟨e, a⟩ := eraseLoop_begin hn hs h0
  rw [e]
  exact eraseLoop_attempts n (n - 1) 1 hs a (Nat.le_refl 1) (by omega)

/-! ### Attempts whose outcome the script gives (R66) -/

theorem firstBad_of_leavesUnerased {size : Nat} {x : EraseDraw} (h : leavesUnerased size x) :
    ∃ a, firstBad (erasedArray size x) size 0 = some a := by
  cases hb : firstBad (erasedArray size x) size 0 with
  | some a => exact ⟨a, rfl⟩
  | none =>
    obtain ⟨a, h1, h2⟩ := h
    exact absurd (firstBad_none hb a (Nat.zero_le a) (by omega)) h2

/-- An attempt whose pulse leaves a cell unerased: the mismatch is the first such cell, and one answer is used. -/
theorem eraseAttempt_scripted_failure {t : State} (h : AttemptReady t) {x : EraseDraw} {later : List EraseDraw} {b : Bool}
    {answers : List Bool} (h1 : t.eraseScript = x :: later) (h2 : t.cancelIn = b :: answers)
    (hx : leavesUnerased t.cfg.memorySize x) :
    ∃ a, firstBad (erasedArray t.cfg.memorySize x) t.cfg.memorySize 0 = some a ∧
      (eraseRecord (eraseAttempt t)).ok = false ∧ (eraseRecord (eraseAttempt t)).cancelled = b ∧
      (eraseAttempt t).eraseScript = later ∧ (eraseAttempt t).cancelIn = answers ∧
      (eraseAttempt t).mem = erasedArray t.cfg.memorySize x ∧
      (eraseRecord (eraseAttempt t)).failAddr = addressRegister a ∧
      (eraseRecord (eraseAttempt t)).failVal = memRead (erasedArray t.cfg.memorySize x) a := by
  obtain ⟨a, ha⟩ := firstBad_of_leavesUnerased hx
  have he : attemptCells t = erasedArray t.cfg.memorySize x := by rw [attemptCells, eraseOutcome, h1]
  refine ⟨a, ha, ?_⟩
  rw [eraseAttempt_mismatch h (by rw [he]; exact ha)]
  refine ⟨rfl, ?_, ?_, ?_, he, rfl, ?_⟩
  · simp [eraseRecord, cancelAnswer, dropOutcome, h1, h2]
  · simp [addressed, dropOutcome, h1]
  · simp [dropAnswer, dropOutcome, h1, h2]
  · simp [eraseRecord, he]

theorem cleanup_counts : erasePulses eraseCleanupEvents = 0 ∧ mismatchReports eraseCleanupEvents = 0 := ⟨rfl, rfl⟩

end Sys2Proof.Machine
end

