-- ==== Sys2Proof/Laws/Micro.lean ====
section
/-! SUPPORT. Every command's body is a run of micro-operations and then the end of the command: said once, so that a property
of every step is proved on the micro-operations (00_scope.md R15: each line is touched by one component only). -/

namespace Sys2Proof.Machine

/-- One micro-operation of files 40 to 43, or one primitive of R11 that touches no line. -/
inductive Micro : State → State → Prop where
  | address (a : Nat) (s : State) : Micro s (setAddress a s)
  | stage (on : Bool) (s : State) : Micro s (setRegisterOutput on s)
  | select (on : Bool) (s : State) : Micro s (enable on s)
  | direction (input : Bool) (s : State) : Micro s (setDirection input s)
  | outputEnable (m : OutputEnable) (s : State) : Micro s (setOutputEnable m s)
  | addressOverride (m : Override) (s : State) : Micro s (setAddressOverride m s)
  | write (w : Word) (s : State) : Micro s (writeBus w s)
  | read (s : State) : Micro s (readBus s)
  | wait (t : DelayName) (s : State) : Micro s (delay t s)
  | mismatch (k : Nat) (a : Addr) (w v : Word) (s : State) : Micro s (report (.eraseMismatch k a w v) s)
  | poll (s : State) : Micro s (pollCancel s)
  | record (r : EraseRecord) (s : State) : Micro s (setRecord r s)

/-- A run of micro-operations. -/
abbrev Micros : State → State → Prop := Relation.ReflTransGen Micro

theorem Micros.then {s t u : State} (h : Micros s t) (m : Micro t u) : Micros s u := Relation.ReflTransGen.tail h m

/-- A property every micro-operation keeps holds after a run of them. -/
theorem Micros.keeps {P : State → Prop} (hP : ∀ s t, Micro s t → P s → P t) {s t : State} (h : Micros s t) (hs : P s) :
    P t := by
  induction h with
  | refl => exact hs
  | tail _ m ih => exact hP _ _ m ih

/-- A reflexive and transitive relation that holds of every micro-operation from a kept property holds of a run. -/
theorem Micros.relates {P : State → Prop} {R : State → State → Prop} (hr : ∀ s, R s s)
    (ht : ∀ s t u, R s t → R t u → R s u) (hP : ∀ s t, Micro s t → P s → P t ∧ R s t) {s t : State} (h : Micros s t)
    (hs : P s) : P t ∧ R s t := by
  induction h with
  | refl => exact ⟨hs, hr _⟩
  | tail _ m ih => exact ⟨(hP _ _ m ih.1).1, ht _ _ _ ih.2 (hP _ _ m ih.1).2⟩

/-- The end of a command (R34, R190): `cs` as the command writes it, the result registers, no erase record. -/
def commandEnd (i : Instr) (code : Status) (addr : Addr) (data : Word) (s : State) : State :=
  finish i.opcode code addr data { s with cs := cycleAfter i s.cs }

/-! ### The bodies are runs of micro-operations -/

theorem bodyBr_micros (s : State) : ∃ t, Micros s t ∧ bodyBr s = commandEnd .br .ok 0 0 t :=
  ⟨_, .then (.then (.then (.then .refl (.select false _)) (.direction true _)) (.outputEnable .logicHigh _))
    (.addressOverride .normal _), rfl⟩

theorem bodyEr_micros (s : State) : ∃ t, Micros s t ∧ bodyEr s = commandEnd .er .ok 0 0 t :=
  ⟨_, .then (.then (.then .refl (.select false _)) (.outputEnable .logicHigh _)) (.addressOverride .normal _), rfl⟩

theorem bodyBp_micros (s : State) : ∃ t, Micros s t ∧ bodyBp s = commandEnd .bp .ok 0 0 t :=
  ⟨_, .then (.then (.then (.then .refl (.direction false _)) (.outputEnable .highVoltage _)) (.addressOverride .normal _))
    (.stage true _), rfl⟩

theorem bodyEp_micros (s : State) : ∃ t, Micros s t ∧ bodyEp s = commandEnd .ep .ok 0 0 t :=
  ⟨_, .then (.then (.then (.then (.then .refl (.select false _)) (.addressOverride .normal _))
    (.outputEnable .logicHigh _)) (.direction true _)) (.stage false _), rfl⟩

theorem bodyR_micros (a : Addr) (addr : Nat) (s : State) :
    ∃ t, Micros s t ∧ ∃ x w, bodyR addr s = commandEnd (.r a) .ok x w t :=
  ⟨_, .then (.then (.then (.then (.then (.then (.then (.then .refl (.address addr _)) (.stage true _)) (.select true _))
    (.outputEnable .logicLow _)) (.wait .readPulse _)) (.read _)) (.select false _)) (.outputEnable .logicHigh _),
    _, _, rfl⟩

theorem bodyP_micros (a : Addr) (addr : Nat) (w : Word) (s : State) :
    ∃ t, Micros s t ∧ ∃ x, bodyP addr w s = commandEnd (.p a w) .ok x w t :=
  ⟨_, .then (.then (.then (.then (.then (.then (.then .refl (.address addr _)) (.write w _)) (.wait .busSettle _))
    (.select true _)) (.wait .progPulse _)) (.select false _)) (.wait .dataHold _), _, rfl⟩

/-! ### E is a run of micro-operations -/

theorem lightRead_micros (a : Nat) (s : State) : Micros s (lightRead a s) :=
  .then (.then (.then (.then (.then (.then (.then .refl (.address a _)) (.select true _)) (.outputEnable .logicLow _))
    (.wait .readPulse _)) (.read _)) (.select false _)) (.outputEnable .logicHigh _)

theorem verifyStep_micros (s : State) : Micros s (verifyStep s) := by
  simp only [verifyStep]
  split
  · exact (lightRead_micros _ s).then (.record _ _)
  · exact (lightRead_micros _ s).then (.record _ _)

theorem verifyLoop_micros (k : Nat) (s : State) : Micros s (verifyLoop k s) := by
  induction k generalizing s with
  | zero => exact .refl
  | succ k ih =>
    rw [verifyLoop]
    split
    · exact (verifyStep_micros s).trans (ih _)
    · exact .refl

theorem verifyPass_micros (s : State) : Micros s (verifyPass s) :=
  (Micros.then .refl (.record { eraseRecord s with ok := true, vaddr := 0 } s)).trans (verifyLoop_micros _ _)

theorem eraseWaypoint_micros (s : State) : Micros s (eraseWaypoint s) := by
  simp only [eraseWaypoint]
  split
  · exact .refl
  · exact .then (.then (.then .refl (.mismatch _ _ _ _ _)) (.poll _)) (.record _ _)

theorem erasePulseStep_micros (s : State) : Micros s (erasePulseStep s) :=
  .then (.then (.then (.then (.then (.then (.then (.then .refl (.direction false _)) (.addressOverride .highVoltage _))
    (.outputEnable .highVoltage _)) (.address 0 _)) (.write _ _)) (.select true _)) (.wait .erasePulse _)) (.select false _)

theorem eraseSettleStep_micros (s : State) : Micros s (eraseSettleStep s) :=
  .then (.then (.then (.then (.then .refl (.direction true _)) (.outputEnable .logicHigh _)) (.addressOverride .normal _))
    (.select true _)) (.wait .eraseSettle _)

theorem eraseAttempt_micros (s : State) : Micros s (eraseAttempt s) := by
  have h1 : Micros s (setRecord { eraseRecord s with attempt := (eraseRecord s).attempt + 1 } s) :=
    .then .refl (.record _ _)
  have h2 : Micros s _ := h1.trans (erasePulseStep_micros _)
  have h3 : Micros s _ := h2.trans (eraseSettleStep_micros _)
  have h4 : Micros s _ := h3.trans (verifyPass_micros _)
  exact h4.trans (eraseWaypoint_micros _)

theorem eraseLoop_micros (n k : Nat) (s : State) : Micros s (eraseLoop n k s) := by
  induction k generalizing s with
  | zero => exact .refl
  | succ k ih =>
    rw [eraseLoop]
    split
    · exact (eraseAttempt_micros s).trans (ih _)
    · exact .refl

/-- E is a run of micro-operations, its last line, and the record discarded (R33, R151). -/
theorem bodyE_micros (n : Nat) (s : State) : ∃ t, Micros s t ∧ bodyE n s = eraseFinish t :=
  ⟨_, .then (.then (.then (.then (((Micros.then .refl (.stage true s)).then (.record eraseStart _)).trans
    (eraseLoop_micros n n _)) (.select false _)) (.outputEnable .logicHigh _)) (.addressOverride .normal _))
    (.direction true _), rfl⟩

/-! ### What no pin touches -/

theorem selectReaction_frame (v : Assertion) (s : State) :
    selectReaction v s =
      { s with
        mem := (selectReaction v s).mem
        draws := (selectReaction v s).draws
        eraseScript := (selectReaction v s).eraseScript } := by
  unfold selectReaction endOfPulse programPulse erasePulse dropOutcome takeDraw
  repeat (first | rfl | split)

/-- A pin changes its own signal, and by a reaction `S`, `L`, the cells, and what the environment has still to give. -/
theorem pin_frame (p : PinWrite) (s : State) :
    pin p s =
      { s with
        ser := (pin p s).ser, sclk := (pin p s).sclk, rclk := (pin p s).rclk, mr := (pin p s).mr
        sroe := (pin p s).sroe, csel := (pin p s).csel, oel := (pin p s).oel, oeh := (pin p s).oeh
        aov := (pin p s).aov, ddir := (pin p s).ddir, d := (pin p s).d
        shiftReg := (pin p s).shiftReg, latch := (pin p s).latch, mem := (pin p s).mem
        draws := (pin p s).draws, eraseScript := (pin p s).eraseScript
        trace := s.trace ++ [.pin p] } := by
  cases p with
  | cs v =>
    simp only [pin]
    rw [selectReaction_frame]
    rfl
  | ser v => simp only [pin, serReaction]; split <;> rfl
  | sclk v => simp only [pin, clockReaction]; repeat (first | rfl | split)
  | rclk v => simp only [pin, latchReaction]; repeat (first | rfl | split)
  | mr v => simp only [pin, resetReaction]; split <;> rfl
  | sroe v => rfl
  | oel v => rfl
  | oeh v => rfl
  | aov v => rfl
  | ddir v => rfl
  | d w => rfl

/-- What no micro-operation changes, or only extends: the mode, the configuration, the results, the commands to come; the mark
stays set; the trace grows. -/
structure Follows (s t : State) : Prop where
  cs : t.cs = s.cs
  cfg : t.cfg = s.cfg
  commands : t.commands = s.commands
  busy : t.busy = s.busy
  status : t.status = s.status
  raddr : t.raddr = s.raddr
  rdata : t.rdata = s.rdata
  ropc : t.ropc = s.ropc
  fault : s.fault = true → t.fault = true
  trace : ∃ evs, t.trace = s.trace ++ evs

theorem Follows.refl (s : State) : Follows s s := ⟨rfl, rfl, rfl, rfl, rfl, rfl, rfl, rfl, id, [], by simp⟩

theorem Follows.trans {s t u : State} (h : Follows s t) (g : Follows t u) : Follows s u where
  cs := g.cs.trans h.cs
  cfg := g.cfg.trans h.cfg
  commands := g.commands.trans h.commands
  busy := g.busy.trans h.busy
  status := g.status.trans h.status
  raddr := g.raddr.trans h.raddr
  rdata := g.rdata.trans h.rdata
  ropc := g.ropc.trans h.ropc
  fault := g.fault ∘ h.fault
  trace := by
    obtain ⟨e, he⟩ := h.trace
    obtain ⟨f, hf⟩ := g.trace
    exact ⟨e ++ f, by rw [hf, he, List.append_assoc]⟩

theorem pin_follows (p : PinWrite) (s : State) : Follows s (pin p s) := by
  rw [pin_frame]
  exact ⟨rfl, rfl, rfl, rfl, rfl, rfl, rfl, rfl, id, _, rfl⟩

theorem shiftOut_follows (k : Nat) (s : State) : Follows s (shiftOut k s) := by
  induction k generalizing s with
  | zero => exact .refl s
  | succ k ih =>
    exact (((pin_follows _ s).trans (pin_follows _ _)).trans (pin_follows _ _)).trans (ih _)

theorem pulseLatch_follows (s : State) : Follows s (pulseLatch s) := (pin_follows _ s).trans (pin_follows _ _)

theorem redrawRegister_follows (s : State) : Follows s (redrawRegister s) :=
  ⟨rfl, rfl, rfl, rfl, rfl, rfl, rfl, rfl, id, [], by simp [redrawRegister]⟩

/-- set_address in two parts: shift and latch, and the draw of R97 when master reset is asserted. -/
theorem setAddress_cases (a : Nat) (s : State) :
    ∃ v, (s.mr = .asserted ∧ setAddress a s = redrawRegister (pulseLatch (shiftOut 16 { s with vec := v }))) ∨
      (s.mr ≠ .asserted ∧ setAddress a s = pulseLatch (shiftOut 16 { s with vec := v })) := by
  refine ⟨fillVec s.cfg (BitVec.ofNat 16 a) s.vec, ?_⟩
  by_cases h : s.mr = .asserted
  · exact .inl ⟨h, by rw [setAddress, if_pos h]⟩
  · exact .inr ⟨h, by rw [setAddress, if_neg h]⟩

theorem setAddress_follows (a : Nat) (s : State) : Follows s (setAddress a s) := by
  obtain ⟨v, h⟩ := setAddress_cases a s
  have h0 : Follows s { s with vec := v } := ⟨rfl, rfl, rfl, rfl, rfl, rfl, rfl, rfl, id, [], by simp⟩
  have h1 := (h0.trans (shiftOut_follows 16 _)).trans (pulseLatch_follows _)
  rcases h with ⟨_, h⟩ | ⟨_, h⟩
  · rw [h]; exact h1.trans (redrawRegister_follows _)
  · rw [h]; exact h1

theorem micro_follows {s t : State} (h : Micro s t) : Follows s t := by
  cases h with
  | address a s => exact setAddress_follows a s
  | stage on s => exact pin_follows _ s
  | select on s => exact pin_follows _ s
  | direction input s => exact pin_follows _ s
  | outputEnable m s => cases m <;> exact (pin_follows _ s).trans (pin_follows _ _)
  | addressOverride m s => cases m <;> exact pin_follows _ s
  | write w s =>
    simp only [writeBus]
    split
    · have h0 : Follows s { s with dout := w } := ⟨rfl, rfl, rfl, rfl, rfl, rfl, rfl, rfl, id, [], by simp⟩
      exact h0.trans (pin_follows _ _)
    · exact ⟨rfl, rfl, rfl, rfl, rfl, rfl, rfl, rfl, fun _ => rfl, [], by simp⟩
  | read s =>
    simp only [readBus, sample]
    split <;> exact ⟨rfl, rfl, rfl, rfl, rfl, rfl, rfl, rfl, id, _, rfl⟩
  | wait t s => exact ⟨rfl, rfl, rfl, rfl, rfl, rfl, rfl, rfl, id, _, rfl⟩
  | mismatch k a w v s => exact ⟨rfl, rfl, rfl, rfl, rfl, rfl, rfl, rfl, id, _, rfl⟩
  | poll s =>
    simp only [pollCancel, dropAnswer]
    split <;> exact ⟨rfl, rfl, rfl, rfl, rfl, rfl, rfl, rfl, id, _, rfl⟩
  | record r s => exact ⟨rfl, rfl, rfl, rfl, rfl, rfl, rfl, rfl, id, [], by simp⟩

/-- What no run of micro-operations changes. -/
theorem micros_follows {s t : State} (h : Micros s t) : Follows s t :=
  (Micros.relates (P := fun _ => True) Follows.refl (fun _ _ _ => Follows.trans)
    (fun _ _ m _ => ⟨trivial, micro_follows m⟩) h trivial).2

/-! ### Every command is a run of micro-operations and its end -/

/-- What the body of a command does, whichever command it is (R190): a run of micro-operations, then the end, with status `OK`
unless the command is E. -/
inductive BodyRun (i : Instr) (s u : State) : Prop where
  | cycle (t : State) (run : Micros s t) (addr : Addr) (data : Word) (plain : ∀ n, i ≠ .e n)
      (eq : u = commandEnd i .ok addr data t)
  | erase (t : State) (run : Micros s t) (n : Nat) (isE : i = .e n) (eq : u = eraseFinish t)

/-- What `exec` does when it answers a next state (R36, R132): a strict rejection, or the body, marked if the state was not the
required one. -/
inductive ExecRun (i : Instr) (s u : State) : Prop where
  | rejected (cs : s.cs ≠ required i) (strict : s.cfg.strict = true)
      (eq : u = finish i.opcode .seqViolation 0 0
        (emit (.report (.sequencingViolation i.opcode s.cs (required i))) { s with busy := true }))
  | ran (cs : s.cs = required i) (body : BodyRun i { s with busy := true } u)
  | marked (cs : s.cs ≠ required i) (strict : s.cfg.strict = false)
      (body : BodyRun i { s with busy := true, fault := true } u)

theorem check_run {i : Instr} {body : State → State} (hb : ∀ s, BodyRun i s (body s)) {s u : State}
    (h : accept (check i.opcode (required i) body) s = .next u) : Ready s ∧ ExecRun i s u := by
  obtain ⟨hr, hu⟩ := accept_next h
  refine ⟨hr, ?_⟩
  rcases check_cases i.opcode (required i) body { s with busy := true } with ⟨hc, he⟩ | ⟨hc, hs, he⟩ | ⟨hc, hs, he⟩
  · exact .ran hc (by rw [hu, he]; exact hb _)
  · exact .rejected hc hs (by rw [hu, he])
  · exact .marked hc hs (by rw [hu, he]; exact hb _)

/-- Everything `exec` can do when it answers a next state. -/
theorem exec_run {i : Instr} {s u : State} (h : exec i s = .next u) : Ready s ∧ ExecRun i s u := by
  cases i with
  | br =>
    exact check_run (i := .br) (fun s => by
      obtain ⟨t, m, e⟩ := bodyBr_micros s
      exact .cycle t m _ _ (fun _ => nofun) e) h
  | r a =>
    exact check_run (i := .r a) (fun s' => by
      obtain ⟨t, m, x, w, e⟩ := bodyR_micros a (addressOperand s.cfg a) s'
      exact .cycle t m x w (fun _ => nofun) e) h
  | er =>
    exact check_run (i := .er) (fun s => by
      obtain ⟨t, m, e⟩ := bodyEr_micros s
      exact .cycle t m _ _ (fun _ => nofun) e) h
  | bp =>
    exact check_run (i := .bp) (fun s => by
      obtain ⟨t, m, e⟩ := bodyBp_micros s
      exact .cycle t m _ _ (fun _ => nofun) e) h
  | p a w =>
    exact check_run (i := .p a w) (fun s' => by
      obtain ⟨t, m, x, e⟩ := bodyP_micros a (addressOperand s.cfg a) w s'
      exact .cycle t m x w (fun _ => nofun) e) h
  | ep =>
    exact check_run (i := .ep) (fun s => by
      obtain ⟨t, m, e⟩ := bodyEp_micros s
      exact .cycle t m _ _ (fun _ => nofun) e) h
  | e n =>
    exact check_run (i := .e n) (fun s => by
      obtain ⟨t, m, e⟩ := bodyE_micros n s
      exact .erase t m n rfl e) h

end Sys2Proof.Machine
end

