-- ==== Sys2Proof/Laws/Mode.lean ====
section
/-! SUPPORT. No micro-operation and no command body reads `cs` (10_state.md R23: it is "read by every command's precondition
check" and by nothing else): running one after writing `cs` is running it and then writing `cs`. -/

namespace Sys2Proof.Machine

/-- The state with another mode. -/
def withMode (c : CycleState) (s : State) : State := { s with cs := c }

variable (c : CycleState) (s : State)

theorem withMode_emit (x : Event) : emit x (withMode c s) = withMode c (emit x s) := rfl

theorem withMode_delay (t : DelayName) : delay t (withMode c s) = withMode c (delay t s) := rfl

theorem withMode_report (x : Report) : report x (withMode c s) = withMode c (report x s) := rfl

theorem withMode_setRecord (r : EraseRecord) : setRecord r (withMode c s) = withMode c (setRecord r s) := rfl

theorem withMode_busValue : busValue (withMode c s) = busValue s := rfl

theorem withMode_eraseRecord : eraseRecord (withMode c s) = eraseRecord s := rfl

theorem withMode_cancelAnswer : cancelAnswer (withMode c s) = cancelAnswer s := rfl

theorem withMode_takeDraw : takeDraw (withMode c s) = withMode c (takeDraw s) := rfl

theorem withMode_redrawRegister : redrawRegister (withMode c s) = withMode c (redrawRegister s) := rfl

theorem withMode_dropAnswer : dropAnswer (withMode c s) = withMode c (dropAnswer s) := by
  have none : ∀ t : State, t.cancelIn = [] → dropAnswer t = takeDraw t := fun t h => by unfold dropAnswer; rw [h]
  have some : ∀ (t : State) (b : Bool) (bs : List Bool), t.cancelIn = b :: bs → dropAnswer t = { t with cancelIn := bs } :=
    fun t b bs h => by unfold dropAnswer; rw [h]
  cases h : s.cancelIn with
  | nil => rw [none (withMode c s) h, none s h, withMode_takeDraw]
  | cons b bs => rw [some (withMode c s) b bs h, some s b bs h]; rfl

theorem withMode_pollCancel : pollCancel (withMode c s) = withMode c (pollCancel s) := by
  unfold pollCancel
  rw [withMode_dropAnswer, withMode_cancelAnswer, withMode_emit]

theorem withMode_sample : sample (withMode c s) = withMode c (sample s) := by
  unfold sample
  by_cases h : BusDriven s
  · rw [if_pos (show BusDriven (withMode c s) from h), if_pos h]
    rfl
  · rw [if_neg (show ¬BusDriven (withMode c s) from h), if_neg h]
    rfl

theorem withMode_programPulse : programPulse (withMode c s) = withMode c (programPulse s) := by
  unfold programPulse
  by_cases h : s.ddir = .output ∧ s.sroe = .on
  · rw [if_pos (show (withMode c s).ddir = .output ∧ (withMode c s).sroe = .on from h), if_pos h]
    rfl
  · rw [if_neg (show ¬((withMode c s).ddir = .output ∧ (withMode c s).sroe = .on) from h), if_neg h]
    rfl

theorem withMode_dropOutcome : dropOutcome (withMode c s) = withMode c (dropOutcome s) := by
  have none : ∀ t : State, t.eraseScript = [] → dropOutcome t = takeDraw t := fun t h => by unfold dropOutcome; rw [h]
  have some : ∀ (t : State) (x : EraseDraw) (xs : List EraseDraw), t.eraseScript = x :: xs →
      dropOutcome t = { t with eraseScript := xs } := fun t x xs h => by unfold dropOutcome; rw [h]
  cases h : s.eraseScript with
  | nil => rw [none (withMode c s) h, none s h, withMode_takeDraw]
  | cons x xs => rw [some (withMode c s) x xs h, some s x xs h]; rfl

theorem withMode_erasePulse : erasePulse (withMode c s) = withMode c (erasePulse s) := by
  unfold erasePulse
  rw [withMode_dropOutcome]
  rfl

theorem withMode_endOfPulse : endOfPulse (withMode c s) = withMode c (endOfPulse s) := by
  unfold endOfPulse
  rw [withMode_programPulse, withMode_erasePulse]
  by_cases h : outputEnableMode s = some .highVoltage
  · rw [if_pos (show outputEnableMode (withMode c s) = some .highVoltage from h), if_pos h]
    cases h : s.aov with
    | off => simp only [show (withMode c s).aov = .off from h]
    | on => simp only [show (withMode c s).aov = .on from h]
  · rw [if_neg (show ¬outputEnableMode (withMode c s) = some .highVoltage from h), if_neg h]

theorem withMode_selectReaction (v : Assertion) : selectReaction v (withMode c s) = withMode c (selectReaction v s) := by
  unfold selectReaction
  rw [withMode_endOfPulse]
  by_cases h : v = .deasserted ∧ s.csel = .asserted
  · rw [if_pos (show v = .deasserted ∧ (withMode c s).csel = .asserted from h), if_pos h]
  · rw [if_neg (show ¬(v = .deasserted ∧ (withMode c s).csel = .asserted) from h), if_neg h]

theorem withMode_serReaction (v : Bool) : serReaction v (withMode c s) = withMode c (serReaction v s) := by
  unfold serReaction
  by_cases h : s.sclk = true ∧ s.ser ≠ v
  · rw [if_pos (show (withMode c s).sclk = true ∧ (withMode c s).ser ≠ v from h), if_pos h, withMode_redrawRegister]
  · rw [if_neg (show ¬((withMode c s).sclk = true ∧ (withMode c s).ser ≠ v) from h), if_neg h]

theorem withMode_clockReaction (v : Bool) : clockReaction v (withMode c s) = withMode c (clockReaction v s) := by
  unfold clockReaction
  by_cases h : v = true ∧ s.sclk = false ∧ s.mr = .deasserted
  · rw [if_pos (show v = true ∧ (withMode c s).sclk = false ∧ (withMode c s).mr = .deasserted from h), if_pos h]
    by_cases g : s.rclk = true
    · rw [if_pos (show (withMode c s).rclk = true from g), if_pos g]
      rfl
    · rw [if_neg (show ¬(withMode c s).rclk = true from g), if_neg g]
      rfl
  · rw [if_neg (show ¬(v = true ∧ (withMode c s).sclk = false ∧ (withMode c s).mr = .deasserted) from h), if_neg h]

theorem withMode_latchReaction (v : Bool) : latchReaction v (withMode c s) = withMode c (latchReaction v s) := by
  unfold latchReaction
  by_cases h : v = true ∧ s.rclk = false ∧ s.mr = .deasserted
  · rw [if_pos (show v = true ∧ (withMode c s).rclk = false ∧ (withMode c s).mr = .deasserted from h), if_pos h]
    by_cases g : s.sclk = true
    · rw [if_pos (show (withMode c s).sclk = true from g), if_pos g]
      rfl
    · rw [if_neg (show ¬(withMode c s).sclk = true from g), if_neg g]
      rfl
  · rw [if_neg (show ¬(v = true ∧ (withMode c s).rclk = false ∧ (withMode c s).mr = .deasserted) from h), if_neg h]

theorem withMode_pin (p : PinWrite) : pin p (withMode c s) = withMode c (pin p s) := by
  cases p with
  | ser v => unfold pin; dsimp only; rw [withMode_serReaction]; rfl
  | sclk v => unfold pin; dsimp only; rw [withMode_clockReaction]; rfl
  | rclk v => unfold pin; dsimp only; rw [withMode_latchReaction]; rfl
  | cs v => unfold pin; dsimp only; rw [withMode_selectReaction]; rfl
  | mr v => cases v <;> rfl
  | _ => rfl

theorem withMode_shiftOut (k : Nat) : shiftOut k (withMode c s) = withMode c (shiftOut k s) := by
  induction k generalizing s with
  | zero => rfl
  | succ k ih =>
    rw [shiftOut, shiftOut, ← ih]
    unfold shiftBit
    rw [withMode_pin, withMode_pin, withMode_pin]
    rfl

theorem withMode_setAddress (a : Nat) : setAddress a (withMode c s) = withMode c (setAddress a s) := by
  unfold setAddress pulseLatch
  generalize hu : ({ s with vec := fillVec s.cfg (BitVec.ofNat 16 a) s.vec } : State) = u
  rw [show ({ withMode c s with vec := fillVec (withMode c s).cfg (BitVec.ofNat 16 a) (withMode c s).vec } : State) =
    withMode c u by rw [← hu]; rfl, withMode_shiftOut, withMode_pin, withMode_pin]
  by_cases h : s.mr = .asserted
  · simp only [if_pos (show (withMode c s).mr = .asserted from h), if_pos h, withMode_redrawRegister]
  · simp only [if_neg (show ¬(withMode c s).mr = .asserted from h), if_neg h]

theorem withMode_setOutputEnable (m : OutputEnable) :
    setOutputEnable m (withMode c s) = withMode c (setOutputEnable m s) := by
  cases m <;> (unfold setOutputEnable; dsimp only; rw [withMode_pin, withMode_pin])

theorem withMode_setAddressOverride (m : Override) :
    setAddressOverride m (withMode c s) = withMode c (setAddressOverride m s) := by
  cases m <;> exact withMode_pin ..

theorem withMode_setDirection (b : Bool) : setDirection b (withMode c s) = withMode c (setDirection b s) := withMode_pin ..

theorem withMode_enable (b : Bool) : enable b (withMode c s) = withMode c (enable b s) := withMode_pin ..

theorem withMode_setRegisterOutput (b : Bool) :
    setRegisterOutput b (withMode c s) = withMode c (setRegisterOutput b s) := withMode_pin ..

theorem withMode_writeBus (w : Word) : writeBus w (withMode c s) = withMode c (writeBus w s) := by
  unfold writeBus
  by_cases h : s.ddir = .output
  · rw [if_pos (show (withMode c s).ddir = .output from h), if_pos h]
    rfl
  · rw [if_neg (show ¬(withMode c s).ddir = .output from h), if_neg h]
    rfl

theorem withMode_lightReadSetup (a : Nat) : lightReadSetup a (withMode c s) = withMode c (lightReadSetup a s) := by
  unfold lightReadSetup
  simp only [withMode_setAddress, withMode_enable, withMode_setOutputEnable, withMode_delay]

theorem withMode_lightReadValue (a : Nat) : lightReadValue a (withMode c s) = lightReadValue a s := by
  unfold lightReadValue readBusValue
  rw [withMode_lightReadSetup, withMode_busValue]

theorem withMode_lightRead (a : Nat) : lightRead a (withMode c s) = withMode c (lightRead a s) := by
  unfold lightRead lightReadEnd readBus
  simp only [withMode_lightReadSetup, withMode_sample, withMode_enable, withMode_setOutputEnable]

theorem withMode_verifyStep : verifyStep (withMode c s) = withMode c (verifyStep s) := by
  unfold verifyStep
  simp only [withMode_eraseRecord, withMode_lightReadValue, withMode_lightRead, withMode_setRecord]
  split <;> rfl

theorem withMode_verifyLoop (k : Nat) : verifyLoop k (withMode c s) = withMode c (verifyLoop k s) := by
  induction k generalizing s with
  | zero => rfl
  | succ k ih =>
    rw [verifyLoop, verifyLoop, withMode_verifyStep, ih, withMode_eraseRecord, show (withMode c s).cfg = s.cfg from rfl]
    split <;> rfl

theorem withMode_verifyPass : verifyPass (withMode c s) = withMode c (verifyPass s) := by
  unfold verifyPass
  rw [withMode_eraseRecord, withMode_setRecord, withMode_verifyLoop]
  rfl

theorem withMode_eraseWaypoint : eraseWaypoint (withMode c s) = withMode c (eraseWaypoint s) := by
  unfold eraseWaypoint
  simp only [withMode_eraseRecord, withMode_report, withMode_cancelAnswer, withMode_pollCancel, withMode_setRecord]
  split <;> rfl

theorem withMode_eraseAttempt : eraseAttempt (withMode c s) = withMode c (eraseAttempt s) := by
  unfold eraseAttempt erasePulseStep eraseSettleStep
  simp only [withMode_eraseRecord, withMode_setRecord, withMode_setDirection, withMode_setAddressOverride,
    withMode_setOutputEnable, withMode_setAddress, withMode_writeBus, withMode_enable, withMode_delay, withMode_verifyPass,
    withMode_eraseWaypoint]

theorem withMode_eraseLoop (n k : Nat) : eraseLoop n k (withMode c s) = withMode c (eraseLoop n k s) := by
  induction k generalizing s with
  | zero => rfl
  | succ k ih =>
    rw [eraseLoop, eraseLoop, withMode_eraseAttempt, ih, withMode_eraseRecord]
    split <;> rfl

/-! ### The bodies of the commands -/

theorem withMode_finish (o : BitVec 4) (k : Status) (a : Addr) (w : Word) :
    finish o k a w (withMode c s) = withMode c (finish o k a w s) := rfl

theorem bodyBr_withMode : bodyBr (withMode c s) = bodyBr s := by
  unfold bodyBr
  simp only [withMode_enable, withMode_setDirection, withMode_setOutputEnable, withMode_setAddressOverride]
  rfl

theorem bodyR_withMode (a : Nat) : bodyR a (withMode c s) = withMode c (bodyR a s) := by
  unfold bodyR readSetup readBusValue readBus
  simp only [withMode_setAddress, withMode_setRegisterOutput, withMode_enable, withMode_setOutputEnable, withMode_delay,
    withMode_busValue, withMode_sample, withMode_finish]

theorem bodyEr_withMode : bodyEr (withMode c s) = bodyEr s := by
  unfold bodyEr
  simp only [withMode_enable, withMode_setOutputEnable, withMode_setAddressOverride]
  rfl

theorem bodyBp_withMode : bodyBp (withMode c s) = bodyBp s := by
  unfold bodyBp
  simp only [withMode_setDirection, withMode_setOutputEnable, withMode_setAddressOverride, withMode_setRegisterOutput]
  rfl

theorem bodyP_withMode (a : Nat) (w : Word) : bodyP a w (withMode c s) = withMode c (bodyP a w s) := by
  unfold bodyP
  simp only [withMode_setAddress, withMode_writeBus, withMode_enable, withMode_delay, withMode_finish]

theorem bodyEp_withMode : bodyEp (withMode c s) = bodyEp s := by
  unfold bodyEp
  simp only [withMode_enable, withMode_setAddressOverride, withMode_setOutputEnable, withMode_setDirection,
    withMode_setRegisterOutput]
  rfl

theorem bodyE_withMode (n : Nat) : bodyE n (withMode c s) = withMode c (bodyE n s) := by
  unfold bodyE eraseCleanup eraseFinish
  simp only [withMode_setRegisterOutput, withMode_setRecord, withMode_eraseLoop, withMode_enable,
    withMode_setOutputEnable, withMode_setAddressOverride, withMode_setDirection, withMode_eraseRecord]
  rfl

end Sys2Proof.Machine
end

