-- ==== Sys2Proof/Laws/PerInstr.lean ====
section
/-! SUPPORT. What holds of the word of every command, one lemma per constructor: its opcode field is the opcode of the command
and its reserved field is zero (30_encoding.md R75, R76). -/

namespace Sys2Proof.Laws.Encoding

/-- The word of the command has the command's opcode and a zero reserved field. -/
def Statement (i : Instr) : Prop := fieldOpc (encode i) = i.opcode ∧ fieldRsv (encode i) = 0

theorem br : Statement .br := ⟨fieldOpc_wordOf .., fieldRsv_wordOf ..⟩

theorem r (addr : Addr) : Statement (.r addr) := ⟨fieldOpc_wordOf .., fieldRsv_wordOf ..⟩

theorem er : Statement .er := ⟨fieldOpc_wordOf .., fieldRsv_wordOf ..⟩

theorem bp : Statement .bp := ⟨fieldOpc_wordOf .., fieldRsv_wordOf ..⟩

theorem p (addr : Addr) (word : Word) : Statement (.p addr word) := ⟨fieldOpc_wordOf .., fieldRsv_wordOf ..⟩

theorem ep : Statement .ep := ⟨fieldOpc_wordOf .., fieldRsv_wordOf ..⟩

theorem e (maxAttempts : Nat) : Statement (.e maxAttempts) := ⟨fieldOpc_wordOf .., fieldRsv_wordOf ..⟩

end Sys2Proof.Laws.Encoding
end

