-- ==== Sys2Proof/Laws/Steps.lean ====
section
/-! SUPPORT. What a step and a command can do, said once for all commands: a command of a ready machine answers; a step is an
idle wait, a command or an illegal word; what every command leaves alone; and the properties every micro-operation keeps. -/

namespace Sys2Proof.Machine

/-- On a ready machine every command answers a next state (R190). -/
theorem exec_ready (i : Instr) {s : State} (h : Ready s) : ∃ t, exec i s = .next t := by
  cases i <;> exact ⟨_, accept_ready _ h⟩

/-- The three things a step can be when it answers: waiting (R217), a command (R16), an illegal word (R198). -/
theorem step_run {s t : State} (h : step s = .next t) :
    (s.commands = [] ∧ t = s) ∨
    ∃ w rest, s.commands = w :: rest ∧
      ((∃ i, decode w = .ok i ∧ exec i { s with commands := rest } = .next t) ∨
        ((∀ i, decode w ≠ .ok i) ∧ Ready s ∧
          t = finish (fieldOpc w) .illegal 0 0 { s with commands := rest, busy := true })) := by
  unfold step at h
  split at h
  · cases h
    exact .inl ⟨by assumption, rfl⟩
  · rename_i w rest hc
    refine .inr ⟨w, rest, hc, ?_⟩
    split at h
    · exact .inl ⟨_, by assumption, h⟩
    · rename_i e he
      obtain ⟨a, b⟩ := accept_next h
      exact .inr ⟨by simp [he], a, b⟩

theorem eraseStatus_ne_seqViolation (r : EraseRecord) : eraseStatus r ≠ .seqViolation := by
  unfold eraseStatus
  split
  · simp
  · split <;> simp

/-- A body that ran ends in the mode of R133, with no strict rejection, and keeps the mark. -/
theorem bodyRun_mode {i : Instr} {s u : State} (h : BodyRun i s u) :
    u.cs = cycleAfter i s.cs ∧ u.status ≠ .seqViolation ∧ (s.fault = true → u.fault = true) := by
  cases h with
  | cycle t run a d p eq =>
    have hf := micros_follows run
    subst eq
    exact ⟨by simp [commandEnd, finish, hf.cs], by simp [commandEnd, finish], hf.fault⟩
  | erase t run n isE eq =>
    have hf := micros_follows run
    subst eq isE
    exact ⟨hf.cs, eraseStatus_ne_seqViolation _, hf.fault⟩

/-- What no command changes, or only extends, read off a body that ran. -/
theorem bodyRun_frame {i : Instr} {s u : State} (h : BodyRun i s u) :
    u.cfg = s.cfg ∧ u.commands = s.commands ∧ (s.fault = true → u.fault = true) ∧ ∃ evs, u.trace = s.trace ++ evs := by
  cases h with
  | cycle t run a d p eq =>
    have hf := micros_follows run
    subst eq
    exact ⟨hf.cfg, hf.commands, hf.fault, hf.trace⟩
  | erase t run n isE eq =>
    have hf := micros_follows run
    subst eq
    exact ⟨hf.cfg, hf.commands, hf.fault, hf.trace⟩

/-- What no command changes, or only extends. -/
theorem exec_frame {i : Instr} {s t : State} (h : exec i s = .next t) :
    t.cfg = s.cfg ∧ t.commands = s.commands ∧ (s.fault = true → t.fault = true) ∧ ∃ evs, t.trace = s.trace ++ evs := by
  cases (exec_run h).2 with
  | rejected cs strict eq => subst eq; exact ⟨rfl, rfl, id, _, rfl⟩
  | ran cs body =>
    have hb := bodyRun_frame body
    exact hb
  | marked cs strict body =>
    have hb := bodyRun_frame body
    exact ⟨hb.1, hb.2.1, fun _ => hb.2.2.1 rfl, hb.2.2.2⟩

/-! ### What every micro-operation keeps -/

/-- The part of `Between` that holds inside a command too. -/
abbrev Kept (s : State) : Prop :=
  s.cfg.wf ∧ SerialIdle s ∧ DriversExclusive s ∧ Memory.wf s.cfg.memorySize s.mem = true ∧
    ∀ w, s.d = some w → s.dout = w

theorem devAddr_lt {s : State} (h : s.cfg.wf) : devAddr s < s.cfg.memorySize := by
  have := h.1
  unfold devAddr
  split <;> exact Nat.mod_lt _ (by omega)

/-- The end of a pulse keeps the cells canonical (R65, R66). -/
theorem endOfPulse_wf {s : State} (hw : s.cfg.wf) (h : Memory.wf s.cfg.memorySize s.mem = true) :
    Memory.wf s.cfg.memorySize (endOfPulse s).mem = true := by
  simp only [endOfPulse]
  split
  · split
    · simp only [programPulse]
      split <;> exact memWrite_wf h _ (devAddr_lt hw)
    · exact erasedArray_wf _ _
  · exact h

theorem selectReaction_wf {s : State} (v : Assertion) (hw : s.cfg.wf) (h : Memory.wf s.cfg.memorySize s.mem = true) :
    Memory.wf s.cfg.memorySize (selectReaction v s).mem = true := by
  simp only [selectReaction]
  split
  · exact endOfPulse_wf hw h
  · exact h

/-- Every micro-operation keeps it, in marked runs too. -/
theorem micro_kept {s t : State} (m : Micro s t) (h : Kept s) : Kept t := by
  obtain ⟨hw, hi, hx, hm, hd⟩ := h
  cases m with
  | address a => rw [setAddress_eq a hw.2.2 hi]; exact ⟨hw, hi, hx, hm, hd⟩
  | stage on => exact ⟨hw, hi, hx, hm, hd⟩
  | select on =>
    have hf := selectReaction_frame (if on then .asserted else .deasserted) s
    have hm' := selectReaction_wf (if on then .asserted else .deasserted) hw hm
    simp only [enable, pin]
    rw [hf]
    exact ⟨hw, hi, hx, hm', hd⟩
  | direction input => exact ⟨hw, hi, hx, hm, hd⟩
  | outputEnable m =>
    refine ⟨by cases m <;> exact hw, by cases m <;> exact hi, ?_, by cases m <;> exact hm, by cases m <;> exact hd⟩
    cases m <;> simp [DriversExclusive, setOutputEnable]
  | addressOverride m => cases m <;> exact ⟨hw, hi, hx, hm, hd⟩
  | write w =>
    simp only [writeBus]
    split
    · exact ⟨hw, hi, hx, hm, fun v hv => by simpa using hv⟩
    · exact ⟨hw, hi, hx, hm, hd⟩
  | read =>
    simp only [readBus, sample]
    split <;> exact ⟨hw, hi, hx, hm, hd⟩
  | wait t => exact ⟨hw, hi, hx, hm, hd⟩
  | mismatch => exact ⟨hw, hi, hx, hm, hd⟩
  | poll =>
    simp only [pollCancel, dropAnswer]
    split <;> exact ⟨hw, hi, hx, hm, hd⟩
  | record => exact ⟨hw, hi, hx, hm, hd⟩

theorem bodyRun_kept {i : Instr} {s u : State} (h : BodyRun i s u) (hk : Kept s) : Kept u ∧ u.busy = false := by
  cases h with
  | cycle t run a d p eq =>
    have hf := run.keeps (fun _ _ => micro_kept) hk
    subst eq
    exact ⟨hf, rfl⟩
  | erase t run n isE eq =>
    have hf := run.keeps (fun _ _ => micro_kept) hk
    subst eq
    exact ⟨hf, rfl⟩

theorem exec_kept {i : Instr} {s t : State} (h : exec i s = .next t) (hk : Kept s) : Kept t ∧ t.busy = false := by
  cases (exec_run h).2 with
  | rejected cs strict eq => subst eq; exact ⟨hk, rfl⟩
  | ran cs body => exact bodyRun_kept body hk
  | marked cs strict body => exact bodyRun_kept body hk

/-! ### The device is deselected and the record gone at the end of a command -/

/-- No pin and no micro-operation but the engine's own touches the erase record. -/
theorem pin_erase (p : PinWrite) (s : State) : (pin p s).erase = s.erase := by rw [pin_frame]

theorem shiftOut_erase (k : Nat) (s : State) : (shiftOut k s).erase = s.erase := by
  induction k generalizing s with
  | zero => rfl
  | succ k ih => rw [shiftOut, ih]; simp only [shiftBit, pin_erase]

theorem setAddress_erase (a : Nat) (s : State) : (setAddress a s).erase = s.erase := by
  have hr : ∀ x : State, (redrawRegister x).erase = x.erase := fun _ => rfl
  obtain ⟨v, h | h⟩ := setAddress_cases a s
  · rw [h.2, hr]; simp only [pulseLatch, pin_erase, shiftOut_erase]
  · rw [h.2]; simp only [pulseLatch, pin_erase, shiftOut_erase]

theorem setOutputEnable_erase (m : OutputEnable) (s : State) : (setOutputEnable m s).erase = s.erase := by
  cases m <;> simp only [setOutputEnable, pin_erase]

theorem setOutputEnable_csel (m : OutputEnable) (s : State) : (setOutputEnable m s).csel = s.csel := by
  cases m <;> rfl

theorem setAddressOverride_csel (m : Override) (s : State) : (setAddressOverride m s).csel = s.csel := by
  cases m <;> rfl

theorem readBus_erase (s : State) : (readBus s).erase = s.erase := by
  simp only [readBus, sample]
  split <;> rfl

theorem writeBus_erase (w : Word) (s : State) : (writeBus w s).erase = s.erase := by
  simp only [writeBus]
  split <;> rfl

/-- Every command that finds the device deselected and no erase record leaves both so, in marked runs too. -/
theorem exec_deselected {i : Instr} {s t : State} (h : exec i s = .next t) (hc : s.csel = .deasserted)
    (he : s.erase = none) : t.csel = .deasserted ∧ t.erase = none := by
  have key : ∀ {i : Instr} {body : State → State},
      (∀ u : State, u.csel = .deasserted → u.erase = none → (body u).csel = .deasserted ∧ (body u).erase = none) →
      accept (check i.opcode (required i) body) s = .next t → t.csel = .deasserted ∧ t.erase = none := by
    intro i body hb ha
    obtain ⟨hr, hu⟩ := accept_next ha
    rcases check_cases i.opcode (required i) body { s with busy := true } with ⟨_, e⟩ | ⟨_, _, e⟩ | ⟨_, _, e⟩
    · rw [hu, e]; exact hb _ hc he
    · rw [hu, e]; exact ⟨hc, he⟩
    · rw [hu, e]; exact hb _ hc he
  cases i with
  | br => exact key (i := .br) (fun u hc he => by rw [bodyBr_eq hc]; exact ⟨hc, he⟩) h
  | er => exact key (i := .er) (fun u hc he => by rw [bodyEr_eq hc]; exact ⟨hc, he⟩) h
  | bp => exact key (i := .bp) (fun u hc he => by rw [bodyBp_eq]; exact ⟨hc, he⟩) h
  | ep => exact key (i := .ep) (fun u hc he => by rw [bodyEp_eq hc]; exact ⟨hc, he⟩) h
  | r a =>
    refine key (i := .r a) (fun u _ he => ⟨?_, ?_⟩) h
    · simp only [bodyR]
      show (setOutputEnable _ _).csel = _
      rw [setOutputEnable_csel]; rfl
    · simp only [bodyR, readSetup]
      show (setOutputEnable _ _).erase = _
      simp only [setOutputEnable_erase, enable, pin_erase, readBus_erase, delay, emit_erase, setRegisterOutput,
        setAddress_erase, he]
  | p a w =>
    refine key (i := .p a w) (fun u _ he => ⟨rfl, ?_⟩) h
    simp only [bodyP]
    show (delay .dataHold (enable false _)).erase = _
    simp only [enable, pin_erase, writeBus_erase, delay, emit_erase, setAddress_erase, he]
  | e n =>
    refine key (i := .e n) (fun u _ _ => ⟨?_, rfl⟩) h
    simp only [bodyE]
    generalize eraseLoop n n _ = x
    show (setAddressOverride .normal (setOutputEnable .logicHigh (enable false x))).csel = _
    rw [setAddressOverride_csel, setOutputEnable_csel]; rfl

/-- R leaves the cells alone and ends with the device deselected, whatever the bus and the override (R57). -/
theorem bodyR_cells (addr : Nat) {s : State} (hb : s.cfg.bijective) (h : SerialIdle s) :
    (bodyR addr s).mem = s.mem ∧ (bodyR addr s).csel = .deasserted := by
  have he : ∀ t : State, t.oel = .low → enable false t = emit (.pin (.cs .deasserted)) { t with csel := .deasserted } := by
    intro t ht
    refine pin_cs_deasserted_low ?_
    rw [outputEnableMode, ht]
    cases t.oeh <;> simp [oeMode]
  have hs : ∀ t : State, (readBus t).oel = t.oel ∧ (readBus t).mem = t.mem := by
    intro t
    simp only [readBus, sample]
    split <;> exact ⟨rfl, rfl⟩
  have h1 : (readBus (readSetup addr s)).oel = .low := by rw [(hs _).1, readSetup_eq addr hb h]
  have h2 : (readBus (readSetup addr s)).mem = s.mem := by rw [(hs _).2, readSetup_eq addr hb h]; rfl
  simp only [bodyR]
  generalize readBus (readSetup addr s) = x at *
  rw [he _ h1, setOutputEnable_logicHigh]
  exact ⟨h2, rfl⟩

end Sys2Proof.Machine
end

