-- ==== Sys2Proof/Laws/Trace.lean ====
section
/-! SUPPORT. Properties along the trace: how `runsBy` composes, what one event does to the levels, and the induction that
takes a property of every micro-operation to every step. -/

namespace Sys2Proof.Machine

theorem linesAfter_append (l : Lines) (a b : List Event) : linesAfter l (a ++ b) = linesAfter (linesAfter l a) b := by
  simp only [linesAfter, List.foldl_append]

theorem allAllowed_append {ok : Lines → Event → Prop} (l : Lines) (a b : List Event) :
    allAllowed ok l (a ++ b) ↔ allAllowed ok l a ∧ allAllowed ok (linesAfter l a) b := by
  induction a generalizing l with
  | nil => simp [allAllowed, linesAfter]
  | cons x a ih => simp only [List.cons_append, allAllowed, ih, linesAfter, List.foldl_cons, and_assoc]

/-- A condition may be replaced by another that it gives wherever a kept property of the levels holds. -/
theorem allAllowed_mono {ok ok' : Lines → Event → Prop} {I : Lines → Prop}
    (h : ∀ l x, I l → ok l x → ok' l x ∧ I (lineStep l x)) {l : Lines} {evs : List Event} (hi : I l)
    (ha : allAllowed ok l evs) : allAllowed ok' l evs := by
  induction evs generalizing l with
  | nil => trivial
  | cons x evs ih => exact ⟨(h l x hi ha.1).1, ih (h l x hi ha.1).2 ha.2⟩

theorem runsBy_refl {ok : Lines → Event → Prop} (s : State) : runsBy ok s s := ⟨[], by simp, rfl, trivial⟩

theorem runsBy_trans {ok : Lines → Event → Prop} {s t u : State} (h : runsBy ok s t) (g : runsBy ok t u) :
    runsBy ok s u := by
  obtain ⟨a, a1, a2, a3⟩ := h
  obtain ⟨b, b1, b2, b3⟩ := g
  refine ⟨a ++ b, by rw [b1, a1, List.append_assoc], ?_, ?_⟩
  · rw [linesAfter_append, a2, b2]
  · rw [allAllowed_append]
    exact ⟨a3, by rw [a2]; exact b3⟩

/-- A pin event moves the levels as `lineStep` says, whatever the register and the device do (R24). -/
theorem linesOf_pin (p : PinWrite) (s : State) : linesOf (pin p s) = lineStep (linesOf s) (.pin p) := by
  cases p with
  | cs v => simp only [pin]; rw [selectReaction_frame]; rfl
  | ser v => simp only [pin, serReaction]; split <;> rfl
  | sclk v => simp only [pin, clockReaction]; repeat (first | rfl | split)
  | rclk v => simp only [pin, latchReaction]; repeat (first | rfl | split)
  | mr v => simp only [pin, resetReaction]; split <;> rfl
  | sroe v => rfl
  | oel v => rfl
  | oeh v => rfl
  | aov v => rfl
  | ddir v => rfl
  | d w => rfl

theorem runsBy_pin {ok : Lines → Event → Prop} {p : PinWrite} {s : State} (h : ok (linesOf s) (.pin p)) :
    runsBy ok s (pin p s) := ⟨[.pin p], by rw [pin_frame], (linesOf_pin p s).symm, h, trivial⟩

theorem runsBy_two_pins {ok : Lines → Event → Prop} {p q : PinWrite} {s : State} (h : ok (linesOf s) (.pin p))
    (g : ok (lineStep (linesOf s) (.pin p)) (.pin q)) : runsBy ok s (pin q (pin p s)) :=
  runsBy_trans (runsBy_pin h) (runsBy_pin (by rw [linesOf_pin]; exact g))

/-- One event that moves no level. -/
theorem runsBy_event {ok : Lines → Event → Prop} {x : Event} {s t : State} (h1 : t.trace = s.trace ++ [x])
    (h2 : linesOf t = linesOf s) (h3 : lineStep (linesOf s) x = linesOf s) (h : ok (linesOf s) x) : runsBy ok s t :=
  ⟨[x], h1, by rw [h2]; exact h3, h, trivial⟩

/-- No event and no level. -/
theorem runsBy_silent {ok : Lines → Event → Prop} {s t : State} (h1 : t.trace = s.trace) (h2 : linesOf t = linesOf s) :
    runsBy ok s t := ⟨[], by simp [h1], h2.symm, trivial⟩

/-- A property of the levels that every micro-operation keeps, with every event it appends allowed, holds of every step. -/
theorem step_runsBy {ok : Lines → Event → Prop} {P : Lines → Prop}
    (hr : ∀ l k c c', P l → ok l (.report (.sequencingViolation k c c')))
    (hm : ∀ s t, Micro s t → P (linesOf s) → P (linesOf t) ∧ runsBy ok s t) {s t : State} (hs : P (linesOf s))
    (h : step s = .next t) : runsBy ok s t ∧ P (linesOf t) := by
  have body : ∀ {i : Instr} {s t : State}, BodyRun i s t → P (linesOf s) → runsBy ok s t ∧ P (linesOf t) := by
    intro i s t hb hs
    cases hb with
    | cycle u run a d p eq =>
      have hu := run.relates (R := runsBy ok) runsBy_refl (fun _ _ _ => runsBy_trans) hm hs
      subst eq
      exact ⟨runsBy_trans hu.2 (runsBy_silent rfl rfl), hu.1⟩
    | erase u run n isE eq =>
      have hu := run.relates (R := runsBy ok) runsBy_refl (fun _ _ _ => runsBy_trans) hm hs
      subst eq
      exact ⟨runsBy_trans hu.2 (runsBy_silent rfl rfl), hu.1⟩
  rcases step_run h with ⟨_, h⟩ | ⟨w, rest, hc, ⟨i, hd, he⟩ | ⟨hd, hr', h⟩⟩
  · subst h; exact ⟨runsBy_refl _, hs⟩
  · cases (exec_run he).2 with
    | rejected cs strict eq => subst eq; exact ⟨⟨_, rfl, rfl, hr _ _ _ _ hs, trivial⟩, hs⟩
    | ran cs b =>
      have hb := body b hs
      exact ⟨runsBy_trans (runsBy_silent rfl rfl) hb.1, hb.2⟩
    | marked cs strict b =>
      have hb := body b hs
      exact ⟨runsBy_trans (runsBy_silent rfl rfl) hb.1, hb.2⟩
  · subst h; exact ⟨runsBy_silent rfl rfl, hs⟩

/-- A serializer event and nothing else. -/
def isSerial (_ : Lines) : Event → Prop
  | .pin (.ser _) => True
  | .pin (.sclk _) => True
  | .pin (.rclk _) => True
  | _ => False

/-- The levels set_address never moves (R90). -/
def SameOthers (s t : State) : Prop :=
  t.mr = s.mr ∧ t.sroe = s.sroe ∧ t.csel = s.csel ∧ t.oel = s.oel ∧ t.oeh = s.oeh ∧ t.aov = s.aov ∧ t.ddir = s.ddir

theorem pin_serial {p : PinWrite} (h : ∀ l, isSerial l (.pin p)) (s : State) :
    SameOthers s (pin p s) ∧ runsBy isSerial s (pin p s) := by
  refine ⟨?_, runsBy_pin (h _)⟩
  have hl := linesOf_pin p s
  have h' := h (linesOf s)
  cases p with
  | ser v =>
    exact ⟨congrArg Lines.mr hl, congrArg Lines.sroe hl, congrArg Lines.csel hl, congrArg Lines.oel hl,
      congrArg Lines.oeh hl, congrArg Lines.aov hl, congrArg Lines.ddir hl⟩
  | sclk v =>
    exact ⟨congrArg Lines.mr hl, congrArg Lines.sroe hl, congrArg Lines.csel hl, congrArg Lines.oel hl,
      congrArg Lines.oeh hl, congrArg Lines.aov hl, congrArg Lines.ddir hl⟩
  | rclk v =>
    exact ⟨congrArg Lines.mr hl, congrArg Lines.sroe hl, congrArg Lines.csel hl, congrArg Lines.oel hl,
      congrArg Lines.oeh hl, congrArg Lines.aov hl, congrArg Lines.ddir hl⟩
  | mr v => exact h'.elim
  | sroe v => exact h'.elim
  | cs v => exact h'.elim
  | oel v => exact h'.elim
  | oeh v => exact h'.elim
  | aov v => exact h'.elim
  | ddir v => exact h'.elim
  | d w => exact h'.elim

theorem sameOthers_trans {s t u : State} (h : SameOthers s t) (g : SameOthers t u) : SameOthers s u :=
  ⟨g.1.trans h.1, g.2.1.trans h.2.1, g.2.2.1.trans h.2.2.1, g.2.2.2.1.trans h.2.2.2.1,
    g.2.2.2.2.1.trans h.2.2.2.2.1, g.2.2.2.2.2.1.trans h.2.2.2.2.2.1, g.2.2.2.2.2.2.trans h.2.2.2.2.2.2⟩

/-- set_address from any state appends serializer events only and moves no other level (R90, R91). -/
theorem setAddress_serial (a : Nat) (s : State) : SameOthers s (setAddress a s) ∧ runsBy isSerial s (setAddress a s) := by
  have tr : ∀ {s t u : State}, SameOthers s t ∧ runsBy isSerial s t → SameOthers t u ∧ runsBy isSerial t u →
      SameOthers s u ∧ runsBy isSerial s u :=
    fun h g => ⟨sameOthers_trans h.1 g.1, runsBy_trans h.2 g.2⟩
  have so : ∀ (k : Nat) (s : State), SameOthers s (shiftOut k s) ∧ runsBy isSerial s (shiftOut k s) := by
    intro k
    induction k with
    | zero => exact fun s => ⟨⟨rfl, rfl, rfl, rfl, rfl, rfl, rfl⟩, runsBy_refl s⟩
    | succ k ih =>
      exact fun s => tr (tr (tr (pin_serial (p := .ser _) (fun _ => trivial) s)
        (pin_serial (p := .sclk true) (fun _ => trivial) _)) (pin_serial (p := .sclk false) (fun _ => trivial) _)) (ih _)
  have pl : ∀ s : State, SameOthers s (pulseLatch s) ∧ runsBy isSerial s (pulseLatch s) := fun s =>
    tr (pin_serial (p := .rclk true) (fun _ => trivial) s) (pin_serial (p := .rclk false) (fun _ => trivial) _)
  have rd : ∀ s : State, SameOthers s (redrawRegister s) ∧ runsBy isSerial s (redrawRegister s) := fun s =>
    ⟨⟨rfl, rfl, rfl, rfl, rfl, rfl, rfl⟩, runsBy_silent rfl rfl⟩
  obtain ⟨v, h⟩ := setAddress_cases a s
  have h0 : SameOthers s { s with vec := v } ∧ runsBy isSerial s { s with vec := v } :=
    ⟨⟨rfl, rfl, rfl, rfl, rfl, rfl, rfl⟩, runsBy_silent rfl rfl⟩
  rcases h with h | h
  · rw [h.2]; exact tr (tr (tr h0 (so 16 _)) (pl _)) (rd _)
  · rw [h.2]; exact tr (tr h0 (so 16 _)) (pl _)

end Sys2Proof.Machine
end

