-- ==== Sys2Proof/Laws/Runs.lean ====
section
/-! SUPPORT. What every command keeps whatever the lines are, so in marked runs too (60_exceptions.md R196): the form of the
state, no erase record; and that a command that runs reports no sequencing violation (60_exceptions.md R193). -/

namespace Sys2Proof.Machine

/-! ### set_address touches the serializer only -/

/-- Only the serializer's lines and registers, the free values drawn and the trace differ (R90). -/
def SerialFrame (s t : State) : Prop :=
  t = { s with
    vec := t.vec, ser := t.ser, sclk := t.sclk, rclk := t.rclk, shiftReg := t.shiftReg, latch := t.latch
    draws := t.draws, trace := t.trace }

theorem SerialFrame.trans {s t u : State} (h : SerialFrame s t) (g : SerialFrame t u) : SerialFrame s u := by
  unfold SerialFrame at *
  rw [g, h]

theorem pin_ser_frame (v : Bool) (s : State) : SerialFrame s (pin (.ser v) s) := by
  unfold SerialFrame
  simp only [pin, serReaction]
  split <;> rfl

theorem pin_sclk_frame (v : Bool) (s : State) : SerialFrame s (pin (.sclk v) s) := by
  unfold SerialFrame
  simp only [pin, clockReaction]
  repeat (first | rfl | split)

theorem pin_rclk_frame (v : Bool) (s : State) : SerialFrame s (pin (.rclk v) s) := by
  unfold SerialFrame
  simp only [pin, latchReaction]
  repeat (first | rfl | split)

theorem shiftOut_frame (k : Nat) (s : State) : SerialFrame s (shiftOut k s) := by
  induction k generalizing s with
  | zero => rfl
  | succ k ih =>
    rw [shiftOut]
    exact (((pin_ser_frame _ s).trans (pin_sclk_frame _ _)).trans (pin_sclk_frame _ _)).trans (ih _)

theorem redrawRegister_frame (s : State) : SerialFrame s (redrawRegister s) := rfl

theorem pulseLatch_frame (s : State) : SerialFrame s (pulseLatch s) := (pin_rclk_frame true s).trans (pin_rclk_frame false _)

theorem setAddress_frame (a : Nat) (s : State) : SerialFrame s (setAddress a s) := by
  obtain ⟨v, h⟩ := setAddress_cases a s
  have h0 : SerialFrame s { s with vec := v } := rfl
  have h1 := (h0.trans (shiftOut_frame 16 _)).trans (pulseLatch_frame _)
  rcases h with ⟨_, h⟩ | ⟨_, h⟩
  · rw [h]
    exact h1.trans (redrawRegister_frame _)
  · rw [h]
    exact h1

/-! ### The form of the state -/

/-- The part of `Between` that holds inside a command and whatever the lines are. -/
abbrev Form (s : State) : Prop :=
  s.cfg.wf ∧ DriversExclusive s ∧ Memory.wf s.cfg.memorySize s.mem = true ∧ ∀ w, s.d = some w → s.dout = w

theorem micro_form {s t : State} (m : Micro s t) (h : Form s) : Form t := by
  obtain ⟨hw, hx, hm, hd⟩ := h
  cases m with
  | address a => rw [setAddress_frame a s]; exact ⟨hw, hx, hm, hd⟩
  | stage on => exact ⟨hw, hx, hm, hd⟩
  | select on =>
    have hm' := selectReaction_wf (if on then .asserted else .deasserted) hw hm
    simp only [enable, pin]
    rw [selectReaction_frame]
    exact ⟨hw, hx, hm', hd⟩
  | direction input => exact ⟨hw, hx, hm, hd⟩
  | outputEnable m =>
    refine ⟨by cases m <;> exact hw, ?_, by cases m <;> exact hm, by cases m <;> exact hd⟩
    cases m <;> simp [DriversExclusive, setOutputEnable]
  | addressOverride m => cases m <;> exact ⟨hw, hx, hm, hd⟩
  | write w =>
    simp only [writeBus]
    split
    · exact ⟨hw, hx, hm, fun v hv => by simpa using hv⟩
    · exact ⟨hw, hx, hm, hd⟩
  | read =>
    simp only [readBus, sample]
    split <;> exact ⟨hw, hx, hm, hd⟩
  | wait t => exact ⟨hw, hx, hm, hd⟩
  | mismatch => exact ⟨hw, hx, hm, hd⟩
  | poll =>
    simp only [pollCancel, dropAnswer]
    split <;> exact ⟨hw, hx, hm, hd⟩
  | record => exact ⟨hw, hx, hm, hd⟩

theorem bodyRun_form {i : Instr} {s u : State} (h : BodyRun i s u) (hk : Form s) : Form u ∧ u.busy = false := by
  cases h with
  | cycle t run a d p eq =>
    have hf := run.keeps (fun _ _ => micro_form) hk
    subst eq
    exact ⟨hf, rfl⟩
  | erase t run n isE eq =>
    have hf := run.keeps (fun _ _ => micro_form) hk
    subst eq
    exact ⟨hf, rfl⟩

/-- Every command keeps the form of the state and ends with the port ready. -/
theorem exec_form {i : Instr} {s t : State} (h : exec i s = .next t) (hk : Form s) : Form t ∧ t.busy = false := by
  cases (exec_run h).2 with
  | rejected cs strict eq => subst eq; exact ⟨hk, rfl⟩
  | ran cs body => exact bodyRun_form body hk
  | marked cs strict body => exact bodyRun_form body hk

/-- Every command that finds no erase record leaves none (R33). -/
theorem exec_erase {i : Instr} {s t : State} (h : exec i s = .next t) (he : s.erase = none) : t.erase = none := by
  have key : ∀ {i : Instr} {body : State → State}, (∀ u : State, u.erase = none → (body u).erase = none) →
      accept (check i.opcode (required i) body) s = .next t → t.erase = none := by
    intro i body hb ha
    obtain ⟨hr, hu⟩ := accept_next ha
    rcases check_cases i.opcode (required i) body { s with busy := true } with ⟨_, e⟩ | ⟨_, _, e⟩ | ⟨_, _, e⟩
    · rw [hu, e]; exact hb _ he
    · rw [hu, e]; exact he
    · rw [hu, e]; exact hb _ he
  have ao : ∀ (m : Override) (u : State), (setAddressOverride m u).erase = u.erase := fun m u => by cases m <;> rfl
  cases i with
  | br =>
    refine key (i := .br) (fun u hu => ?_) h
    show (setAddressOverride .normal (setOutputEnable .logicHigh (setDirection true (enable false u)))).erase = none
    rw [ao, setOutputEnable_erase, setDirection, pin_erase, enable, pin_erase, hu]
  | er =>
    refine key (i := .er) (fun u hu => ?_) h
    show (setAddressOverride .normal (setOutputEnable .logicHigh (enable false u))).erase = none
    rw [ao, setOutputEnable_erase, enable, pin_erase, hu]
  | bp => exact key (i := .bp) (fun u hu => by rw [bodyBp_eq]; exact hu) h
  | ep =>
    refine key (i := .ep) (fun u hu => ?_) h
    show (setRegisterOutput false (setDirection true (setOutputEnable .logicHigh
      (setAddressOverride .normal (enable false u))))).erase = none
    rw [setRegisterOutput, pin_erase, setDirection, pin_erase, setOutputEnable_erase, ao, enable, pin_erase, hu]
  | r a =>
    refine key (i := .r a) (fun u hu => ?_) h
    simp only [bodyR, readSetup]
    show (setOutputEnable _ _).erase = _
    simp only [setOutputEnable_erase, enable, pin_erase, readBus_erase, delay, emit_erase, setRegisterOutput,
      setAddress_erase, hu]
  | p a w =>
    refine key (i := .p a w) (fun u hu => ?_) h
    simp only [bodyP]
    show (delay .dataHold (enable false _)).erase = _
    simp only [enable, pin_erase, writeBus_erase, delay, emit_erase, setAddress_erase, hu]
  | e n => exact key (i := .e n) (fun u _ => rfl) h

/-! ### Sound states -/

/-- All that R43 says of a sound state. -/
theorem sound_parts {s : State} (h : Sound s) :
    Quiet s ∧ DriversExclusive s ∧ s.erase = none ∧ Memory.wf s.cfg.memorySize s.mem = true ∧
      (∀ w, s.d = some w → s.dout = w) ∧ CycleLines s := by
  obtain ⟨⟨hr, hx, he, hm, hd, hl⟩, hf⟩ := h
  obtain ⟨hi, hc, hl⟩ := hl hf
  exact ⟨⟨⟨hr, hi, hc⟩, hf⟩, hx, he, hm, hd, hl⟩

theorem sound_of {s : State} (hq : Quiet s) (hx : DriversExclusive s) (he : s.erase = none)
    (hm : Memory.wf s.cfg.memorySize s.mem = true) (hd : ∀ w, s.d = some w → s.dout = w) (hl : CycleLines s) : Sound s :=
  ⟨⟨hq.1.1, hx, he, hm, hd, fun _ => ⟨hq.1.2.1, hq.1.2.2, hl⟩⟩, hq.2⟩

/-! ### Reports -/

/-- The events appended from `s` to `t` report no sequencing violation. -/
def NoReport (s t : State) : Prop :=
  ∃ evs, t.trace = s.trace ++ evs ∧ ∀ o a b, Event.report (.sequencingViolation o a b) ∉ evs

theorem NoReport.refl (s : State) : NoReport s s := ⟨[], by simp, by simp⟩

theorem NoReport.trans {s t u : State} (h : NoReport s t) (g : NoReport t u) : NoReport s u := by
  obtain ⟨evs, h1, h2⟩ := h
  obtain ⟨evs', g1, g2⟩ := g
  refine ⟨evs ++ evs', by rw [g1, h1, List.append_assoc], fun o a b hm => ?_⟩
  rcases List.mem_append.mp hm with hm | hm
  · exact h2 o a b hm
  · exact g2 o a b hm

theorem pin_noReport (p : PinWrite) (s : State) : NoReport s (pin p s) :=
  ⟨[.pin p], by rw [pin_frame], by simp⟩

theorem serial_noReport {l : Lines} {evs : List Event} (h : allAllowed isSerial l evs) :
    ∀ o a b, Event.report (.sequencingViolation o a b) ∉ evs := by
  induction evs generalizing l with
  | nil => simp
  | cons x evs ih =>
    intro o a b hm
    rcases List.mem_cons.mp hm with hx | hm
    · subst hx
      exact h.1
    · exact ih h.2 o a b hm

theorem micro_noReport {s t : State} (m : Micro s t) : NoReport s t := by
  cases m with
  | address a =>
    obtain ⟨evs, h1, -, h3⟩ := (setAddress_serial a s).2
    exact ⟨evs, h1, serial_noReport h3⟩
  | stage on => exact pin_noReport _ s
  | select on => exact pin_noReport _ s
  | direction input => exact pin_noReport _ s
  | outputEnable m => cases m <;> exact (pin_noReport _ s).trans (pin_noReport _ _)
  | addressOverride m => cases m <;> exact pin_noReport _ s
  | write w =>
    unfold writeBus
    split
    · exact ⟨[.pin (.d w)], rfl, by simp⟩
    · exact ⟨[], by simp, by simp⟩
  | read =>
    unfold readBus sample
    split
    · exact ⟨[.sample (busValue s)], rfl, by simp⟩
    · exact ⟨[.sample (busValue s)], rfl, by simp⟩
  | wait t => exact ⟨[.delay t], rfl, by simp⟩
  | mismatch k a w v => exact ⟨[.report (.eraseMismatch k a w v)], rfl, by simp⟩
  | poll =>
    unfold pollCancel dropAnswer
    split
    · exact ⟨[.cancelPoll (cancelAnswer s)], rfl, by simp⟩
    · exact ⟨[.cancelPoll (cancelAnswer s)], rfl, by simp⟩
  | record r => exact ⟨[], by simp, by simp⟩

theorem bodyRun_noReport {i : Instr} {s u : State} (h : BodyRun i s u) : NoReport s u := by
  have key : ∀ {t : State}, Micros s t → NoReport s t := fun run =>
    (run.relates (P := fun _ => True) NoReport.refl (fun _ _ _ => NoReport.trans)
      (fun _ _ m _ => ⟨trivial, micro_noReport m⟩) trivial).2
  have silent : ∀ {t u : State}, u.trace = t.trace → NoReport t u := fun h => ⟨[], by rw [h, List.append_nil], by simp⟩
  cases h with
  | cycle t run a d p eq => subst eq; exact (key run).trans (silent rfl)
  | erase t run n isE eq => subst eq; exact (key run).trans (silent rfl)

/-- A command that is not rejected reports no sequencing violation (R132, R193). -/
theorem exec_noReport {i : Instr} {s t : State} (h : exec i s = .next t) (hs : s.cs = required i ∨ s.cfg.strict = false) :
    NoReport s t := by
  cases (exec_run h).2 with
  | rejected cs strict eq =>
    rcases hs with hs | hs
    · exact absurd hs cs
    · rw [strict] at hs
      cases hs
  | ran cs body =>
    have h := bodyRun_noReport body
    exact h
  | marked cs strict body =>
    have h := bodyRun_noReport body
    exact h

end Sys2Proof.Machine
end

