-- ==== Sys2Proof/Tests/Slice0.lean ====
section
/-! SUPPORT. Tests, with the vectors of spec/95_test_vectors.md as the source of every expected result, and a witness for the
hypotheses of every statement that has some. -/

set_option maxRecDepth 10000

namespace Sys2Proof.Tests

open Sys2Proof Sys2Proof.Machine

/-! ### Helpers -/

/-- The conventions of 95_test_vectors.md with a device of four words (sections 2.8 and 3). -/
def small : Cfg := { Cfg.vectors with memorySize := 4 }

/-- The same machine, not strict. -/
def lax : Cfg := { small with strict := false }

/-- A `Cfg` that is no configuration: no cells (X3). -/
def empty : Cfg := { Cfg.vectors with memorySize := 0 }

/-- The reset state of the small machine. -/
def idle : State := State.resetWith small []

/-- The small machine in a read cycle, its lines as C1 leaves them. -/
def reading : State := { idle with cs := .readActive }

/-- The small machine in a program cycle, its lines as C4 leaves them. -/
def programming : State :=
  { idle with cs := .programActive, ddir := .output, oel := .off, oeh := .on, sroe := .on }

/-- The idle machine with a device and an operator that behave as given. -/
def scripted (pulses : List EraseDraw) (answers : List Bool) : State :=
  { idle with eraseScript := pulses, cancelIn := answers }

/-- The idle machine with these words presented. -/
def presented (words : List (BitVec 32)) : State := { idle with commands := words }

/-- What an outcome answers: response word, mode and number of events. -/
def answer : Host.Outcome State Fault Refusal → Option (BitVec 32 × CycleState × Nat)
  | .next t => some (responseWord t, t.cs, t.trace.length)
  | .fault _ => none
  | .refused _ => none

/-- The next state of an outcome, and a state of no interest where there is none. -/
def after : Host.Outcome State Fault Refusal → State
  | .next t => t
  | .fault _ => idle
  | .refused _ => idle

/-- An outcome that has an answer is a next state. -/
theorem next_after (o : Host.Outcome State Fault Refusal) (h : (answer o).isSome = true) : o = .next (after o) := by
  cases o with
  | next t => rfl
  | fault f => cases h
  | refused r => cases h

/-! ### Words: R75 to R78, vectors E1 to E20 -/

/-- The attempt bound has eight bits on the port (R77). -/
theorem test_wf_bound : (Instr.e 255).wf = true ∧ (Instr.e 256).wf = false := by decide

theorem test_decode_br : decode 0b0001_0000_0000000000000000_00000000 = .ok .br := by decide

theorem test_decode_r : decode 0b0010_0000_0000000000010000_00000000 = .ok (.r 0x0010) := by decide

theorem test_decode_er : decode 0b0011_0000_0000000000000000_00000000 = .ok .er := by decide

theorem test_decode_bp : decode 0b0100_0000_0000000000000000_00000000 = .ok .bp := by decide

theorem test_decode_p : decode 0b0101_0000_1010101111001101_10100101 = .ok (.p 0xABCD 0xA5) := by decide

theorem test_decode_ep : decode 0b0110_0000_0000000000000000_00000000 = .ok .ep := by decide

theorem test_decode_e : decode 0b0111_0000_0000000000000000_00000011 = .ok (.e 3) := by decide

/-- E12 to E20. -/
theorem test_illegal_words :
    [0x00000000, 0xFFFFFFFF, 0x80000000, 0x11000000, 0x10000100, 0x20000001, 0x30000001, 0x60010000, 0x70000100].map
        (fun w => answer (step (presented [w]))) =
      [0x04000000, 0xF4000000, 0x84000000, 0x14000000, 0x14000000, 0x24000000, 0x34000000, 0x64000000, 0x74000000].map
        (fun rw => some (rw, .idle, 0)) := by
  decide

theorem test_illegal_reasons :
    decode 0 = .error .opcode ∧ decode 0x11000000 = .error .reserved ∧ decode 0x70000100 = .error .operand := by decide

theorem test_table_word : decodeTableWord 32 0x20001000 = some (.r 0x0010) ∧ decodeTableWord 32 (2 ^ 32) = none := by decide

/-! ### The components: vectors A, B, W, K -/

/-- The map `X89` of section 2.1. -/
def x89 : Cfg := { Cfg.vectors with bitOrderMap := #v[0, 1, 2, 3, 4, 5, 6, 7, 9, 8, 10, 11, 12, 13, 14, 15] }

/-- The map `REV` of section 2.1. -/
def rev : Cfg := { Cfg.vectors with bitOrderMap := #v[15, 14, 13, 12, 11, 10, 9, 8, 7, 6, 5, 4, 3, 2, 1, 0] }

/-- A1, A6, A9, A11: `VEC = S = L` and `DevAddr`. -/
theorem test_set_address :
    (setAddress 0x1234 State.reset).latch = 0x1234 ∧ (setAddress 0x12345 State.reset).shiftReg = 0x2345 ∧
    (setAddress 0xA5C3 (State.resetWith x89 [])).latch = 0xA6C3 ∧
    (setAddress 0x1234 (State.resetWith rev [])).latch = 0x2C48 ∧
    devAddr { setAddress 0x1234 (State.resetWith rev []) with sroe := .on } = 0x1234 := by
  decide

/-- One bit clocked into the register. -/
def clockBit (b : Bool) (s : State) : State := pin (.sclk false) (pin (.sclk true) (pin (.ser b) s))

/-- A1, its intermediate state: after four clocks `S[3:0] = 0001`; `L` is unchanged until the latch edge; fifty events. -/
theorem test_shift_direction :
    (clockBit true (clockBit false (clockBit false (clockBit false State.reset)))).shiftReg = 0b0001 ∧
    (clockBit false (clockBit true State.reset)).shiftReg = 0b0010 ∧
    (shiftOut 16 { State.reset with vec := 0x1234, latch := 0xBEEF }).latch = 0xBEEF ∧
    (setAddress 0x1234 State.reset).trace.length = 50 := by
  decide

/-- A13. -/
theorem test_register_reset :
    let s := registerReset { State.reset with shiftReg := 0x00FF, latch := 0x1234, sroe := .on }
    s.shiftReg = 0 ∧ s.latch = 0 ∧ s.sroe = .off ∧ s.mr = .deasserted ∧ s.trace.length = 4 := by
  decide

/-- B2, B3, B5, B6. -/
theorem test_data_bus :
    (setDirection true { idle with ddir := .output, dout := 0xA5 }).dout = 0xA5 ∧
    (writeBus 0xA5 { idle with ddir := .output }).trace = [.pin (.d 0xA5)] ∧
    (writeBus 0xA5 idle).fault = true ∧ (writeBus 0xA5 idle).trace = [] ∧
    readBusValue { idle with csel := .asserted, oel := .low, sroe := .on, mem := [(0, 0x3C)] } = 0x3C := by
  decide

/-- W3, W4, W8. -/
theorem test_power_sequencer :
    (setOutputEnable .highVoltage idle).trace = [.pin (.oel .off), .pin (.oeh .on)] ∧
    (setOutputEnable .logicHigh { idle with oel := .off, oeh := .on }).trace = [.pin (.oeh .off), .pin (.oel .high)] ∧
    (setAddressOverride .normal { idle with aov := .on }).aov = .off := by
  decide

/-- K2, K4, K5. -/
theorem test_chip_select :
    (enable false { programming with csel := .asserted, dout := 0x42, latch := 0x0003 }).mem = [(3, 0x42)] ∧
    (enable false { reading with csel := .asserted, oel := .low, dout := 0x42 }).mem = [] ∧
    (enable false { programming with dout := 0x42 }).mem = [] := by
  decide

/-- K3 with a failed pulse. -/
theorem test_erase_pulse :
    (enable false { programming with csel := .asserted, aov := .on, eraseScript := [.failure [(2, 0x7F)]] }).mem =
      [(2, 0x7F)] := by
  decide

/-- Section 2.9, from the forbidden power-on levels: twelve events, and `(High, off)` at the end. -/
theorem test_reset_sequence :
    let s := resetLines { idle with oel := .low, oeh := .on }
    s.trace.length = 12 ∧ s.oel = .high ∧ s.oeh = .off := by
  decide

theorem test_reset_memory : Memory.wf State.reset.cfg.memorySize State.reset.mem = true := by decide

theorem test_memory_canonical : memWrite (memWrite [(1, 0x42)] 3 0x00) 1 0xFF = [(3, 0x00)] := by decide

/-! ### The commands: vectors C and G, one step each -/

/-- C1. -/
theorem test_br : answer (step (presented [0x10000000])) = some (0x10000000, .readActive, 5) := by decide

/-- C11. -/
theorem test_br_violation : answer (exec .br reading) = some (0x11000000, .readActive, 1) := by decide

/-- C2, in a device of four words: address `0x12` is `2` (R77). -/
theorem test_r : answer (exec (.r 0x0012) { reading with mem := [(2, 0x5A)] }) = some (0x2000025A, .readActive, 59) := by
  decide

/-- C7. -/
theorem test_r_violation : answer (exec (.r 0x0010) idle) = some (0x21000000, .idle, 1) := by decide

/-- C3. -/
theorem test_er :
    answer (exec .er { reading with sroe := .on }) = some (0x30000000, .idle, 4) ∧
    (after (exec .er { reading with sroe := .on })).sroe = .on := by
  decide

/-- C4. -/
theorem test_bp :
    answer (exec .bp idle) = some (0x40000000, .programActive, 5) ∧ (after (exec .bp idle)).oeh = .on := by
  decide

/-- C5. -/
theorem test_p :
    answer (exec (.p 0x0001 0x42) programming) = some (0x50000142, .programActive, 56) ∧
    (after (exec (.p 0x0001 0x42) programming)).mem = [(1, 0x42)] := by
  decide

/-- Non-strict: P from `Idle` writes with `DDIR = In`, and the mark is set (R107, R132). -/
theorem test_p_not_strict :
    let t := after (exec (.p 0x0001 0x42) { idle with cfg := lax })
    t.fault = true ∧ t.dout = 0 ∧ t.mem = [] ∧ t.status = .ok := by
  decide

/-- C6. -/
theorem test_ep :
    answer (exec .ep programming) = some (0x60000000, .idle, 6) ∧ (after (exec .ep programming)).sroe = .off := by
  decide

/-- G2's course in a device of one word: `1 + (58 + 6 + 58 + 2) + (58 + 6 + 58) + 5` events (R160), the mismatch kept. -/
theorem test_e_second_attempt :
    answer (exec (.e 2) { scripted [.failure [(0, 0x7F)], .success] [false] with cfg := { small with memorySize := 1 } }) =
      some (0x7000007F, .idle, 252) := by
  decide

/-- G4. -/
theorem test_e_cancelled :
    let o := exec (.e 5) (scripted [.failure [(0, 0xFE)]] [true])
    answer o = some (0x730000FE, .idle, 130) ∧ (after o).mem = [(0, 0xFE)] ∧ (after o).ddir = .input := by
  decide

/-- The host's probe: a word presented at reset is the next command (R16, R82). -/
theorem test_with_fetch_word :
    answer (step (State.reset.withFetchWord 32 0x40000000)) = some (0x40000000, .programActive, 5) ∧
    answer (step (State.reset.withFetchWord 32 0x70000000)) = some (0x72000000, .idle, 6) := by
  decide

/-! ### The adapter: R72, R73, R80, R174, R176 -/

/-- The channel's bounds for a line. -/
def channel : Cfg := { Cfg.vectors with memorySize := 0x8000, maxLineLength := 40, responseBufferSize := 40, cancelByte := 3 }

theorem test_lines :
    lineMeaning channel ['e', 'c', 'h', 'o', ' ', 'h', 'e', 'l', 'l', 'o'] = .echo ['h', 'e', 'l', 'l', 'o'] ∧
    lineMeaning channel ['r', ' ', '8', '0', '1', '0'] = .core (.r 0x0010) ∧
    lineMeaning channel ['e'] = .erasePrompt ∧ lineMeaning channel ['w', 'p', ' ', 'f'] = .patternPrompt 0xF ∧
    lineMeaning channel ['x'] = .unknown ∧ lineMeaning channel (List.replicate 41 'b') = .aborted := by
  decide

/-- R174, R175: the range of a test-pattern run, with and without its end; S7: `echo hello` returns exactly `hello`. -/
theorem test_pattern_and_echo :
    patternRange { channel with wpStart := 1, wpEndInclusive := true } 3 = [1, 2, 3] ∧
    patternRange { channel with wpStart := 1, wpEndInclusive := false } 3 = [1, 2] ∧
    patternProgram [1] = [.bp, .p 1 (Config.pattern 1), .ep, .br] ∧
    echoResponse channel ['h', 'e', 'l', 'l', 'o'] = ['h', 'e', 'l', 'l', 'o'] :=
  ⟨by decide, by decide, rfl, by decide⟩

/-- R173: a cancel at the prompt of `wp` calls no core operation. -/
theorem test_pattern_cancelled : patternDialog .cancelByte 3 idle = ⟨.next idle, []⟩ := rfl

theorem test_hex_text : hexText 0 = ['0'] ∧ hexText 0x10 = ['1', '0'] ∧ hexText 0xFFFF = ['f', 'f', 'f', 'f'] := by decide

/-! ### Witnesses: the hypotheses of each statement meet -/

theorem test_small_wf : small.wf := by decide

theorem test_lax_wf : lax.wf := by decide

/-- CommandsCompleteExactlyWhenReady, its third clause. -/
theorem test_empty_not_wf : ¬empty.wf := by decide

/-- The boundaries of `MEMORY_SIZE`: one word and 65536 words (ResetStateIsSound, CommandsCompleteExactlyWhenReady). -/
theorem test_size_bounds :
    ({ Cfg.vectors with memorySize := 1 } : Cfg).wf ∧ Cfg.vectors.wf ∧ ¬({ Cfg.vectors with memorySize := 65537 } : Cfg).wf := by
  decide

/-- BeginReadResult, BeginProgramResult, EraseWithoutAttempts, EraseCompletesAndCleansUp, OnlyProgramAndEraseChangeCells. -/
theorem test_quiet_idle : Quiet idle ∧ idle.cs = .idle ∧ idle.erase = none := by decide

/-- EndReadResult. -/
theorem test_quiet_reading : Quiet reading ∧ reading.cs = .readActive := by decide

/-- EndProgramResult. -/
theorem test_quiet_programming : Quiet programming ∧ programming.cs = .programActive := by decide

/-- ResetStateIsSound. -/
theorem test_reset_hypotheses : small.wf ∧ Memory.wf small.memorySize [(0, 0x00), (3, 0x42)] = true := by decide

/-- OnlyTrustedViolationsMark, StepKeepsBetweenCommands, NoBusContention. -/
theorem test_sound_idle : Sound idle :=
  ⟨⟨by decide, by decide, rfl, rfl, fun _ h => by simp [idle, State.resetWith] at h, fun _ => ⟨by decide, rfl, ⟨rfl, rfl, rfl⟩⟩⟩, rfl⟩

/-- ReadByteResult. -/
theorem test_sound_reading : Sound reading ∧ reading.cs = .readActive :=
  ⟨⟨⟨by decide, by decide, rfl, rfl, fun _ h => by simp [reading, idle, State.resetWith] at h, fun _ => ⟨by decide, rfl, ⟨rfl, rfl, rfl⟩⟩⟩, rfl⟩, rfl⟩

/-- ProgramByteResult. -/
theorem test_sound_programming : Sound programming ∧ programming.cs = .programActive :=
  ⟨⟨⟨by decide, by decide, rfl, rfl, fun _ h => by simp [programming, idle, State.resetWith] at h,
      fun _ => ⟨by decide, rfl, ⟨rfl, rfl, rfl, rfl⟩⟩⟩, rfl⟩, rfl⟩

/-- ProgramThenReadReturnsWord, with the last address of the device. -/
theorem test_round_trip_hypotheses : idle.cs = .idle ∧ idle.cfg.cellRule = .overwrite ∧ (3 : Addr).toNat < idle.cfg.memorySize := by
  decide

/-- EncodedCommandsDecodeToThemselves, DecodedWordsEncodeBack, at the last bound that fits. -/
theorem test_encode_bound : (Instr.e 255).wf = true ∧ decode 0x700000FF = .ok (.e 255) := by decide

/-- DecoderFollowsOpcodeTable, its second half: every row is spelled by its own pattern. -/
theorem test_rows_spelled : ∀ row ∈ opcodeTable, row.spells row.pattern := by decide

/-- IllegalWordsExecuteNothing. -/
theorem test_illegal_hypotheses :
    Ready (presented [0x8F]) ∧ (presented [0x8F]).commands = [0x8F] ∧ ∀ i, decode 0x8F ≠ .ok i :=
  ⟨by decide, rfl, fun i h => by
    have : decode 0x8F = .error .opcode := by decide
    rw [this] at h
    cases h⟩

/-- StepRunsPresentedCommand, both clauses. -/
theorem test_step_hypotheses :
    (presented [0x30000000]).commands = [0x30000000] ∧ decode 0x30000000 = .ok .er ∧ idle.commands = [] := by
  decide

/-- CommandsCompleteExactlyWhenReady, its first two clauses. -/
theorem test_ready_and_busy : Ready idle ∧ { idle with busy := true }.cfg.wf ∧ { idle with busy := true }.busy = true := by decide

/-- ResetSequenceLeavesResetState, its last clause, and the state it shuts out. -/
theorem test_reset_open_pulse :
    ¬(idle.csel = .asserted ∧ outputEnableMode idle = some .highVoltage) ∧
    outputEnableMode { programming with csel := .asserted } = some .highVoltage := by
  decide

/-- SetAddressSerializes, OldBitVectorMakesNoDifference, DeserializingRecoversAddress, AddressVisibleAtLatchEdgeOnly,
SerialPulsesNeverOverlap, each on a map that is not the identity. -/
theorem test_serial_hypotheses :
    rev.bijective ∧ SerialIdle (State.resetWith rev []) ∧
    SerialIdle { State.resetWith rev [] with sroe := .on } ∧ { State.resetWith rev [] with sroe := .on }.sroe = .on := by
  decide

/-- RegisterReactsToEdges: the two rising edges, and events that leave the register alone at the boundary of each condition. -/
theorem test_register_edges :
    (idle.sclk = false ∧ idle.rclk = false ∧ idle.mr = .deasserted) ∧
    (PinWrite.sclk true ≠ .mr .asserted ∧ { idle with mr := .asserted }.mr = .asserted) ∧
    (PinWrite.rclk true ≠ .mr .asserted ∧ { idle with rclk := true }.rclk = true) ∧
    (PinWrite.ser true ≠ .mr .asserted ∧ idle.sclk = false) := by
  decide

/-- DataBusDirectionAndWrite: both directions. -/
theorem test_directions : programming.ddir = .output ∧ reading.ddir = .input := by decide

/-- ReadReturnsDrivenCell. -/
theorem test_bus_driven : BusDriven { reading with csel := .asserted, oel := .low, sroe := .on } := by decide

/-- OverrideAndSelectDriveOneLine: a deasserted line, and an asserted one whose pulse ends. -/
theorem test_deselected :
    idle.csel = .deasserted ∧
    (enable false { programming with csel := .asserted, dout := 0x42 }).mem = [(0, 0x42)] := by
  decide

/-- ProgramPulseWritesOneCell, with data and address driven, and with the data lines released. -/
theorem test_program_pulse_hypotheses :
    let s := { programming with csel := .asserted }
    Memory.wf s.cfg.memorySize s.mem = true ∧ s.csel = .asserted ∧ outputEnableMode s = some .highVoltage ∧ s.aov = .off ∧
      s.ddir = .output ∧ s.sroe = .on ∧ 1 ≤ s.cfg.memorySize ∧ (3 : Nat) ≠ devAddr s ∧
      outputEnableMode { s with ddir := .input } = some .highVoltage := by
  decide

/-- ErasePulseFollowsOutcome: both outcomes, a script that is exhausted, and an event that is no end of a pulse. -/
theorem test_erase_pulse_hypotheses :
    let s := { programming with csel := .asserted, aov := .on, eraseScript := [.success] }
    let s' := { s with eraseScript := [.failure []] }
    s.csel = .asserted ∧ outputEnableMode s = some .highVoltage ∧ s.aov = .on ∧ s.eraseScript = [.success] ∧
      s'.eraseScript = [.failure []] ∧ { s with eraseScript := [] }.eraseScript = [] ∧ ¬(PinWrite.cs .asserted = .cs .deasserted ∧ s.csel = .asserted) := by
  decide

/-- CellsReadWhatWasWritten, at the last address. -/
theorem test_cells_hypotheses : Memory.wf 4 [(1, 0x42)] = true ∧ 3 < 4 := by decide

/-- EraseSuccessLeavesAllErased, EraseAttemptsAreBounded, EraseFirstSuccessEventCount. -/
theorem test_erase_success_hypotheses :
    let s := scripted [.success] []
    Quiet s ∧ s.cs = .idle ∧ s.eraseScript = [.success] ∧ exec (.e 1) s = .next (after (exec (.e 1) s)) ∧
      (after (exec (.e 1) s)).status = .ok :=
  ⟨by decide, rfl, rfl, next_after _ (by decide), by decide⟩

/-- EraseFailureReportsMismatch, EraseAttemptsAreBounded: both outcomes that are not OK. -/
theorem test_erase_failure_hypotheses :
    let s := scripted [.failure [(3, 0x00)]] [false]
    let s' := scripted [.failure [(3, 0x00)]] [true]
    Quiet s ∧ s.cs = .idle ∧ exec (.e 1) s = .next (after (exec (.e 1) s)) ∧
      (after (exec (.e 1) s)).status = .eraseFailed ∧ Quiet s' ∧ s'.cs = .idle ∧
      exec (.e 1) s' = .next (after (exec (.e 1) s')) ∧ (after (exec (.e 1) s')).status = .cancelled :=
  ⟨by decide, rfl, next_after _ (by decide), by decide, by decide, rfl, next_after _ (by decide), by decide⟩

/-- An outcome that leaves a cell not erased, the last one of the device. -/
theorem test_leaves_unerased : leavesUnerased small.memorySize (.failure [(3, 0x00)]) := ⟨3, by decide⟩

/-- UnerasableDeviceFailsAfterAllAttempts, with three pulses that fail. -/
theorem test_unerasable_hypotheses :
    let fails := List.replicate 3 (EraseDraw.failure [(3, 0x00)])
    let s := scripted (fails ++ []) (List.replicate 3 false)
    Quiet s ∧ s.cs = .idle ∧ s.eraseScript = fails ++ [] ∧ (∀ x ∈ fails, leavesUnerased s.cfg.memorySize x) ∧
      s.cancelIn = List.replicate fails.length false ++ [] := by
  refine ⟨by decide, rfl, rfl, fun x hx => ?_, rfl⟩
  rw [List.eq_of_mem_replicate hx]
  exact test_leaves_unerased

/-- CancelStopsEraseAtOnce. -/
theorem test_cancel_hypotheses :
    let s := scripted [.failure [(3, 0x00)]] [true]
    Quiet s ∧ s.cs = .idle ∧ s.eraseScript = [.failure [(3, 0x00)]] ∧
      leavesUnerased s.cfg.memorySize (.failure [(3, 0x00)]) ∧ s.cancelIn = [true] :=
  ⟨by decide, rfl, rfl, test_leaves_unerased, rfl⟩

/-- EraseRetriesAfterMismatch. -/
theorem test_retry_hypotheses :
    let s := scripted [.failure [(3, 0x00)], .success] [false]
    Quiet s ∧ s.cs = .idle ∧ s.eraseScript = [.failure [(3, 0x00)], .success] ∧
      leavesUnerased s.cfg.memorySize (.failure [(3, 0x00)]) ∧ s.cancelIn = [false] :=
  ⟨by decide, rfl, rfl, test_leaves_unerased, rfl⟩

/-- PreconditionCheck, NonStrictModeRunsAndMarks, TransitionTable, and the second clause of each command's result statement. -/
theorem test_violation_hypotheses :
    (Ready idle ∧ idle.cfg.strict = true ∧
      ∀ i ∈ [Instr.r 3, .er, .p 3 0x42, .ep], idle.cs ≠ required i) ∧
    (Ready reading ∧ reading.cfg.strict = true ∧ ∀ i ∈ [Instr.br, .bp, .e 1], reading.cs ≠ required i) ∧
    (Ready { idle with cfg := lax } ∧ { idle with cfg := lax }.cfg.strict = false ∧
      { idle with cfg := lax }.cs ≠ required .er) := by
  decide

/-- TransitionTable, OnlyProgramAndEraseChangeCells, OnlyTrustedViolationsMark: a command that answers a next state. -/
theorem test_exec_answers :
    Quiet idle ∧ exec .br idle = .next (after (exec .br idle)) ∧ (after (exec .br idle)).fault = false ∧
    exec .er { idle with cfg := lax } = .next (after (exec .er { idle with cfg := lax })) :=
  ⟨by decide, next_after _ (by decide), by decide, next_after _ (by decide)⟩

/-- StepKeepsBetweenCommands, ConfigurationIsConstant, CyclesOpenFromIdleOnly, DriversNeverOnTogether,
SerialPulsesNeverOverlap, NoBusContention: a step that runs a command and stays unmarked. -/
theorem test_step_answers :
    let s := presented [0x40000000, 0x500000A5]
    DriversExclusive s ∧ SerialIdle s ∧ s.cfg.strict = true ∧ step s = .next (after (step s)) ∧
      (after (step s)).fault = false ∧ (after (step s)).commands = [0x500000A5] :=
  ⟨by decide, by decide, rfl, next_after _ (by decide), by decide, by decide⟩

/-- The same steps from a state that is sound (NoBusContention, StepKeepsBetweenCommands). -/
theorem test_sound_presented : Sound (presented [0x40000000, 0x500000A5]) :=
  ⟨⟨by decide, by decide, rfl, rfl, fun _ h => by simp [presented, idle, State.resetWith] at h, fun _ => ⟨by decide, rfl, ⟨rfl, rfl, rfl⟩⟩⟩, rfl⟩

/-- StepKeepsBetweenCommands: a marked state, with lines R43 shuts out. -/
theorem test_between_marked : Between { programming with cs := .readActive, fault := true } :=
  ⟨by decide, by decide, rfl, rfl, fun _ h => by simp [programming, idle, State.resetWith] at h, fun h => by cases h⟩

/-- MarkIsStickyAndTraceGrows: a step from a marked state. -/
theorem test_marked_step :
    let s := { presented [0x10000000] with fault := true }
    s.fault = true ∧ step s = .next (after (step s)) :=
  ⟨rfl, next_after _ (by decide)⟩

/-- EndToEndExampleAnswersTenFf. -/
theorem test_end_to_end_hypotheses :
    let s := State.resetWith channel []
    Sound s ∧ s.cs = .idle ∧ s.cfg.cellRule = .overwrite ∧ 0x10 < s.cfg.memorySize ∧ 9 ≤ s.cfg.maxLineLength ∧
      6 ≤ s.cfg.responseBufferSize ∧
      ∀ line ∈ [['b', 'p'], ['p', ' ', '0', '0', '1', '0', ' ', 'f', 'f'], ['e', 'p'], ['b', 'r'],
        ['r', ' ', '0', '0', '1', '0'], ['e', 'r']], line.any (isCancel s.cfg) = false :=
  ⟨⟨⟨by decide, by decide, rfl, rfl, fun _ h => by simp [State.resetWith] at h, fun _ => ⟨by decide, rfl, ⟨rfl, rfl, rfl⟩⟩⟩, rfl⟩, by decide⟩

/-- PatternRunVerifies, with the last address of the device. -/
theorem test_pattern_hypotheses :
    idle.cs = .idle ∧ idle.cfg.wpRequiredCs = .idle ∧ idle.cfg.cellRule = .overwrite ∧ (3 : Addr).toNat < idle.cfg.memorySize := by
  decide

/-- EraseDialogCancelTouchesNothing, each clause. -/
theorem test_dialog_hypotheses :
    let s := State.resetWith channel []
    15 ≤ s.cfg.responseBufferSize ∧ s.status = .ok ∧ { s with status := .eraseFailed }.status = .eraseFailed ∧
      { s with status := .cancelled }.status = .cancelled := by
  decide

end Sys2Proof.Tests
end

section
/-! The scope of the machine: which command a step runs, and what every step leaves of the configuration and of the commands
presented (00_scope.md R9, R16). -/

namespace Sys2Proof.Machine

/-! ### Which command a step runs -/

/-- With no word presented a step waits (R217). -/
theorem step_of_no_commands {s : State} (h : s.commands = []) : step s = .next s := by
  rw [step, h]

/-- A legal word presented first is taken and its command runs (R16, R22). -/
theorem step_of_decode_ok {s : State} {w : BitVec 32} {rest : List (BitVec 32)} {i : Instr}
    (hc : s.commands = w :: rest) (hd : decode w = .ok i) : step s = exec i { s with commands := rest } := by
  simp only [step, hc, hd]

/-- Settles O7: the equation of a step for each shape of the list of words presented. -/
theorem stepRunsPresentedCommand : Obligations.StepRunsPresentedCommand :=
  ⟨fun _ _ _ _ => step_of_decode_ok, fun _ => step_of_no_commands⟩

/-! ### What every step leaves -/

/-- Settles O44, along what a step can be: a wait, a command (whose frame holds both fields), or the answer to an illegal
word. -/
theorem configurationIsConstant : Obligations.ConfigurationIsConstant := by
  intro s t h
  obtain ⟨hnone, rfl⟩ | ⟨w, rest, hc, ⟨i, -, hexec⟩ | ⟨-, -, rfl⟩⟩ := step_run h
  · exact ⟨rfl, by rw [hnone, List.tail_nil]⟩
  · obtain ⟨hcfg, hcommands, -, -⟩ := exec_frame hexec
    exact ⟨hcfg, by rw [hcommands, hc, List.tail_cons]⟩
  · exact ⟨rfl, by rw [finish_commands, hc, List.tail_cons]⟩

end Sys2Proof.Machine
end

section
/-! State obligations: what every command leaves of the port, the mark and the trace, and what holds between commands
(10_state.md R27, R36, R40, R43, R44). -/

namespace Sys2Proof.Machine

/-! ### The port (R36) -/

/-- X4: a busy port refuses. -/
theorem accept_busy (run : State → State) {s : State} (hw : s.cfg.wf) (hb : s.busy = true) :
    accept run s = .refused .portBusy := by
  rw [accept, if_pos hw, if_pos hb]

/-- X2, X3: a machine whose `Cfg` is no configuration refuses. -/
theorem accept_notAConfiguration (run : State → State) {s : State} (hw : ¬s.cfg.wf) :
    accept run s = .refused .notAConfiguration := by
  rw [accept, if_neg hw]

/-- Every command is a body that the port accepts after the check (R36, R132). -/
theorem exec_eq_accept (i : Instr) (s : State) : ∃ run, exec i s = accept run s := by
  cases i <;> exact ⟨_, rfl⟩

/-- A body that ran has cleared `BUSY` (R36). -/
theorem bodyRun_busy {i : Instr} {s u : State} (h : BodyRun i s u) : u.busy = false := by
  cases h with
  | cycle t run a d plain eq => rw [eq]; rfl
  | erase t run n isE eq => rw [eq]; rfl

/-- A command that answers a next state has cleared `BUSY` (R36), a rejected one too (R192). -/
theorem exec_busy {i : Instr} {s t : State} (h : exec i s = .next t) : t.busy = false := by
  cases (exec_run h).2 with
  | rejected cs strict eq => rw [eq]; rfl
  | ran cs body => exact bodyRun_busy body
  | marked cs strict body => exact bodyRun_busy body

/-- Settles O8: the three answers of the port. -/
theorem commandsCompleteExactlyWhenReady : Obligations.CommandsCompleteExactlyWhenReady := by
  intro i s
  obtain ⟨run, hrun⟩ := exec_eq_accept i s
  refine ⟨fun hready => ?_, fun hw hb => ?_, fun hw => ?_⟩
  · obtain ⟨t, ht⟩ := exec_ready i hready
    exact ⟨t, ht, exec_busy ht⟩
  · rw [hrun, accept_busy run hw hb]
  · rw [hrun, accept_notAConfiguration run hw]

/-! ### The mark and the trace (R40, R196) -/

/-- Settles O43, along what a step can be: a wait, a command (whose frame holds both), or the answer to an illegal word. -/
theorem markIsStickyAndTraceGrows : Obligations.MarkIsStickyAndTraceGrows := by
  intro s t h
  obtain ⟨-, rfl⟩ | ⟨w, rest, -, ⟨i, -, hexec⟩ | ⟨-, -, rfl⟩⟩ := step_run h
  · exact ⟨id, [], (List.append_nil _).symm⟩
  · obtain ⟨-, -, hfault, htrace⟩ := exec_frame hexec
    exact ⟨hfault, htrace⟩
  · exact ⟨id, [], (List.append_nil _).symm⟩

/-! ### The serializer's bit vector (R27) -/

/-- Settles O16: the fill of R91 writes every slot, so what `VEC` held is gone before any slot is read. -/
theorem oldBitVectorMakesNoDifference : Obligations.OldBitVectorMakesNoDifference := by
  intro s addr v hb
  simp only [setAddress, fillVec_eq_serOf hb]

/-! ### Reset (R44) -/

/-- The reset state is sound for every configuration and every canonical array of cells (R43, R44). -/
theorem resetWith_sound {cfg : Cfg} {m : Memory} (hw : cfg.wf) (hm : Memory.wf cfg.memorySize m = true) :
    Sound (State.resetWith cfg m) :=
  sound_of ⟨⟨⟨hw, rfl⟩, ⟨rfl, rfl, rfl⟩, rfl⟩, rfl⟩ nofun rfl hm nofun ⟨rfl, rfl, rfl⟩

/-- The configuration of the test vectors is one of this block. -/
theorem vectors_wf : Cfg.vectors.wf := by decide

/-- Settles O10: R43 read off the reset state field by field. -/
theorem resetStateIsSound : Obligations.ResetStateIsSound :=
  ⟨fun _ _ hw hm => ⟨resetWith_sound hw hm, rfl, rfl⟩, resetWith_sound vectors_wf rfl⟩

/-! ### The lines between commands (R43) -/

/-- The table of R43 outside a program cycle: `Idle` and `ReadActive` have the same row. -/
theorem cycleLines_iff_of_reading {s : State} (h : s.cs ≠ .programActive) :
    CycleLines s ↔ outputEnableMode s = some .logicHigh ∧ s.aov = .off ∧ s.ddir = .input := by
  cases hc : s.cs with
  | idle => simp only [CycleLines, hc]
  | readActive => simp only [CycleLines, hc]
  | programActive => exact absurd hc h

/-- The row of R43 for a program cycle. -/
theorem cycleLines_iff_of_programActive {s : State} (h : s.cs = .programActive) :
    CycleLines s ↔ outputEnableMode s = some .highVoltage ∧ s.aov = .off ∧ s.ddir = .output ∧ s.sroe = .on := by
  simp only [CycleLines, h]

/-- An address operand is an address of the device (R54, R77). -/
theorem addressOperand_lt {cfg : Cfg} (h : cfg.wf) (a : Addr) : addressOperand cfg a < cfg.memorySize :=
  Nat.mod_lt _ h.1

/-- What a command found in its required state answers: its body's end (R132). -/
theorem next_of_required {opc : BitVec 4} {c : CycleState} {body : State → State} {s t : State}
    (h : accept (check opc c body) s = .next t) (hc : s.cs = c) : t = body { s with busy := true } := by
  rw [accept_check_required (accept_next h).1 hc] at h
  exact (Host.Outcome.next.inj h).symm

/-- BR ends on the row of `ReadActive` (R134). -/
theorem bodyBr_cycleLines {s : State} (hsel : s.csel = .deasserted) : CycleLines (bodyBr s) := by
  rw [bodyBr_eq hsel]
  exact ⟨rfl, rfl, rfl⟩

/-- R stays on the row of `ReadActive` (R135). -/
theorem bodyR_cycleLines {s : State} {addr : Nat} (hw : s.cfg.wf) (hi : SerialIdle s) (hc : s.cs = .readActive)
    (hl : CycleLines s) (ha : addr < s.cfg.memorySize) : CycleLines (bodyR addr s) := by
  have hread : s.cs ≠ .programActive := by simp [hc]
  obtain ⟨-, haov, hddir⟩ := (cycleLines_iff_of_reading hread).mp hl
  rw [bodyR_eq hw hi hddir haov ha]
  exact (cycleLines_iff_of_reading (by exact hread)).mpr ⟨rfl, haov, hddir⟩

/-- ER ends on the row of `Idle`: the bus was at input already (R139). -/
theorem bodyEr_cycleLines {s : State} (hsel : s.csel = .deasserted) (hc : s.cs = .readActive) (hl : CycleLines s) :
    CycleLines (bodyEr s) := by
  obtain ⟨-, -, hddir⟩ := (cycleLines_iff_of_reading (by simp [hc])).mp hl
  rw [bodyEr_eq hsel]
  exact ⟨rfl, rfl, hddir⟩

/-- BP ends on the row of `ProgramActive` (R140). -/
theorem bodyBp_cycleLines (s : State) : CycleLines (bodyBp s) := by
  rw [bodyBp_eq]
  exact ⟨rfl, rfl, rfl, rfl⟩

/-- P stays on the row of `ProgramActive` (R141). -/
theorem bodyP_cycleLines {s : State} {addr : Nat} (word : Word) (hw : s.cfg.wf) (hi : SerialIdle s)
    (hc : s.cs = .programActive) (hl : CycleLines s) (ha : addr < s.cfg.memorySize) : CycleLines (bodyP addr word s) := by
  obtain ⟨hmode, haov, hddir, hsroe⟩ := (cycleLines_iff_of_programActive hc).mp hl
  rw [bodyP_eq word hw hi hddir haov hmode hsroe ha]
  exact (cycleLines_iff_of_programActive (by exact hc)).mpr ⟨hmode, haov, hddir, hsroe⟩

/-- EP ends on the row of `Idle` (R142). -/
theorem bodyEp_cycleLines {s : State} (hsel : s.csel = .deasserted) : CycleLines (bodyEp s) := by
  rw [bodyEp_eq hsel]
  exact ⟨rfl, rfl, rfl⟩

/-- E does not change the mode (R133). -/
theorem bodyE_cs (n : Nat) (s : State) : (bodyE n s).cs = s.cs := by
  obtain ⟨t, run, hbody⟩ := bodyE_micros n s
  rw [hbody]
  exact (micros_follows run).cs

/-- E's cleanup leaves the row of `Idle`, whatever the loop left (R156). -/
theorem bodyE_cycleLines (n : Nat) {s : State} (hc : s.cs = .idle) : CycleLines (bodyE n s) := by
  have hread : (bodyE n s).cs ≠ .programActive := by simp [bodyE_cs, hc]
  rw [cycleLines_iff_of_reading hread, bodyE_eq]
  exact ⟨rfl, rfl, rfl⟩

/-- From a sound state in its required mode every command leaves the lines of R43 for the mode it ends in (R133). -/
theorem exec_cycleLines {i : Instr} {s t : State} (h : exec i s = .next t) (hs : Sound s) (hc : s.cs = required i) :
    CycleLines t := by
  obtain ⟨⟨⟨⟨hw, -⟩, hi, hsel⟩, -⟩, -, -, -, -, hl⟩ := sound_parts hs
  cases i with
  | br => rw [next_of_required h hc]; exact bodyBr_cycleLines hsel
  | r a => rw [next_of_required h hc]; exact bodyR_cycleLines hw hi hc hl (addressOperand_lt hw a)
  | er => rw [next_of_required h hc]; exact bodyEr_cycleLines hsel hc hl
  | bp => rw [next_of_required h hc]; exact bodyBp_cycleLines _
  | p a w => rw [next_of_required h hc]; exact bodyP_cycleLines w hw hi hc hl (addressOperand_lt hw a)
  | ep => rw [next_of_required h hc]; exact bodyEp_cycleLines hsel
  | e n => rw [next_of_required h hc]; exact bodyE_cycleLines n hc

/-- The mark being sticky, a run unmarked after a command was unmarked before it (R196). -/
theorem unmarked_of_exec {i : Instr} {s t : State} (h : exec i s = .next t) (hf : t.fault = false) : s.fault = false := by
  obtain ⟨-, -, hsticky, -⟩ := exec_frame h
  cases hs : s.fault with
  | false => rfl
  | true => simp [hsticky hs] at hf

/-- A command whose next state is not marked leaves the lines as R43 says: it was rejected and moved none, or it ran in its
required mode. -/
theorem exec_keeps_lines {i : Instr} {s t : State} (h : exec i s = .next t) (hs : Sound s) (hf : t.fault = false) :
    SerialIdle t ∧ t.csel = .deasserted ∧ CycleLines t := by
  obtain ⟨⟨⟨⟨hw, -⟩, hi, hsel⟩, -⟩, hx, he, hm, hd, hl⟩ := sound_parts hs
  obtain ⟨⟨-, hi', -⟩, -⟩ := exec_kept h ⟨hw, hi, hx, hm, hd⟩
  refine ⟨hi', (exec_deselected h hsel he).1, ?_⟩
  cases (exec_run h).2 with
  | rejected cs strict eq => subst eq; exact hl
  | ran cs body => exact exec_cycleLines h hs cs
  | marked cs strict body =>
    obtain ⟨-, -, hmark⟩ := bodyRun_mode body
    simp [hmark rfl] at hf

/-- A command keeps what holds between commands: the form of the state always, the lines while the run is unmarked. -/
theorem exec_keeps_between {i : Instr} {s t : State} (h : exec i s = .next t) (hs : Between s) : Between t := by
  obtain ⟨⟨hw, -⟩, hx, he, hm, hd, -⟩ := id hs
  obtain ⟨⟨hw', hx', hm', hd'⟩, hb'⟩ := exec_form h ⟨hw, hx, hm, hd⟩
  exact ⟨⟨hw', hb'⟩, hx', exec_erase h he, hm', hd', fun hf => exec_keeps_lines h ⟨hs, unmarked_of_exec h hf⟩ hf⟩

/-- Settles O48, along what a step can be; taking the word presented and answering an illegal one touch nothing `Between`
speaks of but `BUSY`. -/
theorem stepKeepsBetweenCommands : Obligations.StepKeepsBetweenCommands := by
  intro s t hs h
  obtain ⟨-, rfl⟩ | ⟨w, rest, -, ⟨i, -, hexec⟩ | ⟨-, ⟨hw, -⟩, rfl⟩⟩ := step_run h
  · exact hs
  · exact exec_keeps_between hexec hs
  · obtain ⟨-, hrest⟩ := hs
    exact ⟨⟨hw, rfl⟩, hrest⟩

end Sys2Proof.Machine
end

section
/-! The result registers (10_state.md R34): no operation reads them or `BUSY`, so an operation after `finish` is the operation
and then `finish`; and every command writes all of them when it ends. -/

namespace Sys2Proof.Machine

/-- `VEC` filled with the address to send, before the shift of R91. -/
def filled (addr : Nat) (s : State) : State := { s with vec := fillVec s.cfg (BitVec.ofNat 16 addr) s.vec }

/-- set_address in three parts: fill, shift and latch, and the draws of R97 where master reset is asserted. -/
theorem setAddress_eq_filled (addr : Nat) (s : State) :
    setAddress addr s =
      if s.mr = .asserted then redrawRegister (pulseLatch (shiftOut 16 (filled addr s)))
      else pulseLatch (shiftOut 16 (filled addr s)) := rfl

/-! One lemma for each operation, up to E's loop: after `finish` it is the operation and then `finish`. -/

section ResultsCommute

variable (o : BitVec 4) (k : Status) (a : Addr) (w : Word) (s : State)

/-! ### The device and the register -/

theorem dropOutcome_finish : dropOutcome (finish o k a w s) = finish o k a w (dropOutcome s) := by
  unfold dropOutcome
  rw [finish_eraseScript]
  split <;> rfl

theorem erasePulse_finish : erasePulse (finish o k a w s) = finish o k a w (erasePulse s) := by
  unfold erasePulse
  rw [dropOutcome_finish]
  rfl

theorem programPulse_finish : programPulse (finish o k a w s) = finish o k a w (programPulse s) := by
  rw [programPulse, programPulse, apply_ite (finish o k a w)]
  rfl

theorem endOfPulse_finish : endOfPulse (finish o k a w s) = finish o k a w (endOfPulse s) := by
  unfold endOfPulse
  rw [programPulse_finish, erasePulse_finish, finish_aov, apply_ite (finish o k a w)]
  cases s.aov <;> rfl

theorem selectReaction_finish (v : Assertion) :
    selectReaction v (finish o k a w s) = finish o k a w (selectReaction v s) := by
  unfold selectReaction
  rw [endOfPulse_finish, apply_ite (finish o k a w)]
  rfl

theorem serReaction_finish (v : Bool) : serReaction v (finish o k a w s) = finish o k a w (serReaction v s) := by
  unfold serReaction
  rw [apply_ite (finish o k a w)]
  rfl

theorem clockReaction_finish (v : Bool) : clockReaction v (finish o k a w s) = finish o k a w (clockReaction v s) := by
  unfold clockReaction
  rw [apply_ite (finish o k a w), apply_ite (finish o k a w)]
  rfl

theorem latchReaction_finish (v : Bool) : latchReaction v (finish o k a w s) = finish o k a w (latchReaction v s) := by
  unfold latchReaction
  rw [apply_ite (finish o k a w), apply_ite (finish o k a w)]
  rfl

theorem resetReaction_finish (v : Assertion) : resetReaction v (finish o k a w s) = finish o k a w (resetReaction v s) := by
  unfold resetReaction
  rw [apply_ite (finish o k a w)]
  rfl

/-! ### The primitives of R11 -/

theorem pin_finish (p : PinWrite) : pin p (finish o k a w s) = finish o k a w (pin p s) := by
  cases p with
  | ser v => simp only [pin, serReaction_finish]; rfl
  | sclk v => simp only [pin, clockReaction_finish]; rfl
  | rclk v => simp only [pin, latchReaction_finish]; rfl
  | mr v => simp only [pin, resetReaction_finish]; rfl
  | cs v => simp only [pin, selectReaction_finish]; rfl
  | sroe v => rfl
  | oel v => rfl
  | oeh v => rfl
  | aov v => rfl
  | ddir v => rfl
  | d x => rfl

theorem delay_finish (t : DelayName) : delay t (finish o k a w s) = finish o k a w (delay t s) := rfl

theorem report_finish (x : Report) : report x (finish o k a w s) = finish o k a w (report x s) := rfl

theorem busValue_finish : busValue (finish o k a w s) = busValue s := rfl

theorem sample_finish : sample (finish o k a w s) = finish o k a w (sample s) := by
  unfold sample
  rw [show takeDraw (finish o k a w s) = finish o k a w (takeDraw s) from rfl, ← apply_ite (finish o k a w)]
  rfl

theorem cancelAnswer_finish : cancelAnswer (finish o k a w s) = cancelAnswer s := rfl

theorem pollCancel_finish : pollCancel (finish o k a w s) = finish o k a w (pollCancel s) := by
  unfold pollCancel dropAnswer
  rw [finish_cancelIn]
  split <;> rfl

/-! ### The micro-operations -/

theorem shiftOut_finish (n : Nat) : shiftOut n (finish o k a w s) = finish o k a w (shiftOut n s) := by
  induction n generalizing s with
  | zero => rfl
  | succ n ih => simp only [shiftOut, shiftBit, pin_finish, finish_vec, ih]

theorem pulseLatch_finish : pulseLatch (finish o k a w s) = finish o k a w (pulseLatch s) := by
  simp only [pulseLatch, pin_finish]

theorem redrawRegister_finish : redrawRegister (finish o k a w s) = finish o k a w (redrawRegister s) := rfl

theorem filled_finish (addr : Nat) : filled addr (finish o k a w s) = finish o k a w (filled addr s) := rfl

theorem setAddress_finish (addr : Nat) : setAddress addr (finish o k a w s) = finish o k a w (setAddress addr s) := by
  simp only [setAddress_eq_filled, filled_finish, finish_mr, shiftOut_finish, pulseLatch_finish, redrawRegister_finish,
    apply_ite (finish o k a w)]

theorem enable_finish (on : Bool) : enable on (finish o k a w s) = finish o k a w (enable on s) := pin_finish ..

theorem setDirection_finish (input : Bool) :
    setDirection input (finish o k a w s) = finish o k a w (setDirection input s) := pin_finish ..

theorem setRegisterOutput_finish (on : Bool) :
    setRegisterOutput on (finish o k a w s) = finish o k a w (setRegisterOutput on s) := pin_finish ..

theorem setOutputEnable_finish (m : OutputEnable) :
    setOutputEnable m (finish o k a w s) = finish o k a w (setOutputEnable m s) := by cases m <;> rfl

theorem setAddressOverride_finish (m : Override) :
    setAddressOverride m (finish o k a w s) = finish o k a w (setAddressOverride m s) := by cases m <;> rfl

theorem writeBus_finish (x : Word) : writeBus x (finish o k a w s) = finish o k a w (writeBus x s) := by
  unfold writeBus
  rw [apply_ite (finish o k a w)]
  rfl

/-! ### The erase engine -/

theorem eraseRecord_finish : eraseRecord (finish o k a w s) = eraseRecord s := rfl

theorem setRecord_finish (r : EraseRecord) : setRecord r (finish o k a w s) = finish o k a w (setRecord r s) := rfl

theorem lightReadSetup_finish (addr : Nat) :
    lightReadSetup addr (finish o k a w s) = finish o k a w (lightReadSetup addr s) := by
  simp only [lightReadSetup, setAddress_finish, enable_finish, setOutputEnable_finish, delay_finish]

theorem lightReadValue_finish (addr : Nat) : lightReadValue addr (finish o k a w s) = lightReadValue addr s := by
  simp only [lightReadValue, readBusValue, lightReadSetup_finish, busValue_finish]

theorem lightRead_finish (addr : Nat) : lightRead addr (finish o k a w s) = finish o k a w (lightRead addr s) := by
  simp only [lightRead, lightReadEnd, readBus, lightReadSetup_finish, sample_finish, enable_finish, setOutputEnable_finish]

theorem verifyStep_finish : verifyStep (finish o k a w s) = finish o k a w (verifyStep s) := by
  simp only [verifyStep, eraseRecord_finish, lightReadValue_finish, lightRead_finish, setRecord_finish,
    apply_ite (finish o k a w)]

theorem verifyLoop_finish (n : Nat) : verifyLoop n (finish o k a w s) = finish o k a w (verifyLoop n s) := by
  induction n generalizing s with
  | zero => rfl
  | succ n ih =>
    simp only [verifyLoop, eraseRecord_finish, finish_cfg, verifyStep_finish, ih, apply_ite (finish o k a w)]

theorem verifyPass_finish : verifyPass (finish o k a w s) = finish o k a w (verifyPass s) := by
  simp only [verifyPass, eraseRecord_finish, finish_cfg, setRecord_finish, verifyLoop_finish]

theorem eraseWaypoint_finish : eraseWaypoint (finish o k a w s) = finish o k a w (eraseWaypoint s) := by
  simp only [eraseWaypoint, eraseRecord_finish, report_finish, pollCancel_finish, cancelAnswer_finish, setRecord_finish,
    apply_ite (finish o k a w)]

theorem eraseAttempt_finish : eraseAttempt (finish o k a w s) = finish o k a w (eraseAttempt s) := by
  simp only [eraseAttempt, erasePulseStep, eraseSettleStep, eraseRecord_finish, setRecord_finish, setDirection_finish,
    setAddressOverride_finish, setOutputEnable_finish, setAddress_finish, writeBus_finish, enable_finish, delay_finish,
    verifyPass_finish, eraseWaypoint_finish]

theorem eraseLoop_finish (n m : Nat) : eraseLoop n m (finish o k a w s) = finish o k a w (eraseLoop n m s) := by
  induction m generalizing s with
  | zero => rfl
  | succ m ih => simp only [eraseLoop, eraseRecord_finish, eraseAttempt_finish, ih, apply_ite (finish o k a w)]

end ResultsCommute

/-! ### The commands -/

/-- What the result registers and `BUSY` held makes no difference to the body. -/
def IgnoresResults (body : State → State) : Prop :=
  ∀ o k a w s, body (finish o k a w s) = body s

theorem bodyBr_ignoresResults : IgnoresResults bodyBr := fun o k a w s => by
  simp only [bodyBr, enable_finish, setDirection_finish, setOutputEnable_finish, setAddressOverride_finish]
  rfl

theorem bodyR_ignoresResults (addr : Nat) : IgnoresResults (bodyR addr) := fun o k a w s => by
  simp only [bodyR, readSetup, readBusValue, readBus, setAddress_finish, setRegisterOutput_finish, enable_finish,
    setOutputEnable_finish, delay_finish, busValue_finish, sample_finish]
  rfl

theorem bodyEr_ignoresResults : IgnoresResults bodyEr := fun o k a w s => by
  simp only [bodyEr, enable_finish, setOutputEnable_finish, setAddressOverride_finish]
  rfl

theorem bodyBp_ignoresResults : IgnoresResults bodyBp := fun o k a w s => by
  rw [bodyBp_eq, bodyBp_eq]
  rfl

theorem bodyP_ignoresResults (addr : Nat) (word : Word) : IgnoresResults (bodyP addr word) := fun o k a w s => by
  simp only [bodyP, setAddress_finish, writeBus_finish, enable_finish, delay_finish]
  rfl

theorem bodyEp_ignoresResults : IgnoresResults bodyEp := fun o k a w s => by
  simp only [bodyEp, enable_finish, setAddressOverride_finish, setOutputEnable_finish, setDirection_finish,
    setRegisterOutput_finish]
  rfl

theorem bodyE_ignoresResults (n : Nat) : IgnoresResults (bodyE n) := fun o k a w s => by
  simp only [bodyE, eraseCleanup, setRegisterOutput_finish, setRecord_finish, eraseLoop_finish, enable_finish,
    setOutputEnable_finish, setAddressOverride_finish, setDirection_finish]
  rfl

/-- The check looks at `cs` and at `STRICT` only, and a rejection writes every result register (R132, R192). -/
theorem check_ignoresResults (opc : BitVec 4) (c : CycleState) {body : State → State} (hb : IgnoresResults body) :
    IgnoresResults (check opc c body) := fun o k a w s => by
  have hmark : body { finish o k a w s with fault := true } = body { s with fault := true } :=
    hb o k a w { s with fault := true }
  simp only [check, hb o k a w s, hmark]
  rfl

/-- The port looks at `BUSY` and `Cfg` only, so an accepted body that ignores the result registers answers the same. -/
theorem accept_ignoresResults {run : State → State} (hr : IgnoresResults run) (s : State) (o : BitVec 4) (k : Status)
    (a : Addr) (w : Word) : accept run { s with status := k, raddr := a, rdata := w, ropc := o } = accept run s := by
  have hrun : run { s with status := k, raddr := a, rdata := w, ropc := o, busy := true } = run { s with busy := true } :=
    (hr o k a w _).symm.trans (hr o k a w { s with busy := true })
  simp only [accept, hrun]

/-- Settles O45: each command's body is indifferent to the result registers, and so are the check and the port. -/
theorem resultRegistersAreNotRead : Obligations.ResultRegistersAreNotRead := by
  intro i s code a w o
  cases i with
  | br => exact accept_ignoresResults (check_ignoresResults 1 .idle bodyBr_ignoresResults) ..
  | r x => exact accept_ignoresResults (check_ignoresResults 2 .readActive (bodyR_ignoresResults _)) ..
  | er => exact accept_ignoresResults (check_ignoresResults 3 .readActive bodyEr_ignoresResults) ..
  | bp => exact accept_ignoresResults (check_ignoresResults 4 .idle bodyBp_ignoresResults) ..
  | p x y => exact accept_ignoresResults (check_ignoresResults 5 .programActive (bodyP_ignoresResults _ y)) ..
  | ep => exact accept_ignoresResults (check_ignoresResults 6 .programActive bodyEp_ignoresResults) ..
  | e n => exact accept_ignoresResults (check_ignoresResults 7 .idle (bodyE_ignoresResults n)) ..

end Sys2Proof.Machine
end

section
/-! Memory obligations: the address bits (20_memory.md R58, R61), the device's cells (R60), what each pin event does to them
(R65, R66), and that no command but P and E changes one (R57). -/

namespace Sys2Proof.Machine

/-! ### The address bits (R30, R58) -/

/-- The low `n` bits of a number, each at its weight, sum to the number modulo `2^n`. -/
theorem sum_range_testBit (x n : Nat) :
    ((List.range n).map fun i => if x.testBit i then 2 ^ i else 0).sum = x % 2 ^ n := by
  induction n with
  | zero => simp [Nat.mod_one]
  | succ n ih =>
    rw [List.range_succ, List.map_append, List.sum_append, ih, Nat.mod_pow_succ, ← Nat.toNat_testBit]
    cases hbit : x.testBit n <;> simp [hbit]

/-- An address is the sum of its sixteen bits, each at its weight. -/
theorem sum_bitIndices_getLsbD (x : Addr) :
    (bitIndices.map fun i => if x.getLsbD i.val then 2 ^ i.val else 0).sum = x.toNat := by
  have hrange : bitIndices.map Fin.val = List.range 16 := by decide
  calc (bitIndices.map fun i => if x.getLsbD i.val then 2 ^ i.val else 0).sum
      = ((bitIndices.map Fin.val).map fun i => if x.toNat.testBit i then 2 ^ i else 0).sum := by
        rw [List.map_map]; rfl
    _ = x.toNat := by rw [hrange, sum_range_testBit, Nat.mod_eq_of_lt x.isLt]

/-- Settles O12: the permutation and the wiring cancel bit by bit, and `Deser(v)` is the sum of its own bits, bit `i` being
line `BitOrderMap[i]` of `v`. -/
theorem deserializingRecoversAddress : Obligations.DeserializingRecoversAddress := by
  intro cfg hb
  refine ⟨deserOf_serOf hb, serOf_getLsbD hb, fun v => ?_⟩
  rw [← sum_bitIndices_getLsbD]
  simp only [deserOf_getLsbD]

/-! ### The latch edge (R56, R61, R96) -/

/-- A rising `RCLK` on idle serial lines copies the shift stages to the latch (R96). -/
theorem pin_rclk_rising_latch {s : State} (h : SerialIdle s) : (pin (.rclk true) s).latch = s.shiftReg := by
  obtain ⟨hsclk, hrclk, hmr⟩ := h
  simp [pin, latchReaction, hsclk, hrclk, hmr]

/-- The bits shifted leave the serial lines idle again (R91). -/
theorem shiftOut_serialIdle (k : Nat) {s : State} (h : SerialIdle s) : SerialIdle (shiftOut k s) := by
  rw [shiftOut_eq k h]
  exact h

/-- Settles O13: the shift changes `SER`, `S` and the trace only, none of which the device sees. -/
theorem addressVisibleAtLatchEdgeOnly : Obligations.AddressVisibleAtLatchEdgeOnly := by
  intro s k h
  have hedge := pin_rclk_rising_latch (shiftOut_serialIdle k h)
  rw [shiftOut_eq k h] at hedge ⊢
  exact ⟨rfl, rfl, rfl, fun _ => rfl, rfl, rfl, rfl, rfl, rfl, rfl, rfl, rfl, hedge⟩

/-! ### The cells as an array (R60) -/

/-- Settles O23: the two laws of `MemWrite` on canonical cells. -/
theorem cellsReadWhatWasWritten : Obligations.CellsReadWhatWasWritten :=
  fun _ _ a v hm ha => ⟨memWrite_wf hm v ha, fun b => memRead_memWrite_of_wf hm a b v⟩

/-! ### The end of a program pulse (R62, R65) -/

/-- The device address is an address of the device (R62). -/
theorem devAddr_lt_of_pos {s : State} (h : 1 ≤ s.cfg.memorySize) : devAddr s < s.cfg.memorySize := by
  unfold devAddr
  split <;> exact Nat.mod_lt _ h

/-- With the output stage on the device address is the latched one (R62). -/
theorem devAddr_of_sroe_on {s : State} (h : s.sroe = .on) :
    devAddr s = (deserOf s.cfg s.latch).toNat % s.cfg.memorySize := if_pos h

/-- With data and address driven a program pulse writes `ProgramCell(old, DOUT)` (R65). -/
theorem programPulse_mem_of_driven {s : State} (h : s.ddir = .output ∧ s.sroe = .on) :
    (programPulse s).mem =
      memWrite s.mem (devAddr s) (programCell s.cfg (memRead s.mem (devAddr s)) s.dout) := by
  rw [programPulse, if_pos h]

/-- Any program pulse writes one word to the cell of `DevAddr` (R65). -/
theorem programPulse_mem (s : State) : ∃ w, (programPulse s).mem = memWrite s.mem (devAddr s) w := by
  unfold programPulse
  split <;> exact ⟨_, rfl⟩

/-- Deselecting the device under high voltage with the override off ends a program pulse (R65). -/
theorem enable_false_mem_of_program {s : State} (hc : s.csel = .asserted)
    (hm : outputEnableMode s = some .highVoltage) (ha : s.aov = .off) : (enable false s).mem = (programPulse s).mem := by
  rw [enable, if_neg Bool.false_ne_true, pin_cs_deasserted_program hc hm ha, emit_mem]

/-- Settles O21: a read after the one write of the pulse. -/
theorem programPulseWritesOneCell : Obligations.ProgramPulseWritesOneCell := by
  intro s hwf hc hm ha
  rw [enable_false_mem_of_program hc hm ha]
  refine ⟨fun hdriven b => ?_, fun b hb => ?_, devAddr_of_sroe_on, devAddr_lt_of_pos⟩
  · rw [programPulse_mem_of_driven hdriven, memRead_memWrite_of_wf hwf, devAddr_of_sroe_on hdriven.2]
    split
    · next hb => rw [hb]
    · rfl
  · obtain ⟨w, hw⟩ := programPulse_mem s
    rw [hw, memRead_memWrite_of_wf hwf, if_neg hb]

/-! ### The end of an erase pulse (R66) -/

/-- Deselecting the device under high voltage with the override on leaves the array of the outcome (R66). -/
theorem enable_false_mem_of_erase {s : State} (hc : s.csel = .asserted)
    (hm : outputEnableMode s = some .highVoltage) (ha : s.aov = .on) :
    (enable false s).mem = erasedArray s.cfg.memorySize (eraseOutcome s) := by
  rw [enable, if_neg Bool.false_ne_true, pin_cs_deasserted_erase hc hm ha, emit_mem]
  rfl

/-- The outcome of an erase pulse is the next of the script (log entry 5). -/
theorem eraseOutcome_of_script {s : State} {x : EraseDraw} {rest : List EraseDraw} (h : s.eraseScript = x :: rest) :
    eraseOutcome s = x := by
  rw [eraseOutcome, h]

/-- A canonical list with a last cell: the rest is canonical below it. -/
theorem memWfFrom_append_singleton {size lo a : Nat} {v : Word} {m : Memory}
    (h : memWfFrom size lo (m ++ [(a, v)]) = true) :
    memWfFrom size lo m = true ∧ (∀ c ∈ m, c.1 < a) ∧ lo ≤ a ∧ a < size ∧ v ≠ erasedValue := by
  induction m generalizing lo with
  | nil =>
    obtain ⟨hlo, hsize, hv, -⟩ := memWfFrom_cons.mp h
    exact ⟨rfl, by simp, hlo, hsize, hv⟩
  | cons c m ih =>
    obtain ⟨b, x⟩ := c
    obtain ⟨hlo, hsize, hx, htail⟩ := memWfFrom_cons.mp h
    obtain ⟨hm, hbelow, hba, ha, hv⟩ := ih htail
    exact ⟨memWfFrom_cons.mpr ⟨hlo, hsize, hx, hm⟩, List.forall_mem_cons.mpr ⟨hba, hbelow⟩, by omega, ha, hv⟩

/-- A write above every listed address adds its cell at the end. -/
theorem memWrite_above {a : Nat} {v : Word} {m : Memory} (h : ∀ c ∈ m, c.1 < a) (hv : v ≠ erasedValue) :
    memWrite m a v = m ++ [(a, v)] := by
  induction m with
  | nil => rw [memWrite, if_neg hv, List.nil_append]
  | cons c m ih =>
    obtain ⟨b, x⟩ := c
    obtain ⟨hb, hm⟩ := List.forall_mem_cons.mp h
    have hba : b < a := hb
    rw [memWrite, if_neg (by omega), if_neg (by omega), ih hm, List.cons_append]

/-- The last cell of a list is written last. -/
theorem arrayOf_append_singleton (size : Nat) (cells : List Host.Cell) (c : Host.Cell) :
    arrayOf size (cells ++ [c]) =
      if c.1 < size then memWrite (arrayOf size cells) c.1 c.2 else arrayOf size cells := by
  simp only [arrayOf, List.foldl_append, List.foldl_cons, List.foldl_nil]

/-- Canonical cells are the array of themselves, so a failed pulse can leave any array (R66). -/
theorem arrayOf_of_wf {size : Nat} {m : Memory} (h : Memory.wf size m = true) : arrayOf size m = m := by
  induction m using List.reverseRecOn with
  | nil => rfl
  | append_singleton m c ih =>
    obtain ⟨hm, hbelow, -, ha, hv⟩ := memWfFrom_append_singleton h
    rw [arrayOf_append_singleton, if_pos ha, ih hm, memWrite_above hbelow hv]

/-! ### Every other pin event (R65, R66) -/

/-- A serializer event leaves the cells. -/
theorem SerialFrame.mem_eq {s t : State} (h : SerialFrame s t) : t.mem = s.mem := by
  unfold SerialFrame at h
  rw [h]

/-- A chip-select event that ends no pulse leaves the cells. -/
theorem selectReaction_of_no_pulse {v : Assertion} {s : State}
    (h : ¬(v = .deasserted ∧ s.csel = .asserted ∧ outputEnableMode s = some .highVoltage)) :
    selectReaction v s = s := by
  unfold selectReaction
  split
  · next hend =>
    obtain ⟨hv, hc⟩ := hend
    exact if_neg fun hm => h ⟨hv, hc, hm⟩
  · rfl

/-- A pin event that ends no pulse leaves the cells (R65, R66). -/
theorem pin_mem_of_no_pulse {p : PinWrite} {s : State}
    (h : ¬(p = .cs .deasserted ∧ s.csel = .asserted ∧ outputEnableMode s = some .highVoltage)) :
    (pin p s).mem = s.mem := by
  cases p with
  | ser v => exact (pin_ser_frame v s).mem_eq
  | sclk v => exact (pin_sclk_frame v s).mem_eq
  | rclk v => exact (pin_rclk_frame v s).mem_eq
  | mr v => cases v <;> rfl
  | cs v =>
    have hsame : selectReaction v s = s := selectReaction_of_no_pulse (by simpa using h)
    simp only [pin, emit_mem, hsame]
  | sroe v => rfl
  | oel v => rfl
  | oeh v => rfl
  | aov v => rfl
  | ddir v => rfl
  | d w => rfl

/-- Settles O22: the pulse leaves the array of its outcome, each outcome from the script has its own, every canonical array
is one, and no other event reaches the cells. -/
theorem erasePulseFollowsOutcome : Obligations.ErasePulseFollowsOutcome := by
  refine ⟨fun s => enable_false_mem_of_erase, fun s rest hc hm ha => ⟨fun hs a => ?_, fun cells hs => ?_⟩,
    fun size m hm => ⟨m, arrayOf_of_wf hm⟩, fun s p => pin_mem_of_no_pulse⟩
  · rw [enable_false_mem_of_erase hc hm ha, eraseOutcome_of_script hs]
    rfl
  · rw [enable_false_mem_of_erase hc hm ha, eraseOutcome_of_script hs]
    rfl

/-! ### The commands (R57) -/

/-! The bodies that end no pulse under high voltage leave the cells, whatever the other lines are. -/

theorem bodyBr_mem {s : State} (h : s.csel = .deasserted) : (bodyBr s).mem = s.mem := by rw [bodyBr_eq h]

theorem bodyR_mem (addr : Nat) {s : State} (hb : s.cfg.bijective) (h : SerialIdle s) : (bodyR addr s).mem = s.mem :=
  (bodyR_cells addr hb h).1

theorem bodyEr_mem {s : State} (h : s.csel = .deasserted) : (bodyEr s).mem = s.mem := by rw [bodyEr_eq h]

theorem bodyBp_mem (s : State) : (bodyBp s).mem = s.mem := by rw [bodyBp_eq]

theorem bodyEp_mem {s : State} (h : s.csel = .deasserted) : (bodyEp s).mem = s.mem := by rw [bodyEp_eq h]

/-- A command other than P and E that ran in its required mode left the cells: it ended no pulse under high voltage. -/
theorem exec_mem_of_required {i : Instr} {s t : State} (h : exec i s = .next t) (hs : Settled s) (hc : s.cs = required i)
    (hp : ∀ a w, i ≠ .p a w) (he : ∀ n, i ≠ .e n) : t.mem = s.mem := by
  obtain ⟨⟨⟨-, -, hb⟩, -⟩, hi, hsel⟩ := hs
  cases i with
  | br => rw [next_of_required h hc]; exact bodyBr_mem hsel
  | r a => rw [next_of_required h hc]; exact bodyR_mem _ hb hi
  | er => rw [next_of_required h hc]; exact bodyEr_mem hsel
  | bp => rw [next_of_required h hc]; exact bodyBp_mem _
  | p a w => exact absurd rfl (hp a w)
  | ep => rw [next_of_required h hc]; exact bodyEp_mem hsel
  | e n => exact absurd rfl (he n)

/-- Settles O46: a rejected command runs nothing, one that ran in its required mode ended no pulse, and a marked run is
outside the statement. -/
theorem onlyProgramAndEraseChangeCells : Obligations.OnlyProgramAndEraseChangeCells := by
  rintro i s t ⟨hs, -⟩ hp he h hf
  cases (exec_run h).2 with
  | rejected cs strict eq => rw [eq]; rfl
  | ran cs body => exact exec_mem_of_required h hs cs hp he
  | marked cs strict body =>
    obtain ⟨-, -, hmark⟩ := bodyRun_mode body
    simp [hmark rfl] at hf

end Sys2Proof.Machine
end

section
/-! Encoding obligations: the decoder and the encoder are one correspondence between the well-formed commands and the words
that spell them (30_encoding.md R70, R75 to R77), read off the fields; the masks of the opcode table (R76), the illegal words
(R78) and the response word (R79) follow from the fields. -/

namespace Sys2Proof

/-! ### The word of a command (R75) -/

/-- The field `addr16` of a command's word, zero where R76 lets the command have none. -/
def Instr.addr16 : Instr → BitVec 16
  | .r addr | .p addr _ => addr
  | _ => 0

/-- The field `imm8` of a command's word, zero where R76 lets the command have none; of the bound of E its low eight bits. -/
def Instr.imm8 : Instr → BitVec 8
  | .p _ word => word
  | .e n => BitVec.ofNat 8 n
  | _ => 0

theorem encode_eq_wordOf (i : Instr) : encode i = wordOf i.opcode 0 i.addr16 i.imm8 := by cases i <;> rfl

/-- A bound taken from a word's `imm8` fits the binary port (R77). -/
theorem wf_e_toNat (d : BitVec 8) : (Instr.e d.toNat).wf = true := decide_eq_true d.isLt

theorem imm8_e_toNat (d : BitVec 8) : (Instr.e d.toNat).imm8 = d := by
  rw [Instr.imm8, BitVec.ofNat_toNat, BitVec.setWidth_eq]

/-- A word put together from four fields is `w` exactly when they are the fields of `w`. -/
theorem eq_wordOf_iff {w : BitVec 32} {o r : BitVec 4} {a : BitVec 16} {d : BitVec 8} :
    w = wordOf o r a d ↔ fieldOpc w = o ∧ fieldRsv w = r ∧ fieldAddr w = a ∧ fieldImm w = d := by
  constructor
  · rintro rfl
    exact ⟨fieldOpc_wordOf .., fieldRsv_wordOf .., fieldAddr_wordOf .., fieldImm_wordOf ..⟩
  · rintro ⟨rfl, rfl, rfl, rfl⟩
    exact (wordOf_fields w).symm

/-! ### The decoder by the fields of the word (R75 to R77) -/

/-- A word that decodes has the fields of its command, and the command has a word. -/
theorem fields_of_decode {w : BitVec 32} {i : Instr} (h : decode w = .ok i) :
    i.wf = true ∧ fieldOpc w = i.opcode ∧ fieldRsv w = 0 ∧ fieldAddr w = i.addr16 ∧ fieldImm w = i.imm8 := by
  obtain ⟨hopc, hrsv, hoperands⟩ := decode_ok h
  cases i with
  | br | er | bp | ep => exact ⟨rfl, hopc, hrsv, hoperands⟩
  | r a => exact ⟨rfl, hopc, hrsv, hoperands.1.symm, hoperands.2⟩
  | p a d => exact ⟨rfl, hopc, hrsv, hoperands.1.symm, hoperands.2.symm⟩
  | e n =>
    obtain ⟨haddr, rfl⟩ := hoperands
    exact ⟨wf_e_toNat _, hopc, hrsv, haddr, (imm8_e_toNat _).symm⟩

/-- A word with the fields of a command that has a word decodes to it. -/
theorem decode_of_fields {w : BitVec 32} {i : Instr} (hwf : i.wf = true) (hopc : fieldOpc w = i.opcode)
    (hrsv : fieldRsv w = 0) (haddr : fieldAddr w = i.addr16) (himm : fieldImm w = i.imm8) : decode w = .ok i := by
  cases i with
  | br | r | er | bp | p | ep =>
    simp [decode, decodeBody, decodeBare, hopc, hrsv, haddr, himm, Instr.opcode, Instr.addr16, Instr.imm8]
  | e n =>
    have hn : n < 256 := of_decide_eq_true hwf
    simp [decode, decodeBody, hopc, hrsv, haddr, himm, Instr.opcode, Instr.addr16, Instr.imm8, Nat.mod_eq_of_lt hn]

/-- The decoder said once: a word decodes to a command exactly when the command has a word and the fields are its fields. -/
theorem decode_eq_ok_iff {w : BitVec 32} {i : Instr} :
    decode w = .ok i ↔
      i.wf = true ∧ fieldOpc w = i.opcode ∧ fieldRsv w = 0 ∧ fieldAddr w = i.addr16 ∧ fieldImm w = i.imm8 :=
  ⟨fields_of_decode, fun ⟨hwf, hopc, hrsv, haddr, himm⟩ => decode_of_fields hwf hopc hrsv haddr himm⟩

/-- R70: a command and its one word. -/
theorem decode_eq_ok_iff_encode {w : BitVec 32} {i : Instr} : decode w = .ok i ↔ i.wf = true ∧ encode i = w := by
  rw [decode_eq_ok_iff, encode_eq_wordOf, eq_comm (b := w), eq_wordOf_iff]

/-- Settles O2: the word of a command holds its fields. -/
theorem encodedCommandsDecodeToThemselves : Obligations.EncodedCommandsDecodeToThemselves :=
  fun _ hwf => decode_eq_ok_iff_encode.mpr ⟨hwf, rfl⟩

/-- Settles O3: a word is its four fields put together, and decoding reads all four. -/
theorem decodedWordsEncodeBack : Obligations.DecodedWordsEncodeBack :=
  fun _ _ => decode_eq_ok_iff_encode.mp

/-! ### The opcode table (R76) -/

theorem wordOf_and_wordOf (o r mo mr : BitVec 4) (a ma : BitVec 16) (d md : BitVec 8) :
    wordOf o r a d &&& wordOf mo mr ma md = wordOf (o &&& mo) (r &&& mr) (a &&& ma) (d &&& md) :=
  BitVec.and_append.trans (by rw [BitVec.and_append, BitVec.and_append]; rfl)

/-- A masked word is a pattern exactly when each of its masked fields is the pattern's. -/
theorem and_wordOf_eq_iff {w : BitVec 32} {mo mr o r : BitVec 4} {ma a : BitVec 16} {md d : BitVec 8} :
    w &&& wordOf mo mr ma md = wordOf o r a d ↔
      fieldOpc w &&& mo = o ∧ fieldRsv w &&& mr = r ∧ fieldAddr w &&& ma = a ∧ fieldImm w &&& md = d := by
  have hand : w &&& wordOf mo mr ma md =
      wordOf (fieldOpc w &&& mo) (fieldRsv w &&& mr) (fieldAddr w &&& ma) (fieldImm w &&& md) := by
    rw [← wordOf_and_wordOf, wordOf_fields]
  rw [hand, eq_wordOf_iff, fieldOpc_wordOf, fieldRsv_wordOf, fieldAddr_wordOf, fieldImm_wordOf]

/-- A row compares `opc`, `rsv` and the operand bits its mask names; where those fix the operands of `i`, it is the row of
`i`. -/
theorem row_iff_decode {w : BitVec 32} {i : Instr} (opc : BitVec 4) (addrMask : BitVec 16) (immMask : BitVec 8)
    (hwf : i.wf = true) (hopc : i.opcode = opc)
    (haddr : fieldAddr w &&& addrMask = 0 ↔ fieldAddr w = i.addr16)
    (himm : fieldImm w &&& immMask = 0 ↔ fieldImm w = i.imm8) :
    w &&& wordOf (.allOnes 4) (.allOnes 4) addrMask immMask = wordOf opc 0 0 0 ↔ decode w = .ok i := by
  rw [and_wordOf_eq_iff, decode_eq_ok_iff, BitVec.and_allOnes, BitVec.and_allOnes, hopc, haddr, himm]
  exact (and_iff_right hwf).symm

/-- A field under a full mask must be zero. -/
theorem masked_iff {n : Nat} {x y : BitVec n} (h : y = 0) : x &&& BitVec.allOnes n = 0 ↔ x = y := by
  rw [BitVec.and_allOnes, h]

/-- A field under an empty mask is the operand itself. -/
theorem unmasked_iff {n : Nat} {x y : BitVec n} (h : y = x) : x &&& 0 = 0 ↔ x = y :=
  iff_of_true BitVec.and_zero h.symm

/-- The row of a command without operands. -/
theorem bare_row_iff_decode {w : BitVec 32} (i : Instr) (hwf : i.wf = true) (ha : i.addr16 = 0) (hd : i.imm8 = 0) :
    w &&& wordOf (.allOnes 4) (.allOnes 4) (.allOnes 16) (.allOnes 8) = wordOf i.opcode 0 0 0 ↔ decode w = .ok i :=
  row_iff_decode _ _ _ hwf rfl (masked_iff ha) (masked_iff hd)

/-- Every row looks at the four opcode bits, and its pattern has no others. -/
theorem opcode_bits_of_row : ∀ row ∈ opcodeTable, row.mask &&& 0xF0000000 = 0xF0000000 ∧
    row.pattern &&& 0xF0000000 = row.pattern := by decide

/-- The opcode bits of a word are the pattern of every row it spells. -/
theorem opcode_bits_of_spells {row : OpcodeRow} {w : BitVec 32} (hrow : row ∈ opcodeTable) (h : row.spells w) :
    w &&& 0xF0000000 = row.pattern := by
  obtain ⟨hmask, hpattern⟩ := opcode_bits_of_row row hrow
  calc w &&& 0xF0000000 = (w &&& row.mask) &&& 0xF0000000 := by rw [BitVec.and_assoc, hmask]
    _ = row.pattern := by rw [h, hpattern]

theorem row_eq_of_pattern_eq : ∀ row ∈ opcodeTable, ∀ row' ∈ opcodeTable, row.pattern = row'.pattern → row = row' := by
  decide

/-- Settles O4: each row compares the fields the decoder compares, and rows with one pattern are one row. -/
theorem decoderFollowsOpcodeTable : Obligations.DecoderFollowsOpcodeTable := by
  refine ⟨fun w => ⟨bare_row_iff_decode .br rfl rfl rfl, ?_, bare_row_iff_decode .er rfl rfl rfl,
    bare_row_iff_decode .bp rfl rfl rfl, ?_, bare_row_iff_decode .ep rfl rfl rfl, ?_⟩, fun row hrow row' hrow' w h h' => ?_⟩
  · exact row_iff_decode 2 0 (.allOnes 8) rfl rfl (unmasked_iff rfl) (masked_iff rfl)
  · exact row_iff_decode 5 0 0 rfl rfl (unmasked_iff rfl) (unmasked_iff rfl)
  · exact row_iff_decode 7 (.allOnes 16) 0 (wf_e_toNat _) rfl (masked_iff rfl) (unmasked_iff (imm8_e_toNat _))
  · exact row_eq_of_pattern_eq row hrow row' hrow'
      ((opcode_bits_of_spells hrow h).symm.trans (opcode_bits_of_spells hrow' h'))

/-! ### The illegal words (R78) -/

/-- The opcodes of R76 are those R78 does not refuse. -/
theorem opcode_cases : ∀ o : BitVec 4, o ≠ 0 → o.toNat < 8 →
    o = 1 ∨ o = 2 ∨ o = 3 ∨ o = 4 ∨ o = 5 ∨ o = 6 ∨ o = 7 := by decide

/-- The legal words: an opcode of the table, `rsv` zero, and each operand field zero but where the command has it. -/
theorem exists_decode_iff (w : BitVec 32) :
    (∃ i, decode w = .ok i) ↔
      fieldOpc w ≠ 0 ∧ (fieldOpc w).toNat < 8 ∧ fieldRsv w = 0 ∧
        (fieldAddr w = 0 ∨ fieldOpc w = 2 ∨ fieldOpc w = 5) ∧ (fieldImm w = 0 ∨ fieldOpc w = 5 ∨ fieldOpc w = 7) := by
  constructor
  · rintro ⟨i, h⟩
    obtain ⟨-, hopc, hrsv, haddr, himm⟩ := fields_of_decode h
    rw [hopc, haddr, himm]
    cases i <;> simp [hrsv, Instr.opcode, Instr.addr16, Instr.imm8]
  · rintro ⟨hzero, hlt, hrsv, haddr, himm⟩
    obtain hopc | hopc | hopc | hopc | hopc | hopc | hopc := opcode_cases _ hzero hlt <;>
      simp [hopc] at haddr himm
    · exact ⟨.br, decode_of_fields rfl hopc hrsv haddr himm⟩
    · exact ⟨.r (fieldAddr w), decode_of_fields rfl hopc hrsv rfl himm⟩
    · exact ⟨.er, decode_of_fields rfl hopc hrsv haddr himm⟩
    · exact ⟨.bp, decode_of_fields rfl hopc hrsv haddr himm⟩
    · exact ⟨.p (fieldAddr w) (fieldImm w), decode_of_fields rfl hopc hrsv rfl rfl⟩
    · exact ⟨.ep, decode_of_fields rfl hopc hrsv haddr himm⟩
    · exact ⟨.e (fieldImm w).toNat, decode_of_fields (wf_e_toNat _) hopc hrsv haddr (imm8_e_toNat _).symm⟩

/-- The words R78 lists, field by field. -/
theorem illegal_iff (w : BitVec 32) :
    (∀ i, decode w ≠ .ok i) ↔
      (fieldOpc w = 0 ∨ 8 ≤ (fieldOpc w).toNat ∨ fieldRsv w ≠ 0 ∨
        (fieldAddr w ≠ 0 ∧ fieldOpc w ≠ 2 ∧ fieldOpc w ≠ 5) ∨ (fieldImm w ≠ 0 ∧ fieldOpc w ≠ 5 ∧ fieldOpc w ≠ 7)) := by
  rw [← not_exists, exists_decode_iff]
  simp only [not_and_or, not_or, not_not, not_lt]

end Sys2Proof

namespace Sys2Proof.Machine

/-- A ready port answers an illegal word and takes it, and nothing else changes (R78, R198). -/
theorem step_of_illegal {s : State} {w : BitVec 32} {rest : List (BitVec 32)} (hready : Ready s)
    (hc : s.commands = w :: rest) (hd : ∀ i, decode w ≠ .ok i) :
    step s = .next (finish (fieldOpc w) .illegal 0 0 { s with commands := rest }) := by
  have hanswer : step s = illegalWord w { s with commands := rest } := by
    cases h : decode w with
    | ok i => exact absurd h (hd i)
    | error reason => simp only [step, hc, h]
  exact hanswer.trans (accept_ready (raise (fieldOpc w) .illegal) (s := { s with commands := rest }) hready)

/-- Settles O5: the fields say which words are illegal, and the port's answer to one writes the result registers only. -/
theorem illegalWordsExecuteNothing : Obligations.IllegalWordsExecuteNothing :=
  ⟨illegal_iff, fun _ _ _ => step_of_illegal, (illegal_iff 0).mpr (.inl (by decide)),
    (illegal_iff 0xFFFFFFFF).mpr (.inr (.inl (by decide)))⟩

/-! ### The vectors and the response word (R79) -/

/-- Settles O1: each legal vector is the word of its command, and E7 is refused by its reserved field. -/
theorem specWordsDecode : Obligations.SpecWordsDecode := by
  have hword : ∀ i : Instr, i.wf = true → decode (encode i) = .ok i := encodedCommandsDecodeToThemselves
  exact ⟨hword .br rfl, hword (.r 0x0010) rfl, hword (.r 0xFFFF) rfl, hword .er rfl, hword .bp rfl,
    hword (.p 0x0010 0xFF) rfl, hword (.p 0xABCD 0x00) rfl, by decide, hword .ep rfl, hword (.e 3) rfl,
    hword (.e 255) rfl, hword (.e 0) rfl⟩

/-- Settles O6: the response word is put together as a command word is, so its fields come back. -/
theorem responseWordHoldsResults : Obligations.ResponseWordHoldsResults := fun s =>
  ⟨fieldOpc_wordOf .., (fieldRsv_wordOf ..).trans (by cases s.status <;> rfl), fieldAddr_wordOf .., fieldImm_wordOf ..⟩

end Sys2Proof.Machine
end

section
/-! Address serializer obligations: set_address as one effect on idle serial lines (40_address_serializer.md R91, R93), the
external register edge by edge (R94 to R96), and the discipline of the serial pulses along every step (R92, R97, R222,
R223). -/

namespace Sys2Proof.Machine

/-! ### set_address (R91, R93) -/

/-- Settles O11: the whole effect of set_address on idle lines, with `Ser(a)` as the bits sent. -/
theorem setAddressSerializes : Obligations.SetAddressSerializes := fun s addr hb hi =>
  ⟨serOf s.cfg (BitVec.ofNat 16 addr), setAddress_eq addr hb hi, addressEvents_length _, serOf_getLsbD hb _,
    deserOf_serOf hb _⟩

/-! ### The external register, edge by edge (R96) -/

/-- Asserting master reset clears both registers. -/
theorem pin_mr_asserted (s : State) :
    pin (.mr .asserted) s = emit (.pin (.mr .asserted)) { s with mr := .asserted, shiftReg := 0, latch := 0 } := rfl

/-- Releasing master reset changes its own line only. -/
theorem pin_mr_deasserted (s : State) :
    pin (.mr .deasserted) s = emit (.pin (.mr .deasserted)) { s with mr := .deasserted } := rfl

/-- A rising `SCLK` on idle serial lines shifts `SER` in. -/
theorem pin_sclk_rising {s : State} (h : SerialIdle s) :
    pin (.sclk true) s =
      emit (.pin (.sclk true)) { s with sclk := true, shiftReg := shiftIn s.shiftReg s.ser } := by
  obtain ⟨hsclk, hrclk, hmr⟩ := h
  simp [pin, clockReaction, hsclk, hrclk, hmr]

/-- A rising `RCLK` on idle serial lines copies `S` to `L`. -/
theorem pin_rclk_rising {s : State} (h : SerialIdle s) :
    pin (.rclk true) s = emit (.pin (.rclk true)) { s with rclk := true, latch := s.shiftReg } := by
  obtain ⟨hsclk, hrclk, hmr⟩ := h
  simp [pin, latchReaction, hsclk, hrclk, hmr]

theorem serReaction_of_sclk_low (v : Bool) {s : State} (h : s.sclk = false) : serReaction v s = s :=
  if_neg (by simp [h])

theorem clockReaction_of_no_edge {v : Bool} {s : State} (h : v = true → s.sclk = true ∨ s.mr = .asserted) :
    clockReaction v s = s :=
  if_neg fun ⟨hv, hsclk, hmr⟩ => by simpa [hsclk, hmr] using h hv

theorem latchReaction_of_no_edge {v : Bool} {s : State} (h : v = true → s.rclk = true ∨ s.mr = .asserted) :
    latchReaction v s = s :=
  if_neg fun ⟨hv, hrclk, hmr⟩ => by simpa [hrclk, hmr] using h hv

/-- A pin event that is no edge the register reacts to leaves `S` and `L`. -/
theorem pin_register_of_no_edge {p : PinWrite} {s : State} (hreset : p ≠ .mr .asserted)
    (hclock : p = .sclk true → s.sclk = true ∨ s.mr = .asserted)
    (hlatch : p = .rclk true → s.rclk = true ∨ s.mr = .asserted) (hser : ∀ v, p = .ser v → s.sclk = false) :
    (pin p s).shiftReg = s.shiftReg ∧ (pin p s).latch = s.latch := by
  cases p with
  | ser v => simp [pin, serReaction_of_sclk_low v (hser v rfl)]
  | sclk v => simp [pin, clockReaction_of_no_edge fun hv => hclock (congrArg _ hv)]
  | rclk v => simp [pin, latchReaction_of_no_edge fun hv => hlatch (congrArg _ hv)]
  | mr v =>
    cases v with
    | asserted => exact absurd rfl hreset
    | deasserted => exact ⟨rfl, rfl⟩
  | cs v =>
    simp only [pin]
    rw [selectReaction_frame]
    exact ⟨rfl, rfl⟩
  | sroe _ | oel _ | oeh _ | aov _ | ddir _ | d _ => exact ⟨rfl, rfl⟩

/-- With the override off an address line carries the latch through the wiring, while the output stage is on (R30). -/
theorem addressLine_of_aov_off {s : State} (h : s.aov = .off) (i : Fin 16) :
    addressLine s i = if s.sroe = .on then .level (s.latch.getLsbD s.cfg.bitOrderMap[i].val) else .undriven :=
  if_neg (by simp [h])

/-- Settles O14: the two rising edges and master reset by their equations, the shift bit by bit, and no reaction to any other
event. -/
theorem registerReactsToEdges : Obligations.RegisterReactsToEdges := by
  refine fun s => ⟨fun hsclk hrclk hmr => ?_, fun hrclk hsclk hmr => ?_, ⟨rfl, rfl⟩, fun p => pin_register_of_no_edge,
    addressLine_of_aov_off⟩
  · rw [pin_sclk_rising ⟨hsclk, hrclk, hmr⟩]
    refine ⟨rfl, shiftIn_getLsbD _ _ 0 (by omega), fun j hj => ?_⟩
    exact (shiftIn_getLsbD _ _ (j + 1) (by omega)).trans (if_neg j.succ_ne_zero)
  · rw [pin_rclk_rising ⟨hsclk, hrclk, hmr⟩]
    exact ⟨rfl, rfl⟩

/-- Settles O15: the four events of `reset()` by their equations, and the one of the output stage. -/
theorem registerResetClearsAndDisables : Obligations.RegisterResetClearsAndDisables := by
  refine fun s => ⟨?_, fun on => rfl⟩
  simp [registerReset, setRegisterOutput, pin_mr_asserted, pin_mr_deasserted, emit]

/-! ### The serial pulses along the trace (R92, R97, R222, R223) -/

/-- The serial levels of R43 at a point of the trace. -/
def IdleLevels (l : Lines) : Prop := l.sclk = false ∧ l.rclk = false ∧ l.mr = .deasserted

theorem idleLevels_linesOf {s : State} : IdleLevels (linesOf s) ↔ SerialIdle s := .rfl

theorem serialIdle_of_linesOf_eq {s t : State} (h : SerialIdle s) (hlines : linesOf t = linesOf s) : SerialIdle t := by
  rw [← idleLevels_linesOf, hlines]
  exact h

/-- The events from `s` to `t` keep the serial discipline, and the serial lines are idle at their end. -/
def Disciplined (s t : State) : Prop := SerialIdle t ∧ runsBy serialDiscipline s t

theorem Disciplined.trans {s t u : State} (h : Disciplined s t) (g : Disciplined t u) : Disciplined s u :=
  ⟨g.1, runsBy_trans h.2 g.2⟩

/-! A change without an event, an event that moves no level, and one or two pin events that leave the serial levels idle. -/

theorem disciplined_of_silent {s t : State} (h : SerialIdle s) (htrace : t.trace = s.trace) (hlines : linesOf t = linesOf s) :
    Disciplined s t := ⟨serialIdle_of_linesOf_eq h hlines, runsBy_silent htrace hlines⟩

theorem disciplined_of_event {x : Event} {s t : State} (h : SerialIdle s) (htrace : t.trace = s.trace ++ [x])
    (hlines : linesOf t = linesOf s) (hmoves : lineStep (linesOf s) x = linesOf s) (hok : serialDiscipline (linesOf s) x) :
    Disciplined s t := ⟨serialIdle_of_linesOf_eq h hlines, runsBy_event htrace hlines hmoves hok⟩

theorem pin_disciplined {p : PinWrite} {s : State} (hok : serialDiscipline (linesOf s) (.pin p))
    (hidle : IdleLevels (lineStep (linesOf s) (.pin p))) : Disciplined s (pin p s) :=
  ⟨by rwa [← idleLevels_linesOf, linesOf_pin], runsBy_pin hok⟩

theorem two_pins_disciplined {p q : PinWrite} {s : State} (hp : serialDiscipline (linesOf s) (.pin p))
    (hq : serialDiscipline (lineStep (linesOf s) (.pin p)) (.pin q))
    (hidle : IdleLevels (lineStep (lineStep (linesOf s) (.pin p)) (.pin q))) : Disciplined s (pin q (pin p s)) :=
  ⟨by rwa [← idleLevels_linesOf, linesOf_pin, linesOf_pin], runsBy_two_pins hp hq⟩

/-- One bit on the wire: `SER` changes while `SCLK` is low, and both clock edges find `RCLK` low. -/
theorem shiftBit_disciplined (b : Bool) {s : State} (h : SerialIdle s) : Disciplined s (shiftBit b s) := by
  obtain ⟨hsclk, -, hmr⟩ := id h
  have hser : Disciplined s (pin (.ser b) s) := pin_disciplined ⟨hsclk, hmr⟩ h
  obtain ⟨-, hrclk', hmr'⟩ := hser.1
  exact hser.trans (two_pins_disciplined ⟨hrclk', hmr'⟩ ⟨hrclk', hmr'⟩ ⟨rfl, hrclk', hmr'⟩)

theorem shiftOut_disciplined (k : Nat) {s : State} (h : SerialIdle s) : Disciplined s (shiftOut k s) := by
  induction k generalizing s with
  | zero => exact ⟨h, runsBy_refl s⟩
  | succ k ih =>
    have hbit := shiftBit_disciplined (s.vec.getLsbD k) h
    exact hbit.trans (ih hbit.1)

/-- The latch pulse: both of its edges find `SCLK` low. -/
theorem pulseLatch_disciplined {s : State} (h : SerialIdle s) : Disciplined s (pulseLatch s) := by
  obtain ⟨hsclk, -, hmr⟩ := h
  exact two_pins_disciplined ⟨hsclk, hmr⟩ ⟨hsclk, hmr⟩ ⟨hsclk, rfl, hmr⟩

/-- set_address finds master reset released, so it is a fill, a shift and a latch pulse, on any map of the bits. -/
theorem setAddress_disciplined (a : Nat) {s : State} (h : SerialIdle s) : Disciplined s (setAddress a s) := by
  obtain ⟨-, -, hmr⟩ := id h
  have hfill : Disciplined s (filled a s) := disciplined_of_silent h rfl rfl
  have hshift := hfill.trans (shiftOut_disciplined 16 hfill.1)
  rw [setAddress_eq_filled, if_neg (by simp [hmr])]
  exact hshift.trans (pulseLatch_disciplined hshift.1)

/-- Every micro-operation keeps the discipline: set_address by its pulses, and no other drives a serial line (R90). -/
theorem micro_disciplined {s t : State} (m : Micro s t) (h : SerialIdle s) : Disciplined s t := by
  cases m with
  | address a => exact setAddress_disciplined a h
  | stage | select | direction => exact pin_disciplined trivial h
  | outputEnable mode => cases mode <;> exact two_pins_disciplined trivial trivial h
  | addressOverride mode => cases mode <;> exact pin_disciplined trivial h
  | write w =>
    unfold writeBus
    split
    · have hdout : Disciplined s { s with dout := w } := disciplined_of_silent h rfl rfl
      exact hdout.trans (pin_disciplined trivial h)
    · exact disciplined_of_silent h rfl rfl
  | read =>
    unfold readBus sample
    split <;> exact disciplined_of_event h rfl rfl rfl trivial
  | wait | mismatch => exact disciplined_of_event h rfl rfl rfl trivial
  | poll =>
    unfold pollCancel dropAnswer
    split <;> exact disciplined_of_event h rfl rfl rfl trivial
  | record => exact disciplined_of_silent h rfl rfl

/-- Settles O51: the idle serial levels are kept by every micro-operation with every event allowed, so by every step; the
premise that the run is unmarked is not needed. -/
theorem serialPulsesNeverOverlap : Obligations.SerialPulsesNeverOverlap := fun _ _ hi h _ =>
  step_runsBy (P := IdleLevels) (fun _ _ _ _ _ => trivial) (fun _ _ m hi => micro_disciplined m hi) hi h

end Sys2Proof.Machine
end

section
/-! Data bus port obligations: set_direction and write (41_data_bus_port.md R106, R107), and read (R108), each by an equation
per case of the micro-operation. -/

namespace Sys2Proof.Machine

/-! ### The lines and the two directions (R106, R107) -/

theorem dataLines_of_output {s : State} (h : s.ddir = .output) : dataLines s = some s.dout := by
  rw [dataLines, h]

theorem dataLines_of_input {s : State} (h : s.ddir = .input) : dataLines s = none := by
  rw [dataLines, h]

/-- With `DDIR = Out` write takes the word into `DOUT` and drives it (R107). -/
theorem writeBus_of_output (w : Word) {s : State} (h : s.ddir = .output) :
    writeBus w s = emit (.pin (.d w)) { s with dout := w, d := some w } :=
  (if_pos h).trans (pin_d ..)

/-- With `DDIR = In` write only marks the run (R107). -/
theorem writeBus_of_input (w : Word) {s : State} (h : s.ddir = .input) : writeBus w s = { s with fault := true } :=
  if_neg (by simp [h])

/-- Settles O17: set_direction is one pin write that reads nothing else, and write is settled by the direction it finds. -/
theorem dataBusDirectionAndWrite : Obligations.DataBusDirectionAndWrite := by
  refine fun s => ⟨pin_ddir .., pin_ddir .., ⟨dataLines_of_input rfl, dataLines_of_output rfl⟩, fun w =>
    ⟨fun hout => ?_, writeBus_of_input w⟩⟩
  rw [writeBus_of_output w hout]
  exact ⟨rfl, dataLines_of_output hout⟩

/-! ### read (R64, R108) -/

/-- While the device drives the bus its value is the cell at the device address (R64). -/
theorem busValue_of_driven {s : State} (h : BusDriven s) : busValue s = memRead s.mem (devAddr s) := if_pos h

/-- A sample appends its event; of the state it moves at most the counter of free values (R64). -/
theorem sample_eq (s : State) :
    sample s =
      { s with
        trace := s.trace ++ [.sample (busValue s)]
        draws := if BusDriven s then s.draws else s.draws + 1 } := by
  unfold sample
  split <;> rfl

/-- Settles O18: a driven bus has its output stage on, so the cell is the one the latch addresses; the frame is that of
`sample`. -/
theorem readReturnsDrivenCell : Obligations.ReadReturnsDrivenCell := by
  refine fun s => ⟨fun hdriven => ?_, _, sample_eq s⟩
  obtain ⟨-, -, -, -, hsroe⟩ := id hdriven
  rw [readBusValue, busValue_of_driven hdriven, devAddr_of_sroe_on hsroe]

end Sys2Proof.Machine
end

section
/-! Power sequencer obligations: set_output_enable (42_power_sequencer.md R115) breaks before it makes, each of its two events
leaving the drivers exclusive; set_address_override (R116) and enable (43_chip_select.md R125) are one pin write each. -/

namespace Sys2Proof.Machine

/-! ### Break before make (R42, R115) -/

/-- Turning the high-voltage driver off excludes it, whatever the logic driver does. -/
theorem exclusiveAfter_oeh_off (l : Lines) : exclusiveAfter l (.pin (.oeh .off)) := fun hon => nomatch hon

/-- Turning the logic driver off excludes it, whatever the high-voltage driver does. -/
theorem exclusiveAfter_oel_off (l : Lines) : exclusiveAfter l (.pin (.oel .off)) := fun _ => rfl

/-- With the high-voltage driver off the logic driver may take any value. -/
theorem exclusiveAfter_oel (v : LogicDrive) {l : Lines} (h : l.oeh = .off) : exclusiveAfter l (.pin (.oel v)) :=
  fun hon => nomatch h.symm.trans hon

/-- With the logic driver off the high-voltage driver may take any value. -/
theorem exclusiveAfter_oeh (v : Switch) {l : Lines} (h : l.oel = .off) : exclusiveAfter l (.pin (.oeh v)) := fun _ => h

/-- The disabling event comes first, so the drivers are exclusive after each of the two, from any levels (R115). -/
theorem setOutputEnable_runsBy_exclusiveAfter (m : OutputEnable) (s : State) :
    runsBy exclusiveAfter s (setOutputEnable m s) := by
  cases m with
  | logicLow => exact runsBy_two_pins (exclusiveAfter_oeh_off _) (exclusiveAfter_oel _ rfl)
  | logicHigh => exact runsBy_two_pins (exclusiveAfter_oeh_off _) (exclusiveAfter_oel _ rfl)
  | highVoltage => exact runsBy_two_pins (exclusiveAfter_oel_off _) (exclusiveAfter_oeh _ rfl)
  | disabled => exact runsBy_two_pins (exclusiveAfter_oeh_off _) (exclusiveAfter_oel _ rfl)

theorem setOutputEnable_disabled (s : State) :
    setOutputEnable .disabled s =
      { s with oeh := .off, oel := .off, trace := s.trace ++ [.pin (.oeh .off), .pin (.oel .off)] } := by
  simp [setOutputEnable, emit]

/-- The two events set both drivers, so the mode reached is the one asked for (R29, R115). -/
theorem outputEnableMode_setOutputEnable (m : OutputEnable) (s : State) :
    outputEnableMode (setOutputEnable m s) = some m := by
  cases m <;> rfl

/-- Settles O19: both drivers are set, the disabling event first, and each mode has its equation. -/
theorem outputEnableBreaksBeforeMake : Obligations.OutputEnableBreaksBeforeMake := by
  refine fun s m => ⟨outputEnableMode_setOutputEnable m s, setOutputEnable_runsBy_exclusiveAfter m s, ?_⟩
  cases m with
  | logicLow => exact setOutputEnable_logicLow s
  | logicHigh => exact setOutputEnable_logicHigh s
  | highVoltage => exact setOutputEnable_highVoltage s
  | disabled => exact setOutputEnable_disabled s

/-! ### The override net and the device-select line (R116, R125) -/

/-- Deselecting the device moves its line, and of the rest only what the end of a pulse does (R65, R66, R125). -/
theorem enable_false_frame (s : State) :
    enable false s =
      { s with
        csel := .deasserted, trace := s.trace ++ [.pin (.cs .deasserted)], mem := (enable false s).mem
        eraseScript := (enable false s).eraseScript, draws := (enable false s).draws } := by
  have hpin : enable false s = emit (.pin (.cs .deasserted)) { selectReaction .deasserted s with csel := .deasserted } := rfl
  rw [hpin, selectReaction_frame]
  rfl

/-- Deselecting a deselected device ends no pulse, and its line stays (R125). -/
theorem enable_false_of_deasserted {s : State} (h : s.csel = .deasserted) :
    enable false s = emit (.pin (.cs .deasserted)) s := by
  have hline : { s with csel := .deasserted } = s := by rw [← h]
  calc enable false s = emit (.pin (.cs .deasserted)) { s with csel := .deasserted } := pin_cs_deasserted_idle h
    _ = emit (.pin (.cs .deasserted)) s := by rw [hline]

/-- Settles O20: nothing reacts to the override line nor to selecting the device, and a pulse can end only when an asserted
line is deasserted. -/
theorem overrideAndSelectDriveOneLine : Obligations.OverrideAndSelectDriveOneLine :=
  fun s => ⟨pin_aov .., pin_aov .., pin_cs_asserted s, enable_false_frame s, enable_false_of_deasserted⟩

end Sys2Proof.Machine
end

section
/-! Cycle state machine obligations: the precondition check and the transition table for every command
(44_cycle_state_machine.md R130 to R133), the six cycle commands as one effect each (R134 to R142), and a word read back in a
read cycle after its program cycle (R144). -/

namespace Sys2Proof.Machine

/-! ### A command on a ready port (R36, R132) -/

/-- What a command runs once the check has passed; the address operand is reduced at the port (R77). -/
def commandBody (cfg : Cfg) : Instr → State → State
  | .br => bodyBr
  | .r a => bodyR (addressOperand cfg a)
  | .er => bodyEr
  | .bp => bodyBp
  | .p a w => bodyP (addressOperand cfg a) w
  | .ep => bodyEp
  | .e n => bodyE n

theorem exec_eq_commandBody (i : Instr) (s : State) :
    exec i s = accept (check i.opcode (required i) (commandBody s.cfg i)) s := by
  cases i <;> rfl

theorem commandBody_ignoresResults (cfg : Cfg) (i : Instr) : IgnoresResults (commandBody cfg i) := by
  cases i with
  | br => exact bodyBr_ignoresResults
  | r a => exact bodyR_ignoresResults _
  | er => exact bodyEr_ignoresResults
  | bp => exact bodyBp_ignoresResults
  | p a w => exact bodyP_ignoresResults _ w
  | ep => exact bodyEp_ignoresResults
  | e n => exact bodyE_ignoresResults n

/-- Writing the results clears `BUSY`, so a run that does not read them does not read `BUSY` either. -/
theorem IgnoresResults.busy_set {run : State → State} (h : IgnoresResults run) (s : State) :
    run { s with busy := true } = run s :=
  (h s.ropc s.status s.raddr s.rdata { s with busy := true }).symm.trans (h s.ropc s.status s.raddr s.rdata s)

/-- A ready port runs the command's check and body on the state as it is. -/
theorem exec_of_ready (i : Instr) {s : State} (h : Ready s) :
    exec i s = .next (check i.opcode (required i) (commandBody s.cfg i) s) := by
  rw [exec_eq_commandBody, accept_ready _ h,
    (check_ignoresResults _ _ (commandBody_ignoresResults s.cfg i)).busy_set]

/-- In its required state a command answers the end of its body. -/
theorem exec_of_required {i : Instr} {s t : State} (h : Ready s) (hc : s.cs = required i)
    (hbody : commandBody s.cfg i s = t) : exec i s = .next t := by
  rw [exec_of_ready i h, check, if_pos hc, hbody]

/-- Outside its required state strict mode rejects a command. -/
theorem exec_of_strict (i : Instr) {s : State} (h : Ready s) (hs : s.cfg.strict = true) (hc : s.cs ≠ required i) :
    exec i s = .next (rejected i s) := by
  obtain ⟨-, hbusy⟩ := id h
  rw [exec_of_ready i h, check, if_neg hc, if_pos hs, rejected, hbusy]
  rfl

/-- Outside its required state non-strict mode runs the body with the mark set. -/
theorem exec_of_nonStrict (i : Instr) {s : State} (h : Ready s) (hs : s.cfg.strict = false) (hc : s.cs ≠ required i) :
    exec i s = .next (commandBody s.cfg i { s with fault := true }) := by
  rw [exec_of_ready i h, check, if_neg hc, if_neg (by simp [hs])]

/-! ### The transition table (R130, R133) -/

/-- Settles O41, along what a command can do: a rejection moves nothing but the results, and a body that ran ends in the mode of
the table. -/
theorem transitionTable : Obligations.TransitionTable := by
  intro i s t h
  cases (exec_run h).2 with
  | rejected cs strict eq =>
    subst eq
    simp [cs, strict]
  | ran cs body =>
    obtain ⟨hmode, hstatus, -⟩ := bodyRun_mode body
    exact ⟨hmode.trans (if_pos (.inl cs)).symm, by simp [hstatus, cs], fun hc => absurd cs hc⟩
  | marked cs strict body =>
    obtain ⟨hmode, hstatus, hmark⟩ := bodyRun_mode body
    exact ⟨hmode.trans (if_pos (.inr strict)).symm, by simp [hstatus, strict], fun _ _ => hmark rfl⟩

/-- A command found in its required state keeps the mode, opens a cycle from `Idle` or closes one (R133). -/
theorem cycleAfter_required (i : Instr) :
    cycleAfter i (required i) = required i ∨ required i = .idle ∨ cycleAfter i (required i) = .idle := by
  cases i <;> simp [cycleAfter, required]

/-- Settles O42: of what a step can be only a command in its required state changes the mode, and that as the table says. -/
theorem cyclesOpenFromIdleOnly : Obligations.CyclesOpenFromIdleOnly := by
  intro s t hs h
  obtain ⟨-, rfl⟩ | ⟨w, rest, -, ⟨i, -, hexec⟩ | ⟨-, -, rfl⟩⟩ := step_run h
  · exact .inl rfl
  · obtain ⟨hmode, -, -⟩ := transitionTable i _ t hexec
    by_cases hc : s.cs = required i
    · rw [hmode, if_pos (.inl hc), hc]
      exact cycleAfter_required i
    · rw [hmode, if_neg (by simp [hc, hs])]
      exact .inl rfl
  · exact .inl rfl

/-! ### The precondition check (R132) -/

/-- Settles O40: the table gives the mode, the status and the mark, and a command that is not rejected reports no violation. -/
theorem nonStrictModeRunsAndMarks : Obligations.NonStrictModeRunsAndMarks := by
  intro i s hready hs
  obtain ⟨t, h⟩ := exec_ready i hready
  obtain ⟨hmode, hstatus, hmark⟩ := transitionTable i s t h
  exact ⟨t, h, by simp [hstatus, hs], fun hc => hmark hc hs, hmode.trans (if_pos (.inr hs)), exec_noReport h (.inr hs)⟩

/-- Of a run that keeps the mode it finds, the mode written last is the one that stays. -/
theorem withMode_run_withMode {run : State → State} {c : CycleState} {s : State} (d : CycleState)
    (h : run (withMode c s) = withMode c (run s)) : withMode d (run (withMode c s)) = withMode d (run s) := by
  rw [h]
  rfl

/-- No body reads the mode: from another mode it ends in the same state, up to the mode it ends in. -/
theorem withMode_commandBody (cfg : Cfg) (i : Instr) (c d : CycleState) (s : State) :
    withMode d (commandBody cfg i (withMode c s)) = withMode d (commandBody cfg i s) := by
  cases i with
  | br => exact congrArg (withMode d) (bodyBr_withMode c s)
  | r a => exact withMode_run_withMode d (bodyR_withMode c s _)
  | er => exact congrArg (withMode d) (bodyEr_withMode c s)
  | bp => exact congrArg (withMode d) (bodyBp_withMode c s)
  | p a w => exact withMode_run_withMode d (bodyP_withMode c s _ w)
  | ep => exact congrArg (withMode d) (bodyEp_withMode c s)
  | e n => exact withMode_run_withMode d (bodyE_withMode c s n)

/-- Settles O39: the rejection is the strict branch of the check; in non-strict mode the marked body runs, which reads no mode
and ends in the one of the table. -/
theorem preconditionCheck : Obligations.PreconditionCheck := by
  refine fun i s hready hc => ⟨fun hs => exec_of_strict i hready hs hc, fun hs => ?_⟩
  have hrun := exec_of_nonStrict i hready hs hc
  obtain ⟨hmode, -, -⟩ := transitionTable i s _ hrun
  rw [if_pos (.inr hs)] at hmode
  have hrequired : exec i { s with cs := required i, fault := true } =
      .next (commandBody s.cfg i (withMode (required i) { s with fault := true })) :=
    exec_of_required hready rfl rfl
  obtain ⟨-, -, hmark, -⟩ := exec_frame hrequired
  refine ⟨_, hrequired, hmark rfl, hrun.trans (congrArg _ ?_)⟩
  calc commandBody s.cfg i { s with fault := true }
      = withMode (cycleAfter i s.cs) (commandBody s.cfg i { s with fault := true }) := by rw [← hmode]; rfl
    _ = _ := (withMode_commandBody s.cfg i (required i) _ _).symm

/-! ### The six cycle commands (R134 to R142) -/

/-- The response word of a command that answers `OK` with no address and no word is its opcode alone (R79). -/
theorem responseWord_of_bare {s : State} (opc : BitVec 4) (hopc : s.ropc = opc) (hstatus : s.status = .ok)
    (haddr : s.raddr = 0) (hdata : s.rdata = 0) : responseWord s = wordOf opc 0 0 0 := by
  rw [responseWord, hopc, hstatus, haddr, hdata]
  rfl

theorem readEvents_length (v : Addr) (w : Word) : (readEvents v w).length = 59 := by
  simp [readEvents, addressEvents_length]

theorem programEvents_length (v : Addr) (w : Word) : (programEvents v w).length = 56 := by
  simp [programEvents, addressEvents_length]

/-- Settles O24: the equation of BR's body with the device deselected. -/
theorem beginReadResult : Obligations.BeginReadResult := by
  refine ⟨fun s ⟨⟨hready, _, hsel⟩, _⟩ hc => ?_, fun s => exec_of_strict .br⟩
  exact ⟨_, exec_of_required hready hc (bodyBr_eq hsel), responseWord_of_bare 1 rfl rfl rfl rfl, by rw [hready.2]⟩

/-- Settles O26: the equation of ER's body with the device deselected. -/
theorem endReadResult : Obligations.EndReadResult := by
  refine ⟨fun s ⟨⟨hready, _, hsel⟩, _⟩ hc => ?_, fun s => exec_of_strict .er⟩
  exact ⟨_, exec_of_required hready hc (bodyEr_eq hsel), responseWord_of_bare 3 rfl rfl rfl rfl, by rw [hready.2]⟩

/-- Settles O27: the equation of BP's body, which asks nothing of the lines. -/
theorem beginProgramResult : Obligations.BeginProgramResult := by
  refine ⟨fun s hready _ hc => ?_, fun s => exec_of_strict .bp⟩
  exact ⟨_, exec_of_required hready hc (bodyBp_eq s), responseWord_of_bare 4 rfl rfl rfl rfl, by rw [hready.2]⟩

/-- Settles O29: the equation of EP's body with the device deselected. -/
theorem endProgramResult : Obligations.EndProgramResult := by
  refine ⟨fun s ⟨⟨hready, _, hsel⟩, _⟩ hc => ?_, fun s => exec_of_strict .ep⟩
  exact ⟨_, exec_of_required hready hc (bodyEp_eq hsel), responseWord_of_bare 6 rfl rfl rfl rfl, by rw [hready.2]⟩

/-- Settles O25: on the row of `ReadActive` the device drives the addressed cell while R samples, and R deselects it again. -/
theorem readByteResult : Obligations.ReadByteResult := by
  refine ⟨fun s a hs hc => ?_, fun s a => exec_of_strict (.r a)⟩
  obtain ⟨⟨⟨⟨hw, hbusy⟩, hi, hsel⟩, -⟩, -, -, -, -, hl⟩ := sound_parts hs
  obtain ⟨-, haov, hddir⟩ := (cycleLines_iff_of_reading (by simp [hc])).mp hl
  have hbody := bodyR_eq hw hi hddir haov (addressOperand_lt hw a)
  exact ⟨_, _, exec_of_required ⟨hw, hbusy⟩ hc hbody, rfl, readEvents_length _ _, by rw [hsel, hbusy]; rfl⟩

/-- Settles O28: on the row of `ProgramActive` P's chip-select pulse programs the addressed cell, and the cells are canonical. -/
theorem programByteResult : Obligations.ProgramByteResult := by
  refine ⟨fun s a w hs hc => ?_, fun s a w => exec_of_strict (.p a w)⟩
  obtain ⟨⟨⟨⟨hw, hbusy⟩, hi, hsel⟩, -⟩, -, -, hm, -, hl⟩ := sound_parts hs
  obtain ⟨hmode, haov, hddir, hsroe⟩ := (cycleLines_iff_of_programActive hc).mp hl
  have hbody := bodyP_eq w hw hi hddir haov hmode hsroe (addressOperand_lt hw a)
  refine ⟨_, _, exec_of_required ⟨hw, hbusy⟩ hc hbody, rfl, programEvents_length _ _, fun b => ?_, by rw [hsel, hbusy]; rfl⟩
  exact (memRead_memWrite_of_wf hm _ b _).trans (ite_congr rfl (fun hb => by rw [hb]; rfl) fun _ => rfl)

/-! ### A program cycle, then a read cycle (R144) -/

theorem exec_keeps_sound {i : Instr} {s t : State} (h : exec i s = .next t) (hs : Sound s) (hf : t.fault = s.fault) :
    Sound t := by
  obtain ⟨hbetween, hunmarked⟩ := hs
  exact ⟨exec_keeps_between h hbetween, hf.trans hunmarked⟩

/-- BP, P, EP from a sound `Idle` state: they complete, the addressed cell takes `ProgramCell(old, word)`, every other cell reads
as before, and the block is sound and in `Idle` again. -/
theorem programCycle_completes {s : State} (a : Addr) (w : Word) (hs : Sound s) (hc : s.cs = .idle) :
    ∃ s1 s2 s3, exec .bp s = .next s1 ∧ exec (.p a w) s1 = .next s2 ∧ exec .ep s2 = .next s3 ∧
      Sound s3 ∧ s3.cs = .idle ∧ s3.cfg = s.cfg ∧
      ∀ b, memRead s3.mem b =
        if b = a.toNat % s.cfg.memorySize then programCell s.cfg (memRead s.mem b) w else memRead s.mem b := by
  obtain ⟨⟨⟨hready, -⟩, hunmarked⟩, -⟩ := sound_parts hs
  obtain ⟨s1, hbp, -, e1⟩ := beginProgramResult.1 s hready hunmarked hc
  have hs1 : Sound s1 := exec_keeps_sound hbp hs (by rw [e1])
  obtain ⟨s2, v, hp, -, -, hm2, e2⟩ := programByteResult.1 s1 a w hs1 (by rw [e1])
  have hs2 : Sound s2 := exec_keeps_sound hp hs1 (by rw [e2])
  have hc2 : s2.cs = .programActive := by rw [e2, e1]
  obtain ⟨s3, hep, -, e3⟩ := endProgramResult.1 s2 (sound_parts hs2).1 hc2
  have hcfg1 : s1.cfg = s.cfg := by rw [e1]
  have hmem1 : s1.mem = s.mem := by rw [e1]
  have hmem3 : s3.mem = s2.mem := by rw [e3]
  exact ⟨s1, s2, s3, hbp, hp, hep, exec_keeps_sound hep hs2 (by rw [e3]), by rw [e3], by rw [e3, e2, hcfg1],
    fun b => by rw [hmem3, hm2, hcfg1, hmem1]⟩

/-- BR, R, ER from a sound `Idle` state: they complete, R answers the addressed cell, and the block is sound and in `Idle` with
the cells it had. -/
theorem readCycle_completes {s : State} (a : Addr) (hs : Sound s) (hc : s.cs = .idle) :
    ∃ s1 s2 s3, exec .br s = .next s1 ∧ exec (.r a) s1 = .next s2 ∧ exec .er s2 = .next s3 ∧
      s2.status = .ok ∧ s2.raddr = BitVec.ofNat 16 (a.toNat % s.cfg.memorySize) ∧
      s2.rdata = memRead s.mem (a.toNat % s.cfg.memorySize) ∧
      Sound s3 ∧ s3.cs = .idle ∧ s3.cfg = s.cfg ∧ s3.mem = s.mem := by
  obtain ⟨s1, hbr, -, e1⟩ := beginReadResult.1 s (sound_parts hs).1 hc
  have hs1 : Sound s1 := exec_keeps_sound hbr hs (by rw [e1])
  obtain ⟨s2, v, hr, -, -, e2⟩ := readByteResult.1 s1 a hs1 (by rw [e1])
  have hs2 : Sound s2 := exec_keeps_sound hr hs1 (by rw [e2])
  have hc2 : s2.cs = .readActive := by rw [e2, e1]
  obtain ⟨s3, her, -, e3⟩ := endReadResult.1 s2 (sound_parts hs2).1 hc2
  have hcfg1 : s1.cfg = s.cfg := by rw [e1]
  have hmem1 : s1.mem = s.mem := by rw [e1]
  exact ⟨s1, s2, s3, hbr, hr, her, by rw [e2], by rw [e2, hcfg1], by rw [e2, hcfg1, hmem1],
    exec_keeps_sound her hs2 (by rw [e3]), by rw [e3], by rw [e3, e2, hcfg1], by rw [e3, e2, hmem1]⟩

/-- Settles O47: the program cycle leaves the word in the addressed cell, the default `ProgramCell` being the word, and the read
cycle answers that cell. -/
theorem programThenReadReturnsWord : Obligations.ProgramThenReadReturnsWord := by
  intro s a w hs hc hrule ha
  obtain ⟨s1, s2, s3, hbp, hp, hep, hs3, hc3, hcfg3, hmem3⟩ := programCycle_completes a w hs hc
  obtain ⟨s4, s5, s6, hbr, hr, her, hstatus, hraddr, hrdata, hs6, hc6, -, -⟩ := readCycle_completes a hs3 hc3
  rw [hcfg3, Nat.mod_eq_of_lt ha] at hraddr hrdata
  rw [hmem3, Nat.mod_eq_of_lt ha, if_pos rfl, programCell, hrule] at hrdata
  exact ⟨s1, s2, s3, s4, s5, s6, hbp, hp, hep, hbr, hr, her, hstatus, by rw [hraddr]; simp, hrdata, hc6, hs6⟩

end Sys2Proof.Machine
end

section
/-! Erase engine obligations: E as its loop and its end in one equation (45_erase_engine.md R151, R156, R157), what any number of
attempts leaves (R154, R158), and the runs whose pulses the script gives (R66, R160). -/

namespace Sys2Proof.Machine

/-! ### The statuses of E (R151, R157) -/

@[simp] theorem eraseStatus_eq_ok_iff (r : EraseRecord) : eraseStatus r = .ok ↔ r.ok = true := by
  unfold eraseStatus
  split_ifs <;> simp_all

@[simp] theorem eraseStatus_eq_cancelled_iff (r : EraseRecord) :
    eraseStatus r = .cancelled ↔ r.ok = false ∧ r.cancelled = true := by
  unfold eraseStatus
  split_ifs <;> simp_all

@[simp] theorem eraseStatus_eq_eraseFailed_iff (r : EraseRecord) :
    eraseStatus r = .eraseFailed ↔ r.ok = false ∧ r.cancelled = false := by
  unfold eraseStatus
  split_ifs <;> simp_all

theorem eraseStatus_cases (r : EraseRecord) :
    eraseStatus r = .ok ∨ eraseStatus r = .eraseFailed ∨ eraseStatus r = .cancelled := by
  unfold eraseStatus
  split_ifs <;> simp

/-! ### E as one equation (R151, R156, R157) -/

/-- The state E ends in when its loop ended in `u` with the device deselected: the cleanup and the last line. -/
def eraseEnded (u : State) : State :=
  { u with
    oeh := .off, oel := .high, aov := .off, ddir := .input, erase := none
    status := eraseStatus (eraseRecord u), raddr := (eraseRecord u).failAddr, rdata := (eraseRecord u).failVal
    ropc := 7, busy := false
    trace := u.trace ++ eraseCleanupEvents }

@[simp] theorem eraseEnded_trace (u : State) : (eraseEnded u).trace = u.trace ++ eraseCleanupEvents := rfl

@[simp] theorem eraseEntry_cfg (s : State) : (eraseEntry s).cfg = s.cfg := rfl
@[simp] theorem eraseEntry_trace (s : State) : (eraseEntry s).trace = s.trace ++ [.pin (.sroe .on)] := rfl
@[simp] theorem eraseEntry_attempt (s : State) : (eraseRecord (eraseEntry s)).attempt = 0 := rfl

/-- The state E's loop ends in. -/
def eraseLooped (n : Nat) (s : State) : State := eraseLoop n n (eraseEntry s)

theorem eraseLooped_zero (s : State) : eraseLooped 0 s = eraseEntry s := rfl

theorem eraseEntry_attemptReady {s : State} (h : Settled s) : AttemptReady (eraseEntry s) := by
  obtain ⟨⟨hw, -⟩, hi, -⟩ := h
  exact ⟨hw, hi, rfl⟩

/-- With an attempt allowed the loop made some, and all of them unless one succeeded or was cancelled. -/
theorem eraseLooped_attempts {s : State} {n : Nat} (hn : 1 ≤ n) (h : Settled s) :
    ∃ j, 1 ≤ j ∧ j ≤ n ∧ Attempts (eraseEntry s) j (eraseLooped n s) ∧
      ((eraseRecord (eraseLooped n s)).ok = false → (eraseRecord (eraseLooped n s)).cancelled = false → j = n) :=
  eraseLoop_result hn (eraseEntry_attemptReady h) rfl

/-- What no attempt moves, for any number of them. -/
theorem eraseLooped_frame (n : Nat) {s : State} (h : Settled s) :
    (eraseLooped n s).cs = s.cs ∧ (eraseLooped n s).csel = .deasserted ∧ (eraseLooped n s).sroe = .on ∧
      SerialIdle (eraseLooped n s) ∧ (eraseLooped n s).fault = s.fault ∧ (eraseLooped n s).cfg = s.cfg ∧
      (eraseLooped n s).commands = s.commands := by
  obtain ⟨-, hi, hsel⟩ := id h
  rcases Nat.eq_zero_or_pos n with rfl | hn
  · exact ⟨rfl, hsel, rfl, hi, rfl, rfl, rfl⟩
  · obtain ⟨j, -, -, ha, -⟩ := eraseLooped_attempts hn h
    rw [ha.frame]
    exact ⟨rfl, rfl, rfl, hi, rfl, rfl, rfl⟩

/-- E accepted in `Idle`, for every attempt bound. -/
theorem exec_e_eq (n : Nat) {s : State} (h : Settled s) (hc : s.cs = .idle) :
    exec (.e n) s = .next (eraseEnded (eraseLooped n s)) := by
  obtain ⟨-, hsel, -⟩ := eraseLooped_frame n h
  exact exec_of_required h.1 hc (eraseFinish_eraseCleanup hsel)

/-- The state a settled E answered. -/
theorem eq_eraseEnded_of_exec {n : Nat} {s t : State} (h : Settled s) (hc : s.cs = .idle) (ht : exec (.e n) s = .next t) :
    t = eraseEnded (eraseLooped n s) := by
  rw [exec_e_eq n h hc] at ht
  exact (Host.Outcome.next.inj ht).symm

/-- Settles O30: with no attempt allowed the loop ends where it began. -/
theorem eraseWithoutAttempts : Obligations.EraseWithoutAttempts := by
  intro s ⟨h, _⟩ hc he
  obtain ⟨⟨-, hbusy⟩, -⟩ := id h
  have hresponse : wordOf 7 2 0 0 = 0x72000000 := by decide
  refine ⟨_, exec_e_eq 0 h hc, hresponse, ?_⟩
  simp [eraseLooped_zero, eraseEnded, eraseEntry, eraseRecord, eraseStatus, eraseStart, eraseCleanupEvents, hbusy, he]

/-! ### Any number of attempts (R154 to R158) -/

/-- After some attempts the serializer holds the last address latched, and the data lines the erased value (R152, R156). -/
theorem Attempts.registers {s u : State} {k : Nat} (h : Attempts s k u) :
    u.d = some erasedValue ∧ u.dout = erasedValue ∧ u.vec = u.latch ∧ u.shiftReg = u.latch ∧ u.ser = u.latch.getLsbD 0 := by
  rw [h.frame]
  exact ⟨rfl, rfl, rfl, rfl, rfl⟩

/-- The last address latched is the last of the device after a success, else the failing one (R156). -/
theorem Attempts.latch_eq {s u : State} {k : Nat} (h : Attempts s k u) :
    u.latch = serOf s.cfg
      (if (eraseRecord u).ok = true then BitVec.ofNat 16 (s.cfg.memorySize - 1) else (eraseRecord u).failAddr) := by
  split
  · next hok =>
    obtain ⟨-, -, hlatch, -⟩ := h.success hok
    exact hlatch
  · next hok =>
    obtain ⟨-, -, -, -, hlatch, -⟩ := h.mismatch (by simpa using hok)
    exact hlatch

/-- The events of some attempts: one pulse each, and one report for each that failed (R154). -/
theorem Attempts.events {s u : State} {k : Nat} (h : Attempts s k u) :
    ∃ evs, u.trace = s.trace ++ evs ∧ erasePulses evs = k ∧
      mismatchReports evs + (if (eraseRecord u).ok = true then 1 else 0) = k := by
  split
  · next hok =>
    obtain ⟨-, -, -, hevents⟩ := h.success hok
    exact hevents
  · next hok =>
    obtain ⟨-, -, -, -, -, evs, htrace, hpulses, hreports⟩ := h.mismatch (by simpa using hok)
    refine ⟨_, by rw [htrace, List.append_assoc], ?_, ?_⟩
    · rw [erasePulses_append, hpulses]; rfl
    · rw [mismatchReports_append, ← hreports]; rfl

/-- The events of the loop, for any bound: at most that many pulses, all of them when it fails, and one report for each pulse
that failed (R158 (c)). -/
theorem eraseLooped_events (n : Nat) {s : State} (h : Settled s) :
    ∃ evs, (eraseLooped n s).trace = s.trace ++ evs ∧ erasePulses evs ≤ n ∧
      mismatchReports evs + (if (eraseRecord (eraseLooped n s)).ok = true then 1 else 0) = erasePulses evs ∧
      (eraseStatus (eraseRecord (eraseLooped n s)) = .eraseFailed → erasePulses evs = n) := by
  rcases Nat.eq_zero_or_pos n with rfl | hn
  · exact ⟨[.pin (.sroe .on)], rfl, Nat.le_refl 0, rfl, fun _ => rfl⟩
  · obtain ⟨j, -, hjn, ha, hall⟩ := eraseLooped_attempts hn h
    obtain ⟨evs, htrace, hpulses, hreports⟩ := ha.events
    have hp : erasePulses (.pin (.sroe .on) :: evs) = j := by rw [← hpulses]; rfl
    refine ⟨.pin (.sroe .on) :: evs, by simp [htrace], by omega, ?_, fun hstatus => ?_⟩
    · rw [hp, ← hreports]; rfl
    · obtain ⟨hok, hcancelled⟩ := (eraseStatus_eq_eraseFailed_iff _).mp hstatus
      rw [hp, hall hok hcancelled]

/-- Settles O31: the frame of the loop and its end give the lines, and the last attempt what the registers hold. -/
theorem eraseCompletesAndCleansUp : Obligations.EraseCompletesAndCleansUp := by
  intro s n ⟨h, _⟩ hc
  obtain ⟨hcs, hsel, hsroe, hi, hfault, hcfg, hcommands⟩ := eraseLooped_frame n h
  obtain ⟨evs, htrace, -⟩ := eraseLooped_events n h
  refine ⟨_, exec_e_eq n h hc, eraseStatus_cases _, rfl, rfl, rfl, hcs.trans hc, hsel, rfl, rfl, rfl, hsroe, hi, hfault, hcfg,
    hcommands, fun hn => ?_, evs ++ eraseCleanupEvents, ?_⟩
  · obtain ⟨j, -, -, ha, -⟩ := eraseLooped_attempts hn h
    obtain ⟨hd, hdout, hvec, hshift, hser⟩ := ha.registers
    refine ⟨hd, hdout, hvec, hshift, hser, ?_⟩
    simpa [eraseEnded] using ha.latch_eq
  · simp [htrace]

/-- Without an attempt E does not succeed (R159). -/
theorem pos_of_eraseLooped_ok {n : Nat} {s : State} (h : (eraseRecord (eraseLooped n s)).ok = true) : 1 ≤ n := by
  rcases Nat.eq_zero_or_pos n with rfl | hn
  · cases h
  · exact hn

/-- Settles O32: the attempt that succeeded found every address erased, and the cells are canonical. -/
theorem eraseSuccessLeavesAllErased : Obligations.EraseSuccessLeavesAllErased := by
  intro s t n ⟨h, _⟩ hc ht hstatus a _
  obtain rfl := eq_eraseEnded_of_exec h hc ht
  have hok := (eraseStatus_eq_ok_iff _).mp hstatus
  obtain ⟨j, -, -, ha, -⟩ := eraseLooped_attempts (pos_of_eraseLooped_ok hok) h
  obtain ⟨-, hmem, -⟩ := ha.success hok
  have herased : (eraseEnded (eraseLooped n s)).mem = [] := hmem
  rw [herased]
  rfl

/-- Settles O33: the record of the last attempt, and the events it ended with. -/
theorem eraseFailureReportsMismatch : Obligations.EraseFailureReportsMismatch := by
  intro s t n ⟨h, _⟩ hc hn ht hstatus
  obtain rfl := eq_eraseEnded_of_exec h hc ht
  have hok : (eraseRecord (eraseLooped n s)).ok = false := by simpa [eraseEnded] using hstatus
  obtain ⟨j, -, -, ha, -⟩ := eraseLooped_attempts hn h
  obtain ⟨-, -, -, -, -, hcfg, -⟩ := eraseLooped_frame n h
  obtain ⟨hlt, hread, hne, hbelow, -, evs, htrace, hpulses, -⟩ := ha.mismatch hok
  refine ⟨hlt.trans_eq (congrArg _ hcfg.symm), hread, hne, hbelow, .pin (.sroe .on) :: evs, j,
    (eraseRecord (eraseLooped n s)).cancelled, ?_, by rw [← hpulses]; rfl, ?_⟩
  · simp [eraseEnded, htrace, eraseCleanupEvents]
  · simp [eraseEnded, hok]

/-- Settles O34: the cleanup neither pulses nor reports. -/
theorem eraseAttemptsAreBounded : Obligations.EraseAttemptsAreBounded := by
  intro s t n ⟨h, _⟩ hc ht
  obtain rfl := eq_eraseEnded_of_exec h hc ht
  obtain ⟨evs, htrace, hbound, hreports, hfailed⟩ := eraseLooped_events n h
  obtain ⟨hcp, hcm⟩ := cleanup_counts
  refine ⟨evs ++ eraseCleanupEvents, by simp [htrace], ?_⟩
  rw [erasePulses_append, mismatchReports_append, hcp, hcm, Nat.add_zero, Nat.add_zero]
  refine ⟨hbound, fun hstatus => ?_, fun hstatus => ?_, hfailed⟩
  · rwa [if_pos ((eraseStatus_eq_ok_iff _).mp hstatus)] at hreports
  · rwa [if_neg (mt (eraseStatus_eq_ok_iff _).mpr hstatus)] at hreports

/-! ### Attempts whose outcome the script gives (R66) -/

/-- An attempt whose pulse left a cell unerased, and whose poll was answered `b`: the cells are those of the outcome `x`, one
outcome and one answer are used, and the events are those up to the first mismatch, the report and the poll. -/
structure FailedAttempt (x : EraseDraw) (b : Bool) (later : List EraseDraw) (answers : List Bool) (t u : State) : Prop where
  ok : (eraseRecord u).ok = false
  cancelled : (eraseRecord u).cancelled = b
  mem : u.mem = erasedArray t.cfg.memorySize x
  eraseScript : u.eraseScript = later
  cancelIn : u.cancelIn = answers
  trace : u.trace = t.trace ++ (attemptEvents t.cfg u.mem ((eraseRecord u).failAddr.toNat + 1) ++
    [.report (.eraseMismatch ((eraseRecord t).attempt + 1) (eraseRecord u).failAddr erasedValue (eraseRecord u).failVal),
     .cancelPoll b])

theorem addressRegister_toNat {cfg : Cfg} (h : cfg.wf) {a : Nat} (ha : a < cfg.memorySize) :
    (addressRegister a).toNat = a := by
  obtain ⟨-, hsize, -⟩ := h
  rw [addressRegister, BitVec.toNat_ofNat, Nat.mod_eq_of_lt (by omega)]

/-- An attempt that fails by the script is a failed attempt (R154). -/
theorem eraseAttempt_failed {t : State} (h : AttemptReady t) {x : EraseDraw} {later : List EraseDraw} {b : Bool}
    {answers : List Bool} (hscript : t.eraseScript = x :: later) (hcancel : t.cancelIn = b :: answers)
    (hx : leavesUnerased t.cfg.memorySize x) : FailedAttempt x b later answers t (eraseAttempt t) := by
  obtain ⟨a, hbad, hok, hcancelled, hlater, hanswers, hmem, haddr, hval⟩ := eraseAttempt_scripted_failure h hscript hcancel hx
  refine ⟨hok, hcancelled, hmem, hlater, hanswers, ?_⟩
  obtain ⟨-, halt, -⟩ := firstBad_some hbad
  have hcells : attemptCells t = erasedArray t.cfg.memorySize x := by rw [attemptCells, eraseOutcome_of_script hscript]
  have hanswer : cancelAnswer (dropOutcome t) = b := by simp [cancelAnswer, hcancel]
  rw [hmem, haddr, hval, addressRegister_toNat h.1 (by omega), attemptEvents, ← verifyEvents_stopped hbad,
    eraseAttempt_mismatch h (by rw [hcells]; exact hbad), hanswer, hcells, List.append_assoc]

/-- An attempt whose pulse succeeds by the script, all that it leaves (R151, R157): the mismatch kept is the last one before. -/
structure SucceededAttempt (later : List EraseDraw) (t u : State) : Prop where
  ok : (eraseRecord u).ok = true
  failAddr : (eraseRecord u).failAddr = (eraseRecord t).failAddr
  failVal : (eraseRecord u).failVal = (eraseRecord t).failVal
  mem : u.mem = []
  eraseScript : u.eraseScript = later
  cancelIn : u.cancelIn = t.cancelIn
  trace : u.trace = t.trace ++ attemptEvents t.cfg [] t.cfg.memorySize

theorem eraseAttempt_succeeded {t : State} (h : AttemptReady t) {later : List EraseDraw}
    (hscript : t.eraseScript = .success :: later) : SucceededAttempt later t (eraseAttempt t) := by
  have hcells : attemptCells t = [] := by rw [attemptCells, eraseOutcome_of_script hscript]; rfl
  rw [eraseAttempt_success h hcells, verifyEvents_complete (firstBad_nil _ _)]
  refine ⟨rfl, rfl, rfl, rfl, ?_, dropOutcome_cancelIn t, rfl⟩
  simp [addressed, dropOutcome, hscript]

/-- The loop of an E with an attempt allowed begins with one (R151). -/
theorem eraseLooped_begin {s : State} {n : Nat} (hn : 1 ≤ n) (h : Settled s) :
    eraseLooped n s = eraseLoop n (n - 1) (eraseAttempt (eraseEntry s)) ∧
      Attempts (eraseEntry s) 1 (eraseAttempt (eraseEntry s)) :=
  eraseLoop_begin hn (eraseEntry_attemptReady h) rfl

/-- Settles O36: the first attempt is a failed one whose poll ends the loop. -/
theorem cancelStopsEraseAtOnce : Obligations.CancelStopsEraseAtOnce := by
  intro s n x later answers ⟨h, _⟩ hc hn hscript hx hcancel
  have hexec := exec_e_eq n h hc
  obtain ⟨hbegin, -⟩ := eraseLooped_begin hn h
  have hfail : FailedAttempt x true later answers (eraseEntry s) (eraseAttempt (eraseEntry s)) :=
    eraseAttempt_failed (eraseEntry_attemptReady h) hscript hcancel hx
  rw [hbegin, eraseLoop_over (.inr hfail.cancelled)] at hexec
  generalize eraseAttempt (eraseEntry s) = u at hexec hfail
  refine ⟨_, hexec, (eraseStatus_eq_cancelled_iff _).mpr ⟨hfail.ok, hfail.cancelled⟩, hfail.mem, ?_, hfail.eraseScript,
    hfail.cancelIn⟩
  simp [hfail.trace, eraseEnded]

/-- Settles O37: a failed attempt, then a successful one, which ends the loop and keeps the mismatch. -/
theorem eraseRetriesAfterMismatch : Obligations.EraseRetriesAfterMismatch := by
  intro s n x later answers ⟨h, _⟩ hc hn hscript hx hcancel
  have hexec := exec_e_eq n h hc
  obtain ⟨hbegin, ha⟩ := eraseLooped_begin (by omega : 1 ≤ n) h
  have hready := ha.ready (eraseEntry_attemptReady h)
  have hfail : FailedAttempt x false (.success :: later) answers (eraseEntry s) (eraseAttempt (eraseEntry s)) :=
    eraseAttempt_failed (eraseEntry_attemptReady h) hscript hcancel hx
  have hsucc := eraseAttempt_succeeded hready hfail.eraseScript
  have hcfg := (ha.sameRun hfail.ok hfail.cancelled).cfg
  obtain ⟨m, hm⟩ : ∃ m, n - 1 = m + 1 := ⟨n - 2, by omega⟩
  rw [hbegin, hm, eraseLoop_again ha (by omega) hfail.ok hfail.cancelled, eraseLoop_over (.inl hsucc.ok)] at hexec
  obtain ⟨hlt, hread, hne, hbelow, -⟩ := ha.mismatch hfail.ok
  clear hbegin
  generalize eraseAttempt (eraseEntry s) = u at *
  generalize eraseAttempt u = v at *
  rw [hfail.mem] at hread hbelow
  rw [← hsucc.failAddr] at hlt hread hbelow
  rw [← hsucc.failVal] at hread hne
  refine ⟨_, hexec, (eraseStatus_eq_ok_iff _).mpr hsucc.ok, hsucc.mem, hlt, hne, hread, hbelow, ?_, hsucc.eraseScript,
    hsucc.cancelIn.trans hfail.cancelIn⟩
  simp [hsucc.trace, hcfg, hfail.trace, hfail.mem, eraseEnded, hsucc.failAddr, hsucc.failVal]

/-- What an attempt that finds the device erased counts: its events, its pulse, its settle delay and its reads (R160). -/
theorem attemptEvents_erased (cfg : Cfg) (k : Nat) :
    (attemptEvents cfg [] k).length = 58 + 6 + 58 * k ∧ erasePulses (attemptEvents cfg [] k) = 1 ∧
      (attemptEvents cfg [] k).count (.delay .eraseSettle) = 1 ∧ (attemptEvents cfg [] k).count (.delay .readPulse) = k := by
  obtain ⟨hpulses, -⟩ := attemptEvents_counts cfg [] k (serOf cfg 0)
  obtain ⟨-, -, hpulseSettle, hpulseRead⟩ := pulseEvents_counts (serOf cfg 0)
  obtain ⟨-, -, hpassSettle⟩ := verifyEvents_counts cfg [] k 0
  obtain ⟨hlength, hreads⟩ := verifyEvents_erased cfg k 0
  rw [attemptEvents, ← verifyEvents_complete (firstBad_nil k 0)]
  refine ⟨?_, hpulses, ?_, ?_⟩
  · simp [hlength, erasePulseEvents, addressEvents_length, eraseSettleEvents]; omega
  · simp only [List.count_append, hpulseSettle, hpassSettle]; rfl
  · rw [List.count_append, List.count_append, hpulseRead, hreads]; exact Nat.zero_add k

/-- Settles O38: the first attempt is a successful one, which ends the loop; its events are counted by those of its parts. -/
theorem eraseFirstSuccessEventCount : Obligations.EraseFirstSuccessEventCount := by
  intro s n later ⟨h, _⟩ hc hn hscript
  have hexec := exec_e_eq n h hc
  obtain ⟨hbegin, -⟩ := eraseLooped_begin hn h
  have hsucc : SucceededAttempt later (eraseEntry s) (eraseAttempt (eraseEntry s)) :=
    eraseAttempt_succeeded (eraseEntry_attemptReady h) hscript
  rw [hbegin, eraseLoop_over (.inl hsucc.ok)] at hexec
  generalize eraseAttempt (eraseEntry s) = u at hexec hsucc
  obtain ⟨hlength, hpulses, hsettles, hreads⟩ := attemptEvents_erased s.cfg s.cfg.memorySize
  refine ⟨_, _, hexec, responseWord_of_bare 7 rfl ((eraseStatus_eq_ok_iff _).mpr hsucc.ok) hsucc.failAddr hsucc.failVal,
    hsucc.mem, by simp [hsucc.trace], rfl, ?_, ?_, ?_, ?_⟩
  · simp only [List.length_append, hlength, eraseCleanupEvents, List.length_cons, List.length_nil]; omega
  · simp only [erasePulses_append, hpulses]; rfl
  · simp only [List.count_append, hsettles]; rfl
  · simp [List.count_append, hreads, eraseCleanupEvents]

/-- An E that has made no attempt yet. -/
theorem sameRun_entry (s : State) : SameRun (eraseEntry s) 0 (eraseEntry s) :=
  ⟨rfl, rfl, rfl, [], by simp, rfl, rfl⟩

/-- On a device that fails every pulse, without a cancel, the loop uses up all its attempts, by induction on the pulses left. -/
theorem eraseLoop_unerasable {s : State} (hs : AttemptReady s) (n : Nat) (fails later : List EraseDraw)
    (answers : List Bool) {k : Nat} {t : State} (ht : AttemptReady t) (hrun : SameRun s k t)
    (hok : (eraseRecord t).ok = false) (hk : k + fails.length = n) (hscript : t.eraseScript = fails ++ later)
    (hx : ∀ x ∈ fails, leavesUnerased s.cfg.memorySize x)
    (hcancel : t.cancelIn = List.replicate fails.length false ++ answers) :
    (eraseRecord (eraseLoop n fails.length t)).ok = false ∧ (eraseRecord (eraseLoop n fails.length t)).cancelled = false ∧
      (eraseLoop n fails.length t).eraseScript = later ∧ (eraseLoop n fails.length t).cancelIn = answers := by
  induction fails generalizing k t with
  | nil => exact ⟨hok, hrun.goesOn, hscript, hcancel⟩
  | cons x fails ih =>
    obtain ⟨hx, hxs⟩ := List.forall_mem_cons.mp hx
    have hfail := eraseAttempt_failed ht hscript hcancel (by rw [hrun.cfg]; exact hx)
    have ha := attempts_step ht hrun
    rw [List.length_cons] at hk ⊢
    rw [eraseLoop, if_pos ⟨by rw [hrun.attempt]; omega, hok, hrun.goesOn⟩]
    exact ih (ha.ready hs) (ha.sameRun hfail.ok hfail.cancelled) hfail.ok (by omega) hfail.eraseScript hxs hfail.cancelIn

/-- Settles O35: the loop uses up the pulses and the answers, and the counts are those of any E that answers `ERASE_FAILED`. -/
theorem unerasableDeviceFailsAfterAllAttempts : Obligations.UnerasableDeviceFailsAfterAllAttempts := by
  intro s fails later answers hq hc hscript hx hcancel
  have hready := eraseEntry_attemptReady hq.1
  obtain ⟨hok, hcancelled, hlater, hanswers⟩ := eraseLoop_unerasable hready fails.length fails later answers hready
    (sameRun_entry s) rfl (Nat.zero_add _) hscript hx hcancel
  have hexec := exec_e_eq fails.length hq.1 hc
  have hstatus : (eraseEnded (eraseLooped fails.length s)).status = .eraseFailed :=
    (eraseStatus_eq_eraseFailed_iff _).mpr ⟨hok, hcancelled⟩
  obtain ⟨evs, htrace, -, -, hreports, hpulses⟩ := eraseAttemptsAreBounded s _ fails.length hq hc hexec
  exact ⟨_, evs, hexec, hstatus, htrace, hpulses hstatus, (hreports (by simp [hstatus])).trans (hpulses hstatus), hlater,
    hanswers⟩

end Sys2Proof.Machine
end

section
/-! Adapter obligations: a cycle command as a line of the adapter (46_adapter_commands.md R170, R171), the source's end-to-end
example (R178), the test-pattern run (R174, R175) and the erase prompt (R172). -/

namespace Sys2Proof.Machine

/-! ### A cycle command as a line (R80, R170) -/

/-- From a sound state the command answers `OK`: the state is sound again, in the mode of the table (R133), and all that is
sent is the normal response. -/
structure AnswersOk (i : Instr) (s t : State) : Prop where
  answers : exec i s = .next t
  sound : Sound t
  mode : t.cs = cycleAfter i s.cs
  cfg : t.cfg = s.cfg
  status : t.status = .ok
  dialog : coreDialog i s = ⟨.next t, [.response (coreResponse i t)]⟩

theorem answersOk_of_exec {i : Instr} {s t : State} {evs : List Event} (h : exec i s = .next t) (hs : Sound s)
    (hc : s.cs = required i) (htrace : t.trace = s.trace ++ evs) (hsilent : evs.filterMap (eventMessage t.cfg) = [])
    (hfault : t.fault = s.fault) (hstatus : t.status = .ok) : AnswersOk i s t := by
  obtain ⟨hcfg, -⟩ := exec_frame h
  obtain ⟨hmode, -⟩ := transitionTable i s t h
  exact ⟨h, exec_keeps_sound h hs hfault, by rw [hmode, if_pos (.inl hc)], hcfg, hstatus,
    coreDialog_ok h htrace hsilent hstatus⟩

/-- The four commands without operands leave the cells (R134, R139, R140, R142). -/
theorem bare_answersOk {i : Instr} (hi : i = .br ∨ i = .er ∨ i = .bp ∨ i = .ep) {s : State} (hs : Sound s)
    (hc : s.cs = required i) : ∃ t, AnswersOk i s t ∧ t.mem = s.mem := by
  obtain ⟨hq, -⟩ := sound_parts hs
  obtain rfl | rfl | rfl | rfl := hi
  · obtain ⟨t, h, -, rfl⟩ := beginReadResult.1 s hq hc
    exact ⟨_, answersOk_of_exec h hs hc rfl rfl rfl rfl, rfl⟩
  · obtain ⟨t, h, -, rfl⟩ := endReadResult.1 s hq hc
    exact ⟨_, answersOk_of_exec h hs hc rfl rfl rfl rfl, rfl⟩
  · obtain ⟨t, h, -, rfl⟩ := beginProgramResult.1 s hq.1.1 hq.2 hc
    exact ⟨_, answersOk_of_exec h hs hc rfl rfl rfl rfl, rfl⟩
  · obtain ⟨t, h, -, rfl⟩ := endProgramResult.1 s hq hc
    exact ⟨_, answersOk_of_exec h hs hc rfl rfl rfl rfl, rfl⟩

/-- R answers the addressed cell and leaves all of them (R135). -/
theorem r_answersOk {s : State} {a : Addr} (hs : Sound s) (hc : s.cs = .readActive) (ha : a.toNat < s.cfg.memorySize) :
    ∃ t, AnswersOk (.r a) s t ∧ t.mem = s.mem ∧ t.raddr = a ∧ t.rdata = memRead s.mem a.toNat := by
  obtain ⟨t, v, h, -, -, rfl⟩ := readByteResult.1 s a hs hc
  refine ⟨_, answersOk_of_exec h hs hc rfl (readEvents_silent _ _ _) rfl rfl, rfl, ?_⟩
  simp [Nat.mod_eq_of_lt ha]

/-- P on a device with the default `ProgramCell` answers its operands, the addressed cell takes the word and every other cell is
as it was (R141). -/
theorem p_answersOk {s : State} {a : Addr} (w : Word) (hs : Sound s) (hc : s.cs = .programActive)
    (hrule : s.cfg.cellRule = .overwrite) (ha : a.toNat < s.cfg.memorySize) :
    ∃ t, AnswersOk (.p a w) s t ∧ t.raddr = a ∧ t.rdata = w ∧
      ∀ b, memRead t.mem b = if b = a.toNat then w else memRead s.mem b := by
  obtain ⟨t, v, h, -, -, hmem, e⟩ := programByteResult.1 s a w hs hc
  rw [Nat.mod_eq_of_lt ha] at hmem e
  simp only [programCell, hrule] at hmem
  exact ⟨t, answersOk_of_exec h hs hc (by rw [e]) (programEvents_silent _ _ _) (by rw [e]) (by rw [e]), by rw [e]; simp,
    by rw [e], hmem⟩

/-- A text that fits the response buffer is sent whole (R81). -/
theorem bounded_of_length_le {cfg : Cfg} {text : List Char} (h : text.length ≤ cfg.responseBufferSize) :
    bounded cfg text = text := List.take_of_length_le h

/-! ### The end-to-end example (R178) -/

/-- The first line of several, when it is a core operation that answers `OK`: its response comes before what the others send. -/
theorem operate_answersOk {line text : List Char} {answer : Confirmation} {rest : List (List Char × Confirmation)} {i : Instr}
    {s t u : State} {sent : List Message} (h : AnswersOk i s t) (hline : lineMeaning s.cfg line = .core i)
    (htext : coreResponse i t = text) (hrest : operate rest t = ⟨.next u, sent⟩) :
    operate ((line, answer) :: rest) s = ⟨.next u, .response text :: sent⟩ := by
  rw [operate_core hline h.dialog, hrest, htext]
  rfl

/-- The lines of the example and the core operation of each (R178). -/
def exampleLines : List (List Char × Instr) :=
  [(['b', 'p'], .bp), (['p', ' ', '0', '0', '1', '0', ' ', 'f', 'f'], .p 0x10 0xFF), (['e', 'p'], .ep), (['b', 'r'], .br),
   (['r', ' ', '0', '0', '1', '0'], .r 0x10), (['e', 'r'], .er)]

/-- On a device that has the address, `0010` is it (R73, R77). -/
theorem withAddress_0010 {cfg : Cfg} (h : 0x10 < cfg.memorySize) (f : Addr → LineMeaning) :
    withAddress cfg ['0', '0', '1', '0'] f = f 0x10 := by
  have hparse : parseHex ['0', '0', '1', '0'] = some 0x10 := by decide
  rw [withAddress, hparse]
  simp only [asciiAddress, Nat.mod_eq_of_lt h]
  rfl

theorem tokenMeaning_exampleLines {cfg : Cfg} (h : 0x10 < cfg.memorySize) :
    ∀ x ∈ exampleLines, tokenMeaning cfg (tokens x.1) = .core x.2 := by
  simp only [exampleLines, List.forall_mem_cons]
  exact ⟨rfl, withAddress_0010 h fun a => .core (.p a 0xFF), rfl, rfl, withAddress_0010 h fun a => .core (.r a), rfl,
    List.forall_mem_nil _⟩

theorem length_exampleLines_le : ∀ x ∈ exampleLines, x.1.length ≤ 9 := by decide

/-- The answer to the `p` and to the `r` of the example (R80, S6). -/
theorem bounded_dataResponse_tenFf {s : State} (hsize : 6 ≤ s.cfg.responseBufferSize) (haddr : s.raddr = 0x10)
    (hdata : s.rdata = 0xFF) : bounded s.cfg (dataResponse s.raddr s.rdata) = ['1', '0', ':', ' ', 'f', 'f'] := by
  have htext : dataResponse 0x10 0xFF = ['1', '0', ':', ' ', 'f', 'f'] := by decide
  rw [haddr, hdata, htext]
  exact bounded_of_length_le hsize

/-- Settles O53: the six lines are a program cycle and a read cycle, the `r` reads the cell the `p` wrote, and every command
answers `OK`. -/
theorem endToEndExampleAnswersTenFf : Obligations.EndToEndExampleAnswersTenFf := by
  rintro s answer lines rfl hs hc hrule hsize hlength hbuffer hcancel
  have hline : ∀ x ∈ exampleLines, ∀ t : State, t.cfg = s.cfg → lineMeaning t.cfg x.1 = .core x.2 := by
    intro x hx t ht
    rw [ht, lineMeaning_tokens ((length_exampleLines_le x hx).trans hlength) (hcancel _ (List.mem_map_of_mem hx)),
      tokenMeaning_exampleLines hsize x hx]
  simp only [exampleLines, List.forall_mem_cons] at hline
  obtain ⟨line_bp, line_p, line_ep, line_br, line_r, line_er, -⟩ := hline
  obtain ⟨s1, h1, -⟩ := bare_answersOk (i := .bp) (by simp) hs hc
  have hcfg1 := h1.cfg
  obtain ⟨s2, h2, hraddr2, hrdata2, hmem2⟩ :=
    p_answersOk (a := 0x10) 0xFF h1.sound h1.mode (by rwa [hcfg1]) (by rwa [hcfg1])
  have hcfg2 := h2.cfg.trans hcfg1
  obtain ⟨s3, h3, hmem3⟩ := bare_answersOk (i := .ep) (by simp) h2.sound (h2.mode.trans h1.mode)
  have hcfg3 := h3.cfg.trans hcfg2
  obtain ⟨s4, h4, hmem4⟩ := bare_answersOk (i := .br) (by simp) h3.sound h3.mode
  have hcfg4 := h4.cfg.trans hcfg3
  obtain ⟨s5, h5, -, hraddr5, hrdata5⟩ := r_answersOk (a := 0x10) h4.sound h4.mode (by rwa [hcfg4])
  have hcfg5 := h5.cfg.trans hcfg4
  obtain ⟨s6, h6, -⟩ := bare_answersOk (i := .er) (by simp) h5.sound (h5.mode.trans h4.mode)
  have hcfg6 := h6.cfg.trans hcfg5
  rw [hmem4, hmem3, hmem2, if_pos rfl] at hrdata5
  refine ⟨s6, ?_, h6.mode, h6.sound⟩
  refine operate_answersOk h1 (line_bp s rfl) (by rw [coreResponse, hcfg1]) ?_
  refine operate_answersOk h2 (line_p s1 hcfg1) (bounded_dataResponse_tenFf (by rwa [hcfg2]) hraddr2 hrdata2) ?_
  refine operate_answersOk h3 (line_ep s2 hcfg2) (by rw [coreResponse, hcfg3]) ?_
  refine operate_answersOk h4 (line_br s3 hcfg3) (by rw [coreResponse, hcfg4]) ?_
  refine operate_answersOk h5 (line_r s4 hcfg4) (bounded_dataResponse_tenFf (by rwa [hcfg5]) hraddr5 hrdata5) ?_
  exact operate_answersOk h6 (line_er s5 hcfg5) (by rw [coreResponse, hcfg6]) rfl

/-! ### The test-pattern run (R174, R175) -/

theorem runCommands_cons {i : Instr} {rest : List Instr} {s t : State} (h : exec i s = .next t) :
    runCommands (i :: rest) s = runCommands rest t := by
  simp only [runCommands, h]

/-- The programming of a run: every address of the list holds its word, every other cell is as it was. -/
theorem runCommands_programs (word : Addr → Word) (addrs : List Addr) {s : State} (hs : Sound s)
    (hc : s.cs = .programActive) (hrule : s.cfg.cellRule = .overwrite) (hsize : ∀ a ∈ addrs, a.toNat < s.cfg.memorySize) :
    ∃ t, runCommands (addrs.map fun a => .p a (word a)) s = .next t ∧ Sound t ∧ t.cs = .programActive ∧ t.cfg = s.cfg ∧
      ∀ b, memRead t.mem b = if b ∈ addrs.map BitVec.toNat then word (BitVec.ofNat 16 b) else memRead s.mem b := by
  induction addrs generalizing s with
  | nil => exact ⟨s, rfl, hs, hc, rfl, fun b => rfl⟩
  | cons a addrs ih =>
    obtain ⟨ha, hrest⟩ := List.forall_mem_cons.mp hsize
    obtain ⟨t, h, -, -, hmem⟩ := p_answersOk (word a) hs hc hrule ha
    obtain ⟨u, hrun, hu, hcu, hcfg, hmemu⟩ := ih h.sound (h.mode.trans hc) (by rwa [h.cfg]) (by rwa [h.cfg])
    refine ⟨u, (runCommands_cons h.answers).trans hrun, hu, hcu, hcfg.trans h.cfg, fun b => ?_⟩
    rw [hmemu, hmem, List.map_cons]
    by_cases hb : b ∈ addrs.map BitVec.toNat
    · rw [if_pos hb, if_pos (List.mem_cons_of_mem _ hb)]
    · by_cases hba : b = a.toNat
      · simp [hba]
      · rw [if_neg hb, if_neg hba, if_neg (by simp [hb, hba])]

/-- The reads of a run over cells that hold the pattern find no mismatch and leave the cells. -/
theorem patternReads_verifies (addrs : List Addr) {s : State} (hs : Sound s) (hc : s.cs = .readActive)
    (hsize : ∀ a ∈ addrs, a.toNat < s.cfg.memorySize)
    (hcells : ∀ a ∈ addrs, memRead s.mem a.toNat = Config.pattern a) :
    ∃ t, patternReads addrs s = ⟨.next t, []⟩ ∧ Sound t ∧ t.cs = .readActive ∧ t.mem = s.mem := by
  induction addrs generalizing s with
  | nil => exact ⟨s, rfl, hs, hc, rfl⟩
  | cons a addrs ih =>
    obtain ⟨ha, hrest⟩ := List.forall_mem_cons.mp hsize
    obtain ⟨hcell, hothers⟩ := List.forall_mem_cons.mp hcells
    obtain ⟨t, h, hmem, -, hrdata⟩ := r_answersOk hs hc ha
    obtain ⟨u, hrun, hu, hcu, hmemu⟩ := ih h.sound (h.mode.trans hc) (by rwa [h.cfg]) (by rwa [hmem])
    have hmatch : readMismatch a t = [] := if_neg fun ⟨_, hne⟩ => hne (hrdata.trans hcell)
    refine ⟨u, ?_, hu, hcu, hmemu.trans hmem⟩
    simp only [patternReads, h.answers, hrun, hmatch, List.nil_append]

/-- The core operations before the reads (R174): a program cycle over the addresses, then BR. -/
theorem runCommands_patternProgram (addrs : List Addr) {s : State} (hs : Sound s) (hc : s.cs = .idle)
    (hrule : s.cfg.cellRule = .overwrite) (hsize : ∀ a ∈ addrs, a.toNat < s.cfg.memorySize) :
    ∃ t, runCommands (patternProgram addrs) s = .next t ∧ Sound t ∧ t.cs = .readActive ∧ t.cfg = s.cfg ∧
      ∀ b, memRead t.mem b =
        if b ∈ addrs.map BitVec.toNat then Config.pattern (BitVec.ofNat 16 b) else memRead s.mem b := by
  obtain ⟨s1, h1, hmem1⟩ := bare_answersOk (i := .bp) (by simp) hs hc
  obtain ⟨s2, hrun, hs2, hc2, hcfg2, hmem2⟩ :=
    runCommands_programs Config.pattern addrs h1.sound h1.mode (by rwa [h1.cfg]) (by rwa [h1.cfg])
  obtain ⟨s3, h3, hmem3⟩ := bare_answersOk (i := .ep) (by simp) hs2 hc2
  obtain ⟨s4, h4, hmem4⟩ := bare_answersOk (i := .br) (by simp) h3.sound h3.mode
  refine ⟨s4, ?_, h4.sound, h4.mode, by rw [h4.cfg, h3.cfg, hcfg2, h1.cfg], by rwa [hmem4, hmem3, ← hmem1]⟩
  calc runCommands (patternProgram addrs) s
      = runCommands [.ep, .br] s2 := runCommands_append ((runCommands_cons h1.answers).trans hrun)
    _ = .next s4 := by rw [runCommands_cons h3.answers, runCommands_cons h4.answers]; rfl

/-- The two cycles of a run (R174), over any addresses of the device. -/
theorem patternCycles_verifies (addrs : List Addr) {s : State} (hs : Sound s) (hc : s.cs = .idle)
    (hrule : s.cfg.cellRule = .overwrite) (hsize : ∀ a ∈ addrs, a.toNat < s.cfg.memorySize) :
    ∃ t, patternCycles addrs s = ⟨.next t, []⟩ ∧ t.cs = .idle ∧ Sound t ∧
      ∀ b, memRead t.mem b =
        if b ∈ addrs.map BitVec.toNat then Config.pattern (BitVec.ofNat 16 b) else memRead s.mem b := by
  obtain ⟨s1, hprogram, hs1, hc1, hcfg1, hmem1⟩ := runCommands_patternProgram addrs hs hc hrule hsize
  obtain ⟨s2, hreads, hs2, hc2, hmem2⟩ := patternReads_verifies addrs hs1 hc1 (by rwa [hcfg1]) fun a ha => by
    rw [hmem1, if_pos (List.mem_map_of_mem ha), BitVec.ofNat_toNat, BitVec.setWidth_eq]
  obtain ⟨s3, h3, hmem3⟩ := bare_answersOk (i := .er) (by simp) hs2 hc2
  refine ⟨s3, ?_, h3.mode, h3.sound, by rwa [hmem3, hmem2]⟩
  simp only [patternCycles, hprogram, hreads, h3.answers]

/-- The range of a run as numbers (R175). -/
theorem mem_map_toNat_patternRange {cfg : Cfg} {last : Addr} {b : Nat} :
    b ∈ (patternRange cfg last).map BitVec.toNat ↔
      cfg.wpStart.toNat ≤ b ∧ (b < last.toNat ∨ b = last.toNat ∧ cfg.wpEndInclusive = true) := by
  rw [List.mem_map]
  constructor
  · rintro ⟨a, ha, rfl⟩
    exact mem_patternRange.mp ha
  · intro h
    have hb : (BitVec.ofNat 16 b).toNat = b := Nat.mod_eq_of_lt (by omega)
    exact ⟨BitVec.ofNat 16 b, mem_patternRange.mpr (by rwa [hb]), hb⟩

/-- Settles O54: in `WP_REQUIRED_CS` the run starts, and its range lies on the device. -/
theorem patternRunVerifies : Obligations.PatternRunVerifies := by
  intro s last hs hc hrequired hrule hlast
  have hstarts : patternStarts s = true := by simp [patternStarts, hc, hrequired]
  obtain ⟨t, hrun, hct, ht, hmem⟩ := patternCycles_verifies (patternRange s.cfg last) hs hc hrule fun a ha => by
    obtain ⟨-, ha⟩ := mem_patternRange.mp ha
    omega
  refine ⟨t, (if_pos hstarts).trans hrun, hct, ht, fun b => ?_⟩
  rw [hmem]
  simp only [mem_map_toNat_patternRange]

/-! ### The erase prompt (R172) -/

/-- Settles O55: the three texts of `e` (R80) fit the buffer. -/
theorem eraseDialogCancelTouchesNothing : Obligations.EraseDialogCancelTouchesNothing := by
  intro s hsize
  have hbounded : ∀ text : List Char, text.length ≤ 15 → bounded s.cfg text = text :=
    fun _ htext => bounded_of_length_le (htext.trans hsize)
  refine ⟨rfl, hbounded _ (by decide), rfl, fun hstatus => ?_, fun hstatus => ?_⟩
  · have hne : s.status ≠ .ok := by rcases hstatus with h | h <;> simp [h]
    simpa only [eraseDialogResponse, coreResponse, if_neg hne] using hbounded _ (by decide)
  · simpa only [eraseDialogResponse, coreResponse, if_pos hstatus] using hbounded _ (by decide)

end Sys2Proof.Machine
end

section
/-! Exception obligations: the mark `fault` (60_exceptions.md R196) is set by the check of R132 in non-strict mode and by nothing
else, because on the row of R43 for its required state a command never writes against the direction of the bus (R107). -/

namespace Sys2Proof.Machine

/-- From a sound state in its required mode no body touches the mark: BR, R, ER, BP and EP write no data, P finds the bus at
output on the row of `ProgramActive` (R43, R107), and each attempt of E sets the direction itself before it writes (R152). -/
theorem commandBody_fault_of_required {i : Instr} {s : State} (hs : Sound s) (hc : s.cs = required i) :
    (commandBody s.cfg i s).fault = s.fault := by
  obtain ⟨⟨hsettled, -⟩, -, -, -, -, hl⟩ := sound_parts hs
  obtain ⟨⟨hw, -⟩, hi, hsel⟩ := id hsettled
  cases i with
  | br => rw [commandBody, bodyBr_eq hsel]
  | r a =>
    obtain ⟨-, haov, hddir⟩ := (cycleLines_iff_of_reading (by simp [hc, required])).mp hl
    rw [commandBody, bodyR_eq hw hi hddir haov (addressOperand_lt hw a)]
    rfl
  | er => rw [commandBody, bodyEr_eq hsel]
  | bp => rw [commandBody, bodyBp_eq]
  | p a w =>
    obtain ⟨hmode, haov, hddir, hsroe⟩ := (cycleLines_iff_of_programActive hc).mp hl
    rw [commandBody, bodyP_eq w hw hi hddir haov hmode hsroe (addressOperand_lt hw a)]
    rfl
  | ep => rw [commandBody, bodyEp_eq hsel]
  | e n =>
    obtain ⟨-, hdeselected, -, -, hfault, -, -⟩ := eraseLooped_frame n hsettled
    exact (congrArg State.fault (eraseFinish_eraseCleanup hdeselected)).trans hfault

/-- Settles O49, along what a command can do: a rejection and a run in the required state leave the mark clear, and a run outside
it keeps the mark the check has set. -/
theorem onlyTrustedViolationsMark : Obligations.OnlyTrustedViolationsMark := by
  intro i s t hs h
  obtain ⟨⟨hready, -⟩, hclear⟩ := id hs
  cases (exec_run h).2 with
  | rejected cs strict eq =>
    subst eq
    simp [hclear, strict]
  | ran cs body =>
    have ht : t = commandBody s.cfg i s := Host.Outcome.next.inj (h.symm.trans (exec_of_required hready cs rfl))
    simp [ht, commandBody_fault_of_required hs cs, hclear, cs]
  | marked cs strict body =>
    obtain ⟨-, -, hmark⟩ := bodyRun_mode body
    exact iff_of_true (hmark rfl) ⟨cs, strict⟩

end Sys2Proof.Machine
end

section
/-! Reset and hazard obligations: the reset sequence as one effect from any power-on state (70_reset_and_hazards.md R216), the
drivers of the output-enable net never on together (R224), and the data bus driven and sampled in its direction and by one side
only (R225), at every point of the trace of a step. -/

namespace Sys2Proof.Machine

/-! ### The reset sequence (R44, R216) -/

/-- The state with the serial lines low, and with `BUSY` and a trace of its own. -/
def withSerialLow (b : Bool) (tr : List Event) (s : State) : State :=
  { s with ser := false, sclk := false, rclk := false, busy := b, trace := tr }

/-- The first three events of the reset sequence drive the serial lines low without a reaction of the register, from any levels
(R216). -/
theorem serialPinsLow_eq (b : Bool) (s : State) :
    pin (.ser false) (pin (.rclk false) (pin (.sclk false) { s with busy := b })) =
      withSerialLow b (s.trace ++ [.pin (.sclk false), .pin (.rclk false), .pin (.ser false)]) s := by
  simp [pin, emit, serReaction_of_sclk_low, clockReaction_of_no_edge, latchReaction_of_no_edge, withSerialLow]

/-! The device reads neither the serial lines nor `BUSY` nor the trace at the end of a pulse (R65, R66). -/

section DeviceReads

variable (b : Bool) (tr : List Event) (s : State)

theorem dropOutcome_withSerialLow : dropOutcome (withSerialLow b tr s) = withSerialLow b tr (dropOutcome s) := by
  have hscript : (withSerialLow b tr s).eraseScript = s.eraseScript := rfl
  unfold dropOutcome
  rw [hscript]
  split <;> rfl

theorem erasePulse_withSerialLow : erasePulse (withSerialLow b tr s) = withSerialLow b tr (erasePulse s) := by
  unfold erasePulse
  rw [dropOutcome_withSerialLow]
  rfl

theorem programPulse_withSerialLow : programPulse (withSerialLow b tr s) = withSerialLow b tr (programPulse s) := by
  rw [programPulse, programPulse, apply_ite (withSerialLow b tr)]
  rfl

theorem endOfPulse_withSerialLow : endOfPulse (withSerialLow b tr s) = withSerialLow b tr (endOfPulse s) := by
  have haov : (withSerialLow b tr s).aov = s.aov := rfl
  unfold endOfPulse
  rw [programPulse_withSerialLow, erasePulse_withSerialLow, haov, apply_ite (withSerialLow b tr)]
  cases s.aov <;> rfl

theorem selectReaction_withSerialLow (v : Assertion) :
    selectReaction v (withSerialLow b tr s) = withSerialLow b tr (selectReaction v s) := by
  unfold selectReaction
  rw [endOfPulse_withSerialLow, apply_ite (withSerialLow b tr)]
  rfl

end DeviceReads

/-- The lines part of the reset sequence, all of it, whatever `BUSY`: every line at its reset level, the register cleared, and of
the device what its first chip-select event does (R65, R66, R216). -/
theorem resetLines_eq (b : Bool) (p : State) :
    resetLines { p with busy := b } =
      { selectReaction .deasserted p with
        ser := false, sclk := false, rclk := false, csel := .deasserted, oeh := .off, oel := .high, aov := .off
        ddir := .input, sroe := .off, mr := .deasserted, shiftReg := 0, latch := 0, busy := b
        trace := p.trace ++
          [.pin (.sclk false), .pin (.rclk false), .pin (.ser false), .pin (.cs .deasserted), .pin (.oeh .off),
           .pin (.oel .high), .pin (.aov .off), .pin (.ddir .input), .pin (.sroe .off), .pin (.mr .asserted),
           .delay .mrGuard, .pin (.mr .deasserted)] } := by
  have henable : ∀ tr, enable false (withSerialLow b tr p) =
      emit (.pin (.cs .deasserted)) { withSerialLow b tr (selectReaction .deasserted p) with csel := .deasserted } :=
    fun tr => by rw [← selectReaction_withSerialLow]; rfl
  have hregister : ∀ s, registerReset s = _ := fun s => (registerResetClearsAndDisables s).1
  simp only [resetLines, serialPinsLow_eq, henable, setOutputEnable_logicHigh, setAddressOverride, pin_aov, setDirection,
    if_true, pin_ddir, hregister]
  simp [emit, withSerialLow]

/-- The reset sequence, all of it (R44). -/
theorem resetSequence_eq (p : State) :
    resetSequence p =
      { p with
        cs := .idle, ser := false, sclk := false, rclk := false, mr := .deasserted, sroe := .off, csel := .deasserted
        oel := .high, oeh := .off, aov := .off, ddir := .input, d := none, shiftReg := 0, latch := 0, erase := none
        status := .ok, raddr := 0, rdata := 0, ropc := 0, busy := false, trace := [], fault := false
        mem := (selectReaction .deasserted p).mem, eraseScript := (selectReaction .deasserted p).eraseScript
        draws := (selectReaction .deasserted p).draws } := by
  rw [resetSequence, resetLines_eq, selectReaction_frame]

/-- Settles O9: the two equations of the reset sequence, and that its one chip-select event ends no pulse but under high
voltage. -/
theorem resetSequenceLeavesResetState : Obligations.ResetSequenceLeavesResetState := by
  refine fun p => ⟨congrArg State.trace (resetLines_eq p.busy p), resetSequence_eq p, fun hpulse => ?_⟩
  have hreaction : selectReaction .deasserted p = p := selectReaction_of_no_pulse fun ⟨_, hend⟩ => hpulse hend
  rw [resetSequence_eq, hreaction]

/-! ### Runs under another discipline -/

/-- A run allowed under one discipline is allowed under another that follows from it and from a kept property of the levels. -/
theorem runsBy_mono {ok ok' : Lines → Event → Prop} {I : Lines → Prop} {s t : State}
    (h : ∀ l x, I l → ok l x → ok' l x ∧ I (lineStep l x)) (hi : I (linesOf s)) (hruns : runsBy ok s t) : runsBy ok' s t := by
  obtain ⟨evs, htrace, hlines, hall⟩ := hruns
  exact ⟨evs, htrace, hlines, allAllowed_mono h hi hall⟩

/-- The events of a run are those its trace gained, so another discipline is checked on them alone. -/
theorem runsBy_of_trace {ok ok' : Lines → Event → Prop} {s t : State} {evs : List Event} (h : runsBy ok s t)
    (htrace : t.trace = s.trace ++ evs) (hall : allAllowed ok' (linesOf s) evs) : runsBy ok' s t := by
  obtain ⟨evs', htrace', hlines, -⟩ := h
  obtain rfl : evs = evs' := List.append_cancel_left (htrace.symm.trans htrace')
  exact ⟨evs, htrace, hlines, hall⟩

/-! ### The drivers of the output-enable net along the trace (R42, R224) -/

/-- R42 at a point of the trace; `exclusiveAfter` says it of the point after an event. -/
def ExclusiveLevels (l : Lines) : Prop := l.oeh = .on → l.oel = .off

/-- Events that each leave the drivers exclusive lead from exclusive drivers to exclusive drivers. -/
theorem exclusiveLevels_linesAfter {l : Lines} {evs : List Event} (h : ExclusiveLevels l)
    (hall : allAllowed exclusiveAfter l evs) : ExclusiveLevels (linesAfter l evs) := by
  induction evs generalizing l with
  | nil => exact h
  | cons x evs ih =>
    obtain ⟨hx, hevs⟩ := hall
    exact ih hx hevs

theorem driversExclusive_of_runsBy {s t : State} (h : DriversExclusive s) (hruns : runsBy exclusiveAfter s t) :
    DriversExclusive t := by
  obtain ⟨evs, -, hlines, hall⟩ := hruns
  have hend : ExclusiveLevels (linesOf t) := hlines ▸ exclusiveLevels_linesAfter h hall
  exact hend

/-- A serializer event moves neither driver. -/
theorem exclusiveAfter_of_isSerial {l : Lines} {x : Event} (h : ExclusiveLevels l) (hx : isSerial l x) :
    exclusiveAfter l x := by
  cases x with
  | pin p =>
    cases p with
    | ser | sclk | rclk => exact h
    | mr | sroe | cs | oel | oeh | aov | ddir | d => exact hx.elim
  | delay | sample | report | cancelPoll => exact hx.elim

/-- Every micro-operation keeps the drivers exclusive after each of its events: set_output_enable breaks before it makes, and
no other drives the net (R117). -/
theorem micro_runsBy_exclusiveAfter {s t : State} (m : Micro s t) (h : DriversExclusive s) : runsBy exclusiveAfter s t := by
  cases m with
  | address a =>
    obtain ⟨-, hserial⟩ := setAddress_serial a s
    exact runsBy_mono (I := ExclusiveLevels)
      (fun _ _ hl hx => ⟨exclusiveAfter_of_isSerial hl hx, exclusiveAfter_of_isSerial hl hx⟩) h hserial
  | stage | select | direction => exact runsBy_pin h
  | outputEnable mode => exact setOutputEnable_runsBy_exclusiveAfter mode s
  | addressOverride mode => cases mode <;> exact runsBy_pin h
  | write w =>
    unfold writeBus
    split
    · exact runsBy_trans (t := { s with dout := w }) (runsBy_silent rfl rfl) (runsBy_pin h)
    · exact runsBy_silent rfl rfl
  | read =>
    unfold readBus sample
    split <;> exact runsBy_event rfl rfl rfl h
  | wait | mismatch => exact runsBy_event rfl rfl rfl h
  | poll =>
    unfold pollCancel dropAnswer
    split <;> exact runsBy_event rfl rfl rfl h
  | record => exact runsBy_silent rfl rfl

theorem micro_keeps_driversExclusive {s t : State} (m : Micro s t) (h : DriversExclusive s) :
    DriversExclusive t ∧ runsBy exclusiveAfter s t :=
  have hruns := micro_runsBy_exclusiveAfter m h
  ⟨driversExclusive_of_runsBy h hruns, hruns⟩

/-- A run of micro-operations from exclusive drivers keeps them exclusive after each of its events. -/
theorem micros_runsBy_exclusiveAfter {s t : State} (h : Micros s t) (hx : DriversExclusive s) : runsBy exclusiveAfter s t :=
  (h.relates runsBy_refl (fun _ _ _ => runsBy_trans) (fun _ _ => micro_keeps_driversExclusive) hx).2

/-- Settles O50: exclusive drivers are kept by every micro-operation with every event allowed, so by every step. -/
theorem driversNeverOnTogether : Obligations.DriversNeverOnTogether := fun _ _ hx h =>
  step_runsBy (P := ExclusiveLevels) (fun _ _ _ _ hl => hl) (fun _ _ => micro_keeps_driversExclusive) hx h

/-! ### The data bus along the trace (R109, R225) -/

/-- An event that keeps the direction `d` of the data lines and is no access or drive that `d` shuts out. -/
def fits : Direction → Event → Bool
  | .input, .pin (.d _) => false
  | .output, .pin (.oel .low) => false
  | .output, .sample _ => false
  | d, .pin (.ddir v) => v == d
  | _, _ => true

/-- The data lines point in direction `d`, and the logic driver does not enable the device's output while they point out. -/
def BusAt (d : Direction) (l : Lines) : Prop := l.ddir = d ∧ (d = .output → l.oel ≠ .low)

/-- With the bus in one direction the controller and the device do not both drive it. -/
theorem BusAt.no_contention {d : Direction} {l : Lines} (h : BusAt d l) :
    ¬(l.ddir = .output ∧ l.csel = .asserted ∧ l.oel = .low ∧ l.oeh = .off) := by
  obtain ⟨hddir, hoel⟩ := h
  rintro ⟨hout, -, hlow, -⟩
  exact hoel (hddir.symm.trans hout) hlow

/-- An event that fits the direction leaves the bus in it. -/
theorem busAt_lineStep {d : Direction} {l : Lines} {x : Event} (h : BusAt d l) (hx : fits d x = true) :
    BusAt d (lineStep l x) := by
  obtain ⟨hddir, hoel⟩ := id h
  cases x with
  | pin p =>
    cases p with
    | oel v => exact ⟨hddir, fun hd (hv : v = .low) => by subst hd hv; cases hx⟩
    | ddir v => exact ⟨show v = d by cases d <;> simpa [fits] using hx, hoel⟩
    | ser | sclk | rclk | mr | sroe | cs | oeh | aov | d => exact h
  | delay | sample | report | cancelPoll => exact h

/-- An event that fits the direction is allowed. -/
theorem busDiscipline_of_fits {d : Direction} {l : Lines} {x : Event} (h : BusAt d l) (hx : fits d x = true) :
    busDiscipline l x := by
  obtain ⟨hddir, -⟩ := id h
  refine ⟨?_, (busAt_lineStep h hx).no_contention⟩
  cases x with
  | pin p =>
    cases p with
    | d w =>
      cases d with
      | input => cases hx
      | output => exact hddir
    | ser | sclk | rclk | mr | sroe | cs | oel | oeh | aov | ddir => trivial
  | sample w =>
    cases d with
    | input => exact hddir
    | output => cases hx
  | delay | report | cancelPoll => trivial

/-- The events keep the bus discipline from the levels `l` on, and leave the bus in direction `d`. -/
def BusRun (l : Lines) (evs : List Event) (d : Direction) : Prop :=
  allAllowed busDiscipline l evs ∧ BusAt d (linesAfter l evs)

theorem busRun_nil {d : Direction} {l : Lines} (h : BusAt d l) : BusRun l [] d := ⟨trivial, h⟩

theorem BusRun.append {l : Lines} {a b : List Event} {d d' : Direction} (h : BusRun l a d)
    (g : BusRun (linesAfter l a) b d') : BusRun l (a ++ b) d' := by
  rw [BusRun, allAllowed_append, linesAfter_append]
  exact ⟨⟨h.1, g.1⟩, g.2⟩

/-- Events that fit the direction the bus is in. -/
theorem busRun_of_fits {d : Direction} {l : Lines} {evs : List Event} (h : BusAt d l) (hevs : evs.all (fits d) = true) :
    BusRun l evs d := by
  induction evs generalizing l with
  | nil => exact busRun_nil h
  | cons x evs ih =>
    rw [List.all_cons, Bool.and_eq_true] at hevs
    obtain ⟨hx, hevs⟩ := hevs
    obtain ⟨hall, hend⟩ := ih (busAt_lineStep h hx) hevs
    exact ⟨⟨busDiscipline_of_fits h hx, hall⟩, hend⟩

/-- The bus turns to direction `d`, while the device's output is not enabled if it turns out; then events that fit it. -/
theorem busRun_of_turn {d : Direction} {l : Lines} {evs : List Event} (h : d = .output → l.oel ≠ .low)
    (hevs : evs.all (fits d) = true) : BusRun l (.pin (.ddir d) :: evs) d := by
  have hturned : BusAt d (lineStep l (.pin (.ddir d))) := ⟨rfl, h⟩
  obtain ⟨hall, hend⟩ := busRun_of_fits hturned hevs
  exact ⟨⟨⟨trivial, hturned.no_contention⟩, hall⟩, hend⟩

/-- The bus turns to input after a run: that is always allowed. -/
theorem BusRun.turn_input {l : Lines} {a b : List Event} {d : Direction} (h : BusRun l a d)
    (hb : b.all (fits .input) = true) : BusRun l (a ++ .pin (.ddir .input) :: b) .input :=
  h.append (busRun_of_turn nofun hb)

/-! The events of the commands by the direction they fit. -/

@[simp] theorem shiftEvents_fit (d : Direction) (k : Nat) (v : Addr) : (shiftEvents k v).all (fits d) = true := by
  induction k with
  | zero => rfl
  | succ k ih =>
    rw [shiftEvents, List.all_append, ih]
    cases d <;> rfl

/-- set_address moves serializer lines only, so it fits either direction (R90). -/
@[simp] theorem addressEvents_fit (d : Direction) (v : Addr) : (addressEvents v).all (fits d) = true := by
  rw [addressEvents, List.all_append, shiftEvents_fit]
  cases d <;> rfl

theorem readEvents_fit (v : Addr) (w : Word) : (readEvents v w).all (fits .input) = true := by
  rw [readEvents, List.all_append, addressEvents_fit]
  rfl

theorem programEvents_fit (v : Addr) (w : Word) : (programEvents v w).all (fits .output) = true := by
  rw [programEvents, List.all_append, addressEvents_fit]
  rfl

theorem verifyEvents_fit (cfg : Cfg) (m : Memory) (k v : Nat) : (verifyEvents cfg m k v).all (fits .input) = true := by
  induction k generalizing v with
  | zero => rfl
  | succ k ih =>
    rw [verifyEvents, lightReadEvents, List.all_append, List.all_append, addressEvents_fit]
    split
    · rw [ih]; rfl
    · rfl

/-- The events of an erase pulse after the bus has turned out. -/
theorem pulseTail_fit (v : Addr) : (erasePulseEvents v).tail.all (fits .output) = true := by
  simp [erasePulseEvents, fits]

/-- Steps 1 to 3 of an erase attempt: out for the pulse, at the reading levels of the output-enable net; then in to the end. -/
theorem busRun_attemptEvents {l : Lines} (h : l.oel ≠ .low) (v : Addr) (cfg : Cfg) (m : Memory) (k : Nat) :
    BusRun l (erasePulseEvents v ++ eraseSettleEvents ++ verifyEvents cfg m k 0) .input := by
  have hpulse : BusRun l (erasePulseEvents v) .output := busRun_of_turn (fun _ => h) (pulseTail_fit v)
  have hsettle : BusRun l (erasePulseEvents v ++ eraseSettleEvents) .input := hpulse.turn_input rfl
  exact hsettle.append (busRun_of_fits hsettle.2 (verifyEvents_fit cfg m k 0))

/-! ### The erase engine on the data bus (R151, R152) -/

/-- Where an attempt can begin: E's loop is entered in such a state, and each attempt ends in one. -/
abbrev AttemptBus (s : State) : Prop := AttemptReady s ∧ s.ddir = .input ∧ s.oel = .high ∧ s.oeh = .off

theorem attempted_bus {s : State} (h : AttemptReady s) : AttemptBus (attempted s) := by
  have hdrop : AttemptReady (dropOutcome s) := by simpa [AttemptReady, SerialIdle] using h
  exact ⟨hdrop, rfl, rfl, rfl⟩

/-- After a pass the waypoint only reports and polls (R154, R155). -/
theorem eraseWaypoint_events (s : State) :
    ∃ evs, (eraseWaypoint s).trace = s.trace ++ evs ∧ linesOf (eraseWaypoint s) = linesOf s ∧ evs.all (fits .input) = true := by
  unfold eraseWaypoint
  dsimp only
  split
  · exact ⟨[], (List.append_nil _).symm, rfl, rfl⟩
  · exact ⟨[_] ++ [_], (congrArg (· ++ _) (dropAnswer_trace _)).trans (List.append_assoc ..),
      by simp [linesOf, pollCancel], rfl⟩

theorem attemptBus_of_linesOf_eq {s t : State} (h : AttemptBus s) (hcfg : t.cfg = s.cfg) (hlines : linesOf t = linesOf s) :
    AttemptBus t := by
  obtain ⟨-, hsclk, hrclk, hmr, hsroe, -, hoel, hoeh, -, hddir⟩ := Lines.mk.inj hlines
  simpa only [AttemptBus, AttemptReady, SerialIdle, hcfg, hsclk, hrclk, hmr, hsroe, hoel, hoeh, hddir] using h

/-- One attempt keeps the bus discipline and ends where the next can begin. -/
theorem eraseAttempt_bus {s : State} (h : AttemptBus s) :
    AttemptBus (eraseAttempt s) ∧ runsBy busDiscipline s (eraseAttempt s) := by
  obtain ⟨hready, -, hoel, hoeh⟩ := h
  have hattempt := eraseAttempt_eq hready
  obtain ⟨evs, htrace, hlines, hevs⟩ := eraseWaypoint_events (attempted s)
  have hcfg := (micros_follows (eraseWaypoint_micros (attempted s))).cfg
  rw [← hattempt] at htrace hlines hcfg
  have hruns := micros_runsBy_exclusiveAfter (eraseAttempt_micros s) (by simp [DriversExclusive, hoeh])
  have hbus := busRun_attemptEvents (l := linesOf s) (by simp [linesOf, hoel]) (serOf s.cfg 0) s.cfg (attemptCells s)
    s.cfg.memorySize
  have hall := hbus.append (busRun_of_fits hbus.2 hevs)
  exact ⟨attemptBus_of_linesOf_eq (attempted_bus hready) hcfg hlines,
    runsBy_of_trace hruns (htrace.trans (List.append_assoc ..)) hall.1⟩

theorem eraseLoop_bus (n k : Nat) {s : State} (h : AttemptBus s) :
    AttemptBus (eraseLoop n k s) ∧ runsBy busDiscipline s (eraseLoop n k s) := by
  induction k generalizing s with
  | zero => exact ⟨h, runsBy_refl s⟩
  | succ k ih =>
    rw [eraseLoop]
    split
    · obtain ⟨hnext, hattempt⟩ := eraseAttempt_bus h
      obtain ⟨hend, hloop⟩ := ih hnext
      exact ⟨hend, runsBy_trans hattempt hloop⟩
    · exact ⟨h, runsBy_refl s⟩

/-! ### The commands on the data bus (R225) -/

/-- The events appended from `s` to `t` keep the bus discipline. -/
def BusKept (s t : State) : Prop := ∃ evs, t.trace = s.trace ++ evs ∧ allAllowed busDiscipline (linesOf s) evs

/-- The net is at high level by the logic driver alone (R29). -/
theorem drivers_of_logicHigh {s : State} (h : outputEnableMode s = some .logicHigh) : s.oel = .high ∧ s.oeh = .off := by
  cases hoel : s.oel <;> cases hoeh : s.oeh <;> simp [outputEnableMode, oeMode, hoel, hoeh] at h ⊢

/-- The net is at high voltage by the high-voltage driver alone (R29). -/
theorem drivers_of_highVoltage {s : State} (h : outputEnableMode s = some .highVoltage) : s.oel = .off ∧ s.oeh = .on := by
  cases hoel : s.oel <;> cases hoeh : s.oeh <;> simp [outputEnableMode, oeMode, hoel, hoeh] at h ⊢

/-- Between commands the bus is at input, the logic driver at high, outside a program cycle (R43). -/
theorem reading_levels {s : State} (hl : CycleLines s) (hc : s.cs ≠ .programActive) :
    BusAt .input (linesOf s) ∧ s.oel = .high ∧ s.oeh = .off := by
  obtain ⟨hmode, -, hddir⟩ := (cycleLines_iff_of_reading hc).mp hl
  exact ⟨⟨hddir, nofun⟩, drivers_of_logicHigh hmode⟩

/-- In a program cycle it is at output, the logic driver off (R43). -/
theorem programming_levels {s : State} (hl : CycleLines s) (hc : s.cs = .programActive) : BusAt .output (linesOf s) := by
  obtain ⟨hmode, -, hddir, -⟩ := (cycleLines_iff_of_programActive hc).mp hl
  obtain ⟨hoel, -⟩ := drivers_of_highVoltage hmode
  exact ⟨hddir, fun _ => by simp [linesOf, hoel]⟩

/-- E turns the bus out for each pulse only, and its cleanup finds it in (R151, R156). -/
theorem bodyE_bus (n : Nat) {s : State} (h : Settled s) (hddir : s.ddir = .input) (hoel : s.oel = .high)
    (hoeh : s.oeh = .off) : BusKept s (bodyE n s) := by
  have hinput : BusAt .input (linesOf s) := ⟨hddir, nofun⟩
  have hentry : runsBy busDiscipline s (eraseEntry s) :=
    ⟨[.pin (.sroe .on)], rfl, rfl, (busRun_of_fits hinput rfl).1⟩
  obtain ⟨⟨-, hddir', -⟩, hloop⟩ := eraseLoop_bus n n (s := eraseEntry s) ⟨eraseEntry_attemptReady h, hddir, hoel, hoeh⟩
  obtain ⟨evs, htrace, hlines, hall⟩ := runsBy_trans hentry hloop
  have hcleanup : allAllowed busDiscipline (linesOf (eraseLooped n s)) eraseCleanupEvents :=
    (busRun_of_fits (d := .input) ⟨hddir', nofun⟩ rfl).1
  obtain ⟨-, hdeselected, -⟩ := eraseLooped_frame n h
  have hend : (bodyE n s).trace = (eraseLooped n s).trace ++ eraseCleanupEvents :=
    congrArg State.trace (eraseFinish_eraseCleanup hdeselected)
  exact ⟨evs ++ eraseCleanupEvents, hend.trans ((congrArg (· ++ _) htrace).trans (List.append_assoc ..)),
    (allAllowed_append ..).mpr ⟨hall, hlines ▸ hcleanup⟩⟩

/-- From a sound state in its required mode every body keeps the bus discipline: R and the ends of a read cycle at input, P at
output, and BP, EP and E at the turns they make. -/
theorem commandBody_bus {i : Instr} {s : State} (hs : Sound s) (hc : s.cs = required i) :
    BusKept s (commandBody s.cfg i s) := by
  obtain ⟨⟨hsettled, -⟩, -, -, -, -, hl⟩ := sound_parts hs
  obtain ⟨⟨hw, -⟩, hi, hsel⟩ := id hsettled
  cases i with
  | br =>
    obtain ⟨hbus, -⟩ := reading_levels hl (by simp [hc, required])
    rw [commandBody, bodyBr_eq hsel]
    exact ⟨_, rfl, (busRun_of_fits hbus rfl).1⟩
  | r a =>
    have hread : s.cs ≠ .programActive := by simp [hc, required]
    obtain ⟨hbus, -⟩ := reading_levels hl hread
    obtain ⟨-, haov, hddir⟩ := (cycleLines_iff_of_reading hread).mp hl
    rw [commandBody, bodyR_eq hw hi hddir haov (addressOperand_lt hw a)]
    exact ⟨_, rfl, (busRun_of_fits hbus (readEvents_fit _ _)).1⟩
  | er =>
    obtain ⟨hbus, -⟩ := reading_levels hl (by simp [hc, required])
    rw [commandBody, bodyEr_eq hsel]
    exact ⟨_, rfl, (busRun_of_fits hbus rfl).1⟩
  | bp =>
    obtain ⟨-, hoel, -⟩ := reading_levels hl (by simp [hc, required])
    rw [commandBody, bodyBp_eq]
    exact ⟨_, rfl, (busRun_of_turn (fun _ => by simp [linesOf, hoel]) rfl).1⟩
  | p a w =>
    have hbus := programming_levels hl hc
    obtain ⟨hmode, haov, hddir, hsroe⟩ := (cycleLines_iff_of_programActive hc).mp hl
    rw [commandBody, bodyP_eq w hw hi hddir haov hmode hsroe (addressOperand_lt hw a)]
    exact ⟨_, rfl, (busRun_of_fits hbus (programEvents_fit _ w)).1⟩
  | ep =>
    have hbus := programming_levels hl hc
    rw [commandBody, bodyEp_eq hsel]
    have hout : BusRun (linesOf s) [.pin (.cs .deasserted), .pin (.aov .off), .pin (.oeh .off), .pin (.oel .high)] .output :=
      busRun_of_fits hbus rfl
    exact ⟨_, rfl, (hout.turn_input (b := [.pin (.sroe .off)]) rfl).1⟩
  | e n =>
    obtain ⟨⟨hddir, -⟩, hoel, hoeh⟩ := reading_levels hl (by simp [hc, required])
    exact bodyE_bus n hsettled hddir hoel hoeh

/-- Between commands the bus is at one of its two directions, without contention (R43). -/
theorem sound_busAt {s : State} (hs : Sound s) : ∃ d, BusAt d (linesOf s) := by
  obtain ⟨-, -, -, -, -, hl⟩ := sound_parts hs
  by_cases hc : s.cs = .programActive
  · exact ⟨_, programming_levels hl hc⟩
  · exact ⟨_, (reading_levels hl hc).1⟩

/-- A command that leaves the run unmarked was rejected, with one report, or ran in its required mode. -/
theorem exec_bus {i : Instr} {s t : State} (hs : Sound s) (h : exec i s = .next t) (hf : t.fault = false) : BusKept s t := by
  obtain ⟨hready, hrun⟩ := exec_run h
  cases hrun with
  | rejected cs strict eq =>
    obtain ⟨d, hbus⟩ := sound_busAt hs
    subst eq
    exact ⟨_, rfl, (busRun_of_fits hbus (by cases d <;> rfl)).1⟩
  | ran cs body =>
    obtain rfl : t = commandBody s.cfg i s := Host.Outcome.next.inj (h.symm.trans (exec_of_required hready cs rfl))
    exact commandBody_bus hs cs
  | marked cs strict body =>
    obtain ⟨-, -, hmark⟩ := bodyRun_mode body
    simp [hmark rfl] at hf

/-- Settles O52, along what a step can be; that the levels follow the events is O50's, so only the events are checked. -/
theorem noBusContention : Obligations.NoBusContention := by
  intro s t hs h hf
  obtain ⟨-, hx, -⟩ := sound_parts hs
  obtain ⟨hruns, -⟩ := driversNeverOnTogether s t hx h
  have hbus : BusKept s t := by
    obtain ⟨-, rfl⟩ | ⟨w, rest, -, ⟨i, -, hexec⟩ | ⟨-, -, rfl⟩⟩ := step_run h
    · exact ⟨[], (List.append_nil _).symm, trivial⟩
    · exact exec_bus (s := { s with commands := rest }) hs hexec hf
    · exact ⟨[], (List.append_nil _).symm, trivial⟩
  obtain ⟨evs, htrace, hall⟩ := hbus
  exact runsBy_of_trace hruns htrace hall

end Sys2Proof.Machine
end
